-- ==== Sys2Proof/Word.lean ====
section
/-! DEFINITION. The widths every file uses: a byte, and the 64-bit word that addresses, lengths, delays and
operand values are (00_scope.md R5, R16). A narrower value (a register of 8, 16 or 32 bits) stands zero-extended
in a word. -/

namespace Sys2Proof

/-- One byte of memory. -/
abbrev Byte := BitVec 8

/-- A 64-bit value: an address, a length, a delay, or a pattern of at most 64 bits zero-extended (R5, R16). -/
abbrev Word := BitVec 64

end Sys2Proof
end

