-- ==== Sys2Proof/Config.lean ====
section
/-! DEFINITION. The configuration record `Cfg` (00_scope.md section 4, R4 to R19): everything that is fixed when the
block is constructed. The external functions RUN, CB and ACT (R12, R13, R14) are given as data, so that a state
stays comparable; a script can be any terminating or hanging use of the block's operations (log 1, and the law
`script_switch` in Laws/Script.lean). The float arithmetic FNUM (R17) is uninterpreted or the reference of D11. -/

namespace Sys2Proof

/-- BO, the byte order (R6). -/
inductive ByteOrder where
  | be
  | le
  deriving DecidableEq, Repr

/-- `kind[i]` (R8). -/
inductive RegKind where
  | concrete
  | zero
  deriving DecidableEq, Repr

/-- One register of the bank as constructed: kind, width in bits, initial contents (R8, R15). `init` means nothing
for a Zero register, which holds no state (R23). -/
structure RegSpec where
  kind  : RegKind
  width : Nat
  init  : Word
  deriving DecidableEq, Repr

/-- FULL_POLICY (R19). The drop policy is not admitted (R202). -/
inductive FullPolicy where
  | reject
  | block
  deriving DecidableEq, Repr

/-- FNUM (R17): functions of the integrator's, known only by a number, or the reference of D11. -/
inductive Fnum where
  | external (id : Nat)
  | ieee754
  deriving DecidableEq, Repr

/-- What a script may compute with 64-bit values; comparisons answer 1 or 0. -/
inductive BinOp where
  | add | sub | and | or | xor | shl | shr | sar | eq | ult
  deriving DecidableEq, Repr

/-- A value a script computes from its arguments and from the statuses of the operations it has invoked, the latest
being number 0: `val` the result value, `code` the status code of R242, `byteAt` one byte of a raw view. -/
inductive Expr where
  | lit (v : Word)
  | arg (k : Nat)
  | val (k : Nat)
  | code (k : Nat)
  | byteAt (k j : Nat)
  | bin (op : BinOp) (a b : Expr)
  deriving DecidableEq, Repr

/-- An operand of an operation that a script invokes: a number, or a byte sequence (each byte a value's low 8 bits). -/
inductive Arg where
  | num (e : Expr)
  | bytes (es : List Expr)
  deriving DecidableEq, Repr

/-- An operation a script invokes: the record of R85, select code and operands. -/
structure Call where
  op   : Byte
  args : List Arg
  deriving DecidableEq, Repr

/-- How a script ends: OK (or `none` for CB), an opaque error payload, or an AccessViolation value (R12, R13, R242). -/
inductive Ret where
  | ok
  | payload (e : Expr)
  | violation (location numBytes wasRead : Expr)
  deriving DecidableEq, Repr

/-- A runner, a callback or an action body (R12, R13, R14): what it invokes, how it goes on from what it got back,
and what it returns. `hang` is one that never returns (70_reset_and_hazards.md R282). -/
inductive Script where
  | ret (r : Ret)
  | hang
  | call (c : Call) (next : Script)
  | branch (e : Expr) (nonzero zero : Script)
  deriving DecidableEq, Repr

/-- The configuration record (00_scope.md section 4). -/
structure Cfg where
  /-- N, the memory size in bytes (R4). -/
  memSize    : Nat
  /-- BO (R6). -/
  order      : ByteOrder
  /-- w, the instruction width in bytes (R7). -/
  width      : Nat
  /-- The register bank, R = its length (R8), with REG_INIT (R15). -/
  regs       : List RegSpec
  /-- PC_INDEX (R9). -/
  pcIndex    : Nat
  /-- Q, the capacity of the submission channel (R10). -/
  chanCap    : Nat
  /-- PMAX, the capacity of the pending list; `none` is INF (R11). -/
  pendCap    : Option Nat
  /-- FULL_POLICY (R19). -/
  fullPolicy : FullPolicy
  /-- FNUM (R17). -/
  fnum       : Fnum
  /-- RUN, with argument 0 the fetched word (R12). -/
  run        : Script
  /-- CB, with arguments the AccessViolation's location, numBytes and wasRead (R13). -/
  cb         : Option Script
  /-- ACT, with argument 0 the ActionId (R14). -/
  act        : Script
  /-- MEM_INIT (R15), as the cells that differ from the fill value. -/
  memInit    : List Host.Cell
  deriving DecidableEq, Repr

/-- FADD_32 of the integrator's FNUM number `id` (R17, D11): a total function, nothing more is known. Log 9. -/
opaque Config.fadd32 (id : Nat) (a b : BitVec 32) : BitVec 32
/-- FSUB_32 of the integrator's FNUM (R17, D11). Log 9. -/
opaque Config.fsub32 (id : Nat) (a b : BitVec 32) : BitVec 32
/-- FADD_64 of the integrator's FNUM (R17, D11). Log 9. -/
opaque Config.fadd64 (id : Nat) (a b : BitVec 64) : BitVec 64
/-- FSUB_64 of the integrator's FNUM (R17, D11). Log 9. -/
opaque Config.fsub64 (id : Nat) (a b : BitVec 64) : BitVec 64
/-- ONE_32 of the integrator's FNUM (30_encoding.md R91). Log 9. -/
opaque Config.one32 (id : Nat) : BitVec 32
/-- ONE_64 of the integrator's FNUM (30_encoding.md R91). Log 9. -/
opaque Config.one64 (id : Nat) : BitVec 64
/-- The sign and payload of a NaN that the reference FNUM answers to a sum (`subtract` false) or a difference: a free
value of the operation and its operands. Log 10. -/
opaque Config.nanBits (subtract : Bool) (a b : BitVec 64) : BitVec 64

/-- The configuration of `State.reset`: the fixture configuration TCFG of 95_test_vectors.md section 3.1 (N = 32,
BE, w = 2, r0 Zero W 8, r1 to r3 Concrete W 8, r4 Concrete W 16 the PC, Q = 2, PMAX = INF, REJECT, no CB, all zero),
with the runner RUN_ok of section 2.4, bodies that do nothing, and FNUM the uninterpreted external number 0: TCFG gives no
FNUM and D11 leaves it open. No register there has 32 or 64 bits, so nothing in its runs shows which FNUM it is.
DESIGN CHOICE, log 2. -/
def Config.standard : Cfg where
  memSize    := 32
  order      := .be
  width      := 2
  regs       := [⟨.zero, 8, 0⟩, ⟨.concrete, 8, 0⟩, ⟨.concrete, 8, 0⟩, ⟨.concrete, 8, 0⟩, ⟨.concrete, 16, 0⟩]
  pcIndex    := 4
  chanCap    := 2
  pendCap    := none
  fullPolicy := .reject
  fnum       := .external 0
  run        := .ret .ok
  cb         := none
  act        := .ret .ok
  memInit    := []

end Sys2Proof
end

