-- ==== Sys2Proof/Machine/Bytes.lean ====
section
/-! DEFINITION. Byte order (20_memory.md R52) and patterns narrower than a word. -/

namespace Sys2Proof.Machine

/-- `pack_LE`: the lowest address holds the least significant byte (R52). -/
def packLE : List Byte → Nat
  | [] => 0
  | b :: bs => b.toNat + 256 * packLE bs

/-- `pack_order` of bytes in address order (R52); `pack_BE` is `pack_LE` of the bytes in the other direction. -/
def pack : ByteOrder → List Byte → Nat
  | .le, bs => packLE bs
  | .be, bs => packLE bs.reverse

/-- `unpack_LE(n, v)`: the low `n` bytes of `v`, least significant first (R52). -/
def unpackLE : Nat → Nat → List Byte
  | 0, _ => []
  | n + 1, v => BitVec.ofNat 8 v :: unpackLE n (v / 256)

/-- `unpack_order(n, v)` in address order (R52). -/
def unpack : ByteOrder → Nat → Nat → List Byte
  | .le, n, v => unpackLE n v
  | .be, n, v => (unpackLE n v).reverse

/-- A value is a `w`-bit pattern. -/
abbrev fits (w : Nat) (v : Word) : Prop := v.toNat < 2 ^ w

/-- `v mod 2^w`, as a word. -/
def lowBits (w : Nat) (v : Word) : Word := BitVec.ofNat 64 (v.toNat % 2 ^ w)

end Sys2Proof.Machine
end

