-- ==== Sys2Proof/Machine/Memory.lean ====
section
/-! DEFINITION. Memory as a sparse list of cells in one canonical form (10_state.md R21), read and written a byte at
a time. The bounds rule is not here: it stands in Machine/Ops.lean and comes before any of these (41_memory_ops.md
R101). -/

namespace Sys2Proof.Machine

/-- The bytes of memory that differ from `memFill`, addresses strictly rising. The memory of R21 is the function
`Memory.read` on the addresses below N. -/
abbrev Memory := List Host.Cell

/-- What an address that is not listed reads as. MEM_INIT (R15) is any list of cells, so this fixes no contents;
DESIGN CHOICE, log 3. -/
def memFill : Byte := 0#8

/-- The byte at an address. -/
def Memory.read : Memory → Nat → Byte
  | [], _ => memFill
  | (k, v) :: rest, a => if k = a then v else Memory.read rest a

/-- Writes one byte, keeping the canonical form: the fill value is never listed. -/
def Memory.write : Memory → Nat → Byte → Memory
  | [], a, v => if v = memFill then [] else [(a, v)]
  | (k, x) :: rest, a, v =>
    if a < k then (if v = memFill then (k, x) :: rest else (a, v) :: (k, x) :: rest)
    else if a = k then (if v = memFill then rest else (a, v) :: rest)
    else (k, x) :: Memory.write rest a v

/-- The `n` bytes at increasing addresses from `a`. -/
def Memory.readBytes (m : Memory) : Nat → Nat → List Byte
  | _, 0 => []
  | a, n + 1 => m.read a :: Memory.readBytes m (a + 1) n

/-- Writes a byte sequence at increasing addresses from `a` (R106). -/
def Memory.writeBytes (m : Memory) (a : Nat) : List Byte → Memory
  | [] => m
  | b :: bs => Memory.writeBytes (m.write a b) (a + 1) bs

/-- The canonical form: addresses strictly rising, no listed byte equal to the fill. -/
abbrev Memory.wf (m : Memory) : Prop :=
  m.Pairwise (fun x y => x.1 < y.1) ∧ ∀ c ∈ m, c.2 ≠ memFill

/-- Every listed address is below `size`: the memory is a sequence of `size` bytes (R21). -/
abbrev Memory.inside (m : Memory) (size : Nat) : Prop := ∀ c ∈ m, c.1 < size

end Sys2Proof.Machine
end

