-- ==== Sys2Proof/Syntax.lean ====
section
/-! DEFINITION. The operations of 30_encoding.md R86 and the instruction word of R83, one constructor per row of
spec/opcode_table.json; the two kinds of encoded object of R80; transactions and their agents (R85, R88); the
pseudo-operations of R90 and R91. -/

namespace Sys2Proof

/-- One constructor per row of the opcode table. Operand widths are those of R86; a register operand `v`, `d` or `f`
is a W[i]-bit pattern, zero-extended, which the operation itself refuses when it is wider than W[i] (R87). -/
inductive Instr where
  /-- 0x01 MEM.READ_BYTE index (R102) -/
  | memReadByte (index : Word)
  /-- 0x02 MEM.WRITE_BYTE value, index (R103) -/
  | memWriteByte (value : Byte) (index : Word)
  /-- 0x03 MEM.READ_RAW start, n (R104) -/
  | memReadRaw (start n : Word)
  /-- 0x04 MEM.WRITE_RAW data, start (R106) -/
  | memWriteRaw (data : List Byte) (start : Word)
  /-- 0x10 MEM.READ_U16 order, start (R110) -/
  | memReadU16 (order : ByteOrder) (start : Word)
  /-- 0x11 MEM.READ_U32 order, start (R111) -/
  | memReadU32 (order : ByteOrder) (start : Word)
  /-- 0x12 MEM.READ_U64 order, start (R112) -/
  | memReadU64 (order : ByteOrder) (start : Word)
  /-- 0x13 MEM.READ_F32 order, start (R113) -/
  | memReadF32 (order : ByteOrder) (start : Word)
  /-- 0x14 MEM.READ_F64 order, start (R114) -/
  | memReadF64 (order : ByteOrder) (start : Word)
  /-- 0x18 MEM.WRITE_U16 order, start, v (R115) -/
  | memWriteU16 (order : ByteOrder) (start : Word) (v : BitVec 16)
  /-- 0x19 MEM.WRITE_U32 order, start, v (R116) -/
  | memWriteU32 (order : ByteOrder) (start : Word) (v : BitVec 32)
  /-- 0x1A MEM.WRITE_U64 order, start, v (R117) -/
  | memWriteU64 (order : ByteOrder) (start : Word) (v : BitVec 64)
  /-- 0x1B MEM.WRITE_F32 order, start, f (R118) -/
  | memWriteF32 (order : ByteOrder) (start : Word) (f : BitVec 32)
  /-- 0x1C MEM.WRITE_F64 order, start, f (R119) -/
  | memWriteF64 (order : ByteOrder) (start : Word) (f : BitVec 64)
  /-- 0x20 REG.SET_INT i, v (R141) -/
  | regSetInt (i : Nat) (v : Word)
  /-- 0x21 REG.GET_INT i (R142) -/
  | regGetInt (i : Nat)
  /-- 0x22 REG.INC_INT i, d (R143) -/
  | regIncInt (i : Nat) (d : Word)
  /-- 0x23 REG.DEC_INT i, d (R144) -/
  | regDecInt (i : Nat) (d : Word)
  /-- 0x24 REG.SET_FLOAT i, f (R145) -/
  | regSetFloat (i : Nat) (f : Word)
  /-- 0x25 REG.GET_FLOAT i (R146) -/
  | regGetFloat (i : Nat)
  /-- 0x26 REG.INC_FLOAT i, d (R147) -/
  | regIncFloat (i : Nat) (d : Word)
  /-- 0x27 REG.DEC_FLOAT i, d (R148) -/
  | regDecFloat (i : Nat) (d : Word)
  /-- 0x28 REG.CAN_WRITE i (R149) -/
  | regCanWrite (i : Nat)
  /-- 0x30 PC.INCREMENT delta (R160) -/
  | pcIncrement (delta : Word)
  /-- 0x31 PC.READ (R161) -/
  | pcRead
  /-- 0x40 CYCLE.STEP (R180) -/
  | cycleStep
  /-- 0x50 SCHED.SUBMIT action, delay, description (R201); ActionId and Tag are 64 bits here, log 13 -/
  | schedSubmit (action delay description : Word)
  /-- 0x51 SCHED.STEP (R204) -/
  | schedStep
  /-- RUN.WORD: the fetched word of 8w bits, handed whole to RUN (R83, R84, R92) -/
  | runWord (word : Word)
  deriving DecidableEq, Repr

/-- A typed operand value of an operation record (R85). -/
inductive Operand where
  | num (v : Nat)
  | bytes (data : List Byte)
  deriving DecidableEq, Repr

/-- The two kinds of encoded object (R80): an operation record (R85), or the bytes of an instruction word in address
order (R81, R82). -/
inductive Encoded where
  | operation (op : Byte) (operands : List Operand)
  | word (bytes : List Byte)
  deriving DecidableEq, Repr

/-- How the host reaches Memory: at the Memory level, where a typed helper takes either order, or through the
ProcessorCore, whose typed accesses pass BO (R53, R54). -/
inductive Level where
  | memory
  | core
  deriving DecidableEq, Repr

/-- Who invokes an operation from outside a step (R88), the host at one of its two levels (R54). -/
inductive Agent where
  | host (level : Level)
  | producer
  deriving DecidableEq, Repr

/-- A transaction: an agent invokes an operation (R85, R88, R258). Log 6. -/
structure Txn where
  agent    : Agent
  op       : Byte
  operands : List Operand
  deriving DecidableEq, Repr

/-- The pseudo-operations of R90 and R91. -/
inductive Pseudo where
  | readTyped (order : ByteOrder) (n : Nat) (start : Word)
  | incInt (i : Nat)
  | decInt (i : Nat)
  | incFloat (i : Nat)
  | decFloat (i : Nat)
  deriving DecidableEq, Repr

end Sys2Proof
end

