-- ==== Sys2Proof/WellFormed.lean ====
section
/-! DEFINITION. Well-formed configurations (70_reset_and_hazards.md R270) and well-formed instructions of a
configuration (30_encoding.md R86, R87). -/

namespace Sys2Proof

open Machine

/-- A register's width and initial contents are admitted: W in 8, 16, 32, 64, and REG_INIT a W-bit pattern where the
register is Concrete (R8, R270). -/
abbrev RegSpec.WellFormed (r : RegSpec) : Prop :=
  r.width ∈ [8, 16, 32, 64] ∧ (r.kind = .concrete → fits r.width r.init)

/-- `kind[PC_INDEX] = Concrete` and PC_INDEX < R (R9, R270). -/
abbrev Cfg.pcDesignated (c : Cfg) : Prop := (c.regs[c.pcIndex]?).map (·.kind) = some .concrete

/-- `WellFormed(Cfg)` of R270. The last clause is "length(MEM_INIT) = N" for a sparse memory: canonical, and nothing
listed at or above N. -/
abbrev Cfg.WellFormed (c : Cfg) : Prop :=
  c.memSize ≤ 2 ^ 64 - 1 ∧
  c.width ∈ [1, 2, 4, 8] ∧
  1 ≤ c.regs.length ∧
  (∀ r ∈ c.regs, r.WellFormed) ∧
  c.pcDesignated ∧
  1 ≤ c.chanCap ∧
  c.pendCap ≠ some 0 ∧
  Memory.wf c.memInit ∧ Memory.inside c.memInit c.memSize

/-- The register index is in the bank and the pattern fits the register (R25, R87). -/
def Cfg.regOperand (c : Cfg) (i : Nat) (v : Word) : Bool :=
  match c.regs[i]? with
  | some r => decide (fits r.width v)
  | none => false

/-- The register index is in the bank (R25). -/
def Cfg.regIndex (c : Cfg) (i : Nat) : Bool := decide (i < c.regs.length)

/-- Every operand is one that R86 admits under the configuration. -/
def Instr.wellFormed (c : Cfg) : Instr → Bool
  | .memReadByte _ => true
  | .memWriteByte _ _ => true
  | .memReadRaw _ _ => true
  | .memWriteRaw data _ => decide (data.length < 2 ^ 64)
  | .memReadU16 _ _ => true
  | .memReadU32 _ _ => true
  | .memReadU64 _ _ => true
  | .memReadF32 _ _ => true
  | .memReadF64 _ _ => true
  | .memWriteU16 _ _ _ => true
  | .memWriteU32 _ _ _ => true
  | .memWriteU64 _ _ _ => true
  | .memWriteF32 _ _ _ => true
  | .memWriteF64 _ _ _ => true
  | .regSetInt i v => c.regOperand i v
  | .regGetInt i => c.regIndex i
  | .regIncInt i d => c.regOperand i d
  | .regDecInt i d => c.regOperand i d
  | .regSetFloat i f => c.regOperand i f
  | .regGetFloat i => c.regIndex i
  | .regIncFloat i d => c.regOperand i d
  | .regDecFloat i d => c.regOperand i d
  | .regCanWrite i => c.regIndex i
  | .pcIncrement _ => true
  | .pcRead => true
  | .cycleStep => true
  | .schedSubmit _ _ _ => true
  | .schedStep => true
  | .runWord word => decide (fits (8 * c.width) word)

end Sys2Proof
end

