-- ==== Sys2Proof/Decode.lean ====
section
/-! DEFINITION. The decoder of operation records and of instruction words (30_encoding.md R81 to R87, R92), and after
it the encoder, written from the same table. The select codes are those of R86. -/

namespace Sys2Proof

open Machine

/-- Why an encoded object is refused (R87). -/
inductive DecodeError where
  /-- The select code is not in the table of R86. -/
  | reservedSelect (op : Byte)
  /-- The record has not the operands, in number and kind, that R86 gives the operation. -/
  | wrongOperands (op : Byte)
  /-- An operand does not fit its width. -/
  | operandTooWide (width : Nat)
  /-- The bytes are not one instruction word of w bytes (R81). -/
  | wordLength (n : Nat)
  deriving DecidableEq, Repr

/-- A numeric operand of `w` bits (R85, R87). -/
def numOperand (w : Nat) (v : Nat) : Except DecodeError (BitVec w) :=
  if v < 2 ^ w then .ok (BitVec.ofNat w v) else .error (.operandTooWide w)

/-- The `order` operand: 1 bit, 0 = BE, 1 = LE (R86, D2). -/
def orderOperand (v : Nat) : Except DecodeError ByteOrder :=
  if v = 0 then .ok .be else if v = 1 then .ok .le else .error (.operandTooWide 1)

/-- Operands of an operation that takes one `w`-bit number. -/
def oneNum (w : Nat) (op : Byte) (xs : List Operand) (k : BitVec w → Instr) : Except DecodeError Instr :=
  match xs with
  | [.num a] => (numOperand w a).map k
  | _ => .error (.wrongOperands op)

/-- Operands (order, start) of a typed read. -/
def readOperands (op : Byte) (xs : List Operand) (k : ByteOrder → Word → Instr) : Except DecodeError Instr :=
  match xs with
  | [.num o, .num a] => do return k (← orderOperand o) (← numOperand 64 a)
  | _ => .error (.wrongOperands op)

/-- Operands (order, start, v) of a typed write of `w` bits. -/
def writeOperands (w : Nat) (op : Byte) (xs : List Operand) (k : ByteOrder → Word → BitVec w → Instr) :
    Except DecodeError Instr :=
  match xs with
  | [.num o, .num a, .num v] => do return k (← orderOperand o) (← numOperand 64 a) (← numOperand w v)
  | _ => .error (.wrongOperands op)

/-- A register index. Which indices exist is the configuration's, and the operation refuses the others (R25). -/
def regOperand (op : Byte) (xs : List Operand) (k : Nat → Instr) : Except DecodeError Instr :=
  match xs with
  | [.num i] => .ok (k i)
  | _ => .error (.wrongOperands op)

/-- A register index and a pattern. The operation refuses one wider than W[i] (R87). -/
def regValueOperands (op : Byte) (xs : List Operand) (k : Nat → Word → Instr) : Except DecodeError Instr :=
  match xs with
  | [.num i, .num v] => (numOperand 64 v).map (k i)
  | _ => .error (.wrongOperands op)

/-- No operands. -/
def noOperands (op : Byte) (xs : List Operand) (i : Instr) : Except DecodeError Instr :=
  match xs with
  | [] => .ok i
  | _ => .error (.wrongOperands op)

/-- Decodes an operation record by the table of R86; every other select code is reserved and refused (R87). -/
def decodeOp (op : Byte) (xs : List Operand) : Except DecodeError Instr :=
  match op.toNat with
  | 0x01 => oneNum 64 op xs .memReadByte
  | 0x02 =>
    match xs with
    | [.num v, .num a] => do return .memWriteByte (← numOperand 8 v) (← numOperand 64 a)
    | _ => .error (.wrongOperands op)
  | 0x03 =>
    match xs with
    | [.num a, .num n] => do return .memReadRaw (← numOperand 64 a) (← numOperand 64 n)
    | _ => .error (.wrongOperands op)
  | 0x04 =>
    match xs with
    | [.bytes data, .num a] =>
      if data.length < 2 ^ 64 then (numOperand 64 a).map (.memWriteRaw data) else .error (.operandTooWide 64)
    | _ => .error (.wrongOperands op)
  | 0x10 => readOperands op xs .memReadU16
  | 0x11 => readOperands op xs .memReadU32
  | 0x12 => readOperands op xs .memReadU64
  | 0x13 => readOperands op xs .memReadF32
  | 0x14 => readOperands op xs .memReadF64
  | 0x18 => writeOperands 16 op xs .memWriteU16
  | 0x19 => writeOperands 32 op xs .memWriteU32
  | 0x1A => writeOperands 64 op xs .memWriteU64
  | 0x1B => writeOperands 32 op xs .memWriteF32
  | 0x1C => writeOperands 64 op xs .memWriteF64
  | 0x20 => regValueOperands op xs .regSetInt
  | 0x21 => regOperand op xs .regGetInt
  | 0x22 => regValueOperands op xs .regIncInt
  | 0x23 => regValueOperands op xs .regDecInt
  | 0x24 => regValueOperands op xs .regSetFloat
  | 0x25 => regOperand op xs .regGetFloat
  | 0x26 => regValueOperands op xs .regIncFloat
  | 0x27 => regValueOperands op xs .regDecFloat
  | 0x28 => regOperand op xs .regCanWrite
  | 0x30 => oneNum 64 op xs .pcIncrement
  | 0x31 => noOperands op xs .pcRead
  | 0x40 => noOperands op xs .cycleStep
  | 0x50 =>
    match xs with
    | [.num a, .num d, .num t] => do return .schedSubmit (← numOperand 64 a) (← numOperand 64 d) (← numOperand 64 t)
    | _ => .error (.wrongOperands op)
  | 0x51 => noOperands op xs .schedStep
  | _ => .error (.reservedSelect op)

/-- An instruction word: exactly w bytes, packed by BO, with one field, never illegal (R81 to R84). -/
def decodeWord (c : Cfg) (bytes : List Byte) : Except DecodeError Instr :=
  if bytes.length = c.width then .ok (.runWord (BitVec.ofNat 64 (pack c.order bytes)))
  else .error (.wordLength bytes.length)

/-- Decodes either kind of encoded object (R80). -/
def decode (c : Cfg) : Encoded → Except DecodeError Instr
  | .operation op xs => decodeOp op xs
  | .word bytes => decodeWord c bytes

/-- The code of a byte order (R86, D2). -/
def orderCode : ByteOrder → Nat
  | .be => 0
  | .le => 1

/-- Encodes an instruction by the table of R86, an instruction word as its w bytes in BO (R81, R82). -/
def encode (c : Cfg) : Instr → Encoded
  | .memReadByte a => .operation 0x01 [.num a.toNat]
  | .memWriteByte v a => .operation 0x02 [.num v.toNat, .num a.toNat]
  | .memReadRaw a n => .operation 0x03 [.num a.toNat, .num n.toNat]
  | .memWriteRaw data a => .operation 0x04 [.bytes data, .num a.toNat]
  | .memReadU16 o a => .operation 0x10 [.num (orderCode o), .num a.toNat]
  | .memReadU32 o a => .operation 0x11 [.num (orderCode o), .num a.toNat]
  | .memReadU64 o a => .operation 0x12 [.num (orderCode o), .num a.toNat]
  | .memReadF32 o a => .operation 0x13 [.num (orderCode o), .num a.toNat]
  | .memReadF64 o a => .operation 0x14 [.num (orderCode o), .num a.toNat]
  | .memWriteU16 o a v => .operation 0x18 [.num (orderCode o), .num a.toNat, .num v.toNat]
  | .memWriteU32 o a v => .operation 0x19 [.num (orderCode o), .num a.toNat, .num v.toNat]
  | .memWriteU64 o a v => .operation 0x1A [.num (orderCode o), .num a.toNat, .num v.toNat]
  | .memWriteF32 o a f => .operation 0x1B [.num (orderCode o), .num a.toNat, .num f.toNat]
  | .memWriteF64 o a f => .operation 0x1C [.num (orderCode o), .num a.toNat, .num f.toNat]
  | .regSetInt i v => .operation 0x20 [.num i, .num v.toNat]
  | .regGetInt i => .operation 0x21 [.num i]
  | .regIncInt i d => .operation 0x22 [.num i, .num d.toNat]
  | .regDecInt i d => .operation 0x23 [.num i, .num d.toNat]
  | .regSetFloat i f => .operation 0x24 [.num i, .num f.toNat]
  | .regGetFloat i => .operation 0x25 [.num i]
  | .regIncFloat i d => .operation 0x26 [.num i, .num d.toNat]
  | .regDecFloat i d => .operation 0x27 [.num i, .num d.toNat]
  | .regCanWrite i => .operation 0x28 [.num i]
  | .pcIncrement d => .operation 0x30 [.num d.toNat]
  | .pcRead => .operation 0x31 []
  | .cycleStep => .operation 0x40 []
  | .schedSubmit a d t => .operation 0x50 [.num a.toNat, .num d.toNat, .num t.toNat]
  | .schedStep => .operation 0x51 []
  | .runWord word => .word (unpack c.order c.width word.toNat)

/-- ONE_W, the encoding of 1.0 in the format FNUM fixes for width W (R91); none where no format exists (D11). -/
def oneOf : Fnum → Nat → Option Word
  | .external id, 32 => some ((Config.one32 id).setWidth 64)
  | .external id, 64 => some (Config.one64 id)
  | .ieee754, 32 => some 0x3F800000#64
  | .ieee754, 64 => some 0x3FF0000000000000#64
  | _, _ => none

/-- The delta of a float form without one: ONE_W, or, for a Zero register of a width without a float format, which
discards any delta (R147), 0. -/
def floatDelta (c : Cfg) (r : RegSpec) : Option Word :=
  match oneOf c.fnum r.width with
  | some one => some one
  | none => if r.kind = .zero then some 0#64 else none

/-- Expands a pseudo-operation (R90, R91); `none` is refused (a width other than 1, 2, 4, 8; no register; no float
format). -/
def Pseudo.expand (c : Cfg) : Pseudo → Option Instr
  | .readTyped _ 1 start => some (.memReadByte start)
  | .readTyped order 2 start => some (.memReadU16 order start)
  | .readTyped order 4 start => some (.memReadU32 order start)
  | .readTyped order 8 start => some (.memReadU64 order start)
  | .readTyped _ _ _ => none
  | .incInt i => some (.regIncInt i 1)
  | .decInt i => some (.regDecInt i 1)
  | .incFloat i => (c.regs[i]?).bind fun r => (floatDelta c r).map (.regIncFloat i)
  | .decFloat i => (c.regs[i]?).bind fun r => (floatDelta c r).map (.regDecFloat i)

/-- The operands of an assigned select code with every operand 0 or empty, as the opcode table gives them no bits. -/
def zeroOperands (op : Byte) : List Operand :=
  match op.toNat with
  | 0x01 | 0x21 | 0x25 | 0x28 | 0x30 => [.num 0]
  | 0x02 | 0x03 | 0x10 | 0x11 | 0x12 | 0x13 | 0x14 => [.num 0, .num 0]
  | 0x20 | 0x22 | 0x23 | 0x24 | 0x26 | 0x27 => [.num 0, .num 0]
  | 0x04 => [.bytes [], .num 0]
  | 0x18 | 0x19 | 0x1A | 0x1B | 0x1C | 0x50 => [.num 0, .num 0, .num 0]
  | _ => []

/-- What an opcode-table word of `nbits` bits stands for: an operation record where its 8 bits are an assigned select
code (rows of format CMD8), and otherwise an instruction word of the standard configuration (row RUN.WORD, whose mask
is 0, R92). Log 8. -/
def tableEncoded (c : Cfg) (nbits w : Nat) : Option Encoded :=
  let op := BitVec.ofNat 8 w
  if nbits = 8 ∧ w < 256 ∧ (decodeOp op (zeroOperands op)).toOption.isSome then some (.operation op (zeroOperands op))
  else if w < 2 ^ (8 * c.width) then some (.word (unpack c.order c.width w))
  else none

/-- The instruction the decoder reads from an opcode-table word. -/
def decodeTableWord (nbits w : Nat) : Option Instr :=
  (tableEncoded Config.standard nbits w).bind fun e => (decode Config.standard e).toOption

end Sys2Proof
end

