-- ==== Sys2Proof/Machine/State.lean ====
section
/-! DEFINITION. The state of the block (10_state.md R20 to R40), the statuses its operations answer (60_exceptions.md
R242), the reasons a run of the model stops, and the state right after construction (R40). -/

namespace Sys2Proof.Machine

/-- An InterruptAction (R34). -/
structure Action where
  action      : Word
  delay       : BitVec 64
  description : Word
  deriving DecidableEq, Repr

/-- The AccessViolation record (41_memory_ops.md R100). -/
structure AccessViolation where
  location : Word
  numBytes : Word
  wasRead  : Bool
  deriving DecidableEq, Repr

/-- An error value (R240 to R242): an AccessViolation whoever returns it, RUN's opaque payload, or CB's. -/
inductive Err where
  | av (v : AccessViolation)
  | runner (payload : Word)
  | callback (payload : Word)
  deriving DecidableEq, Repr

/-- The value of an `OK(value)`: a pattern of `width` bits (zero-extended here), a truth value, or a raw view with its
`backed` flag. -/
inductive Value where
  | bits (width : Nat) (v : Word)
  | bool (b : Bool)
  | view (bytes : List Byte) (backed : Bool)
  deriving DecidableEq, Repr

/-- The status an operation ends with (00_scope.md section 5, R242). `noStatus` stands where no operation has ended:
before the first, and after a submission that BLOCK holds (R201). -/
inductive Reply where
  | noStatus
  | ok
  | okVal (v : Value)
  | err (e : Err)
  | full
  deriving DecidableEq, Repr

/-- The status that a submitter gets at last, whose submission BLOCK had held (R201). -/
structure Answer where
  submission : Action
  status     : Reply
  deriving DecidableEq, Repr

/-- One entry of the event history, which D29 leaves to a model: RUN was handed a word, CB was called with an error, an
action fired. -/
inductive Event where
  | ran (word : Word)
  | calledBack (v : AccessViolation)
  | fired (x : Action)
  deriving DecidableEq, Repr

/-- Why the machine stops without a next state. -/
inductive Fault where
  /-- A RUN, CB or action body that never returns (R282, 93 F8: stuck). Raised by a script that hangs. Safe: the step
  is not completed. -/
  | stepperHung
  deriving DecidableEq, Repr

/-- Why an operation has no meaning: the spec's own "refused" (00_scope.md section 5). All are safe: a refused operation
gets no result. -/
inductive Refusal where
  /-- exec has no meaning for the instruction yet. Raised by Dispatch alone; no arm raises it now. -/
  | notModelled (mnemonic : String)
  /-- The select code is reserved (R87). Raised when a transaction or a call is decoded. -/
  | reservedSelect (op : Byte)
  /-- The record's operands are not those of R86. Raised when a transaction or a call is decoded. -/
  | wrongOperands (op : Byte)
  /-- An operand does not fit its width (R87). Raised by decoding, by register operations and by RUN.WORD. -/
  | operandTooWide (width : Nat)
  /-- A register index outside the bank (R25). Raised by register operations. -/
  | registerOutsideBank (i : Nat)
  /-- Float arithmetic on a register of a width that has no float format (R147, R148). -/
  | noFloatFormat (width : Nat)
  /-- A typed access through the core whose order is not BO (R53, R54). Raised by calls inside a step and by the
  host's transactions through the core. -/
  | orderNotOfCore
  /-- CYCLE.STEP or SCHED.STEP invoked inside a step (R88, R192). -/
  | stepInsideStep
  /-- A call names an instruction word: no operation does (R86). No select code reaches it. -/
  | wordIsNoOperation
  /-- A submission inside a step to a full channel under BLOCK (R201). -/
  | submitWouldBlock
  /-- A producer invokes something other than SCHED.SUBMIT (R63, R88). -/
  | producerOutsideChannel
  /-- The configuration is not well formed, and no block is built (R270). Raised by construction. -/
  | illFormedConfig
  deriving DecidableEq, Repr

/-- The machine. `mem`, `regs`, `chan` and `pend` are the spec's BlockState (R20); `cfg` is the configuration, which no
step changes (R36); `held`, `answered`, `reply`, `inbox` and `events` are the model's own (logs 11, 5, 6, 14). -/
structure State where
  /-- The configuration record (00_scope.md section 4). -/
  cfg    : Cfg
  /-- The memory (R21). -/
  mem    : Memory
  /-- The register bank: one slot per index, a pattern of W[i] bits; a Zero register's slot is never read (R22, R23). -/
  regs   : List Word
  /-- The submission channel, head first (R32). -/
  chan   : List Action
  /-- The pending list, in arrival order (R33). -/
  pend   : List Action
  /-- Submissions that BLOCK holds until the channel has room, oldest first (R201). -/
  held   : List Action
  /-- The statuses of submissions that BLOCK held and that have entered the channel since, oldest first (R201). -/
  answered : List Answer
  /-- The status of the latest operation, as its invoker gets it (R242, R243). -/
  reply  : Reply
  /-- Transactions from outside that no step has taken yet, oldest first (R85, R258). -/
  inbox  : List Txn
  /-- The event history, oldest first (D29). -/
  events : List Event
  deriving DecidableEq, Repr

/-- The state right after construction with a configuration (R40). -/
def State.ofCfg (c : Cfg) : State where
  cfg    := c
  mem    := c.memInit
  regs   := c.regs.map fun r => match r.kind with
    | .concrete => r.init
    | .zero => 0#64
  chan   := []
  pend   := []
  held   := []
  answered := []
  reply  := .noStatus
  inbox  := []
  events := []

/-- The machine right after reset: construction with the standard configuration (R40, R270; log 2). -/
def State.reset : State := State.ofCfg Config.standard

end Sys2Proof.Machine
end

