-- ==== Sys2Proof/Machine/Ops.lean ====
section
/-! DEFINITION. The operations that the meanings share: field updates, the bounds rule and raw accesses
(41_memory_ops.md R101 to R107), the error result, which is all that taking an exception is in this block
(60_exceptions.md R246), and construction (70_reset_and_hazards.md R270). -/

namespace Sys2Proof.Machine

/-- The three outcomes of the host's interface, with this machine's reasons. -/
abbrev Result (α : Type) := Host.Outcome α Fault Refusal

/-- Goes on from a next state; a fault or a refusal ends the whole operation. -/
def Result.andThen {α β : Type} (r : Result α) (f : α → Result β) : Result β :=
  match r with
  | .next a => f a
  | .fault e => .fault e
  | .refused e => .refused e

/-- The operation ends with a status (R242). -/
def State.answer (s : State) (r : Reply) : State := { s with reply := r }

/-- Replaces the memory. -/
def State.setMem (s : State) (m : Memory) : State := { s with mem := m }

/-- Replaces one register slot. -/
def State.setSlot (s : State) (i : Nat) (v : Word) : State := { s with regs := s.regs.set i v }

/-- Appends to the event history. -/
def State.log (s : State) (e : Event) : State := { s with events := s.events ++ [e] }

/-- Appends an action at the tail of the channel (R201). -/
def State.enqueue (s : State) (x : Action) : State := { s with chan := s.chan ++ [x] }

/-- Replaces the scheduler's lists. -/
def State.setQueues (s : State) (chan pend held : List Action) : State :=
  { s with chan := chan, pend := pend, held := held }

/-- Replaces the inbox. -/
def State.setInbox (s : State) (ts : List Txn) : State := { s with inbox := ts }

/-- Construction with a configuration, the block's only reset (R270, R272): an ill-formed one is refused and no block is
built. -/
def construct (c : Cfg) : Result State :=
  if c.WellFormed then .next (State.ofCfg c) else .refused .illFormedConfig

/-! ### Errors -/

/-- Ends the operation with `ERR(AV)`. An error saves no state, masks nothing and goes to no vector (R246): the status
is all that changes. -/
def raise (av : AccessViolation) (s : State) : State := s.answer (.err (.av av))

/-! ### Memory (R101 to R107) -/

/-- `InBounds(start, n)` of R101, on the exact sum. -/
abbrev inBounds (size start n : Nat) : Prop := start + n ≤ size

/-- R101 as the circuit computes it, with a 65-bit adder: no carry out, and the low 64 bits not above N. -/
def inBoundsAdder (size : Nat) (start n : Word) : Bool :=
  let sum := start.setWidth 65 + n.setWidth 65
  !(sum.getLsbD 64 || decide (size < (sum.setWidth 64).toNat))

/-- The violation that a request of `n` bytes at `start` reports, if the bounds rule rejects it (R100, R101). -/
def accessFault (s : State) (start : Word) (n : Nat) (wasRead : Bool) : Option AccessViolation :=
  if inBounds s.cfg.memSize start.toNat n then none else some ⟨start, BitVec.ofNat 64 n, wasRead⟩

/-- `MEM.READ_RAW`: the bytes, or the violation (R104). -/
def readRaw (s : State) (start : Word) (n : Nat) : Except AccessViolation (List Byte) :=
  match accessFault s start n true with
  | some av => .error av
  | none => .ok (s.mem.readBytes start.toNat n)

/-- `MEM.WRITE_RAW`: all of the bytes, or none of them and the violation (R106, R58). -/
def writeRaw (s : State) (start : Word) (data : List Byte) : Except AccessViolation State :=
  match accessFault s start data.length false with
  | some av => .error av
  | none => .ok (s.setMem (s.mem.writeBytes start.toNat data))

/-- A typed read of `n` bytes: `MEM.READ_RAW`, then `pack_order` (R107). -/
def readTyped (order : ByteOrder) (n : Nat) (start : Word) (s : State) : Except AccessViolation Word :=
  match readRaw s start n with
  | .error av => .error av
  | .ok bs => .ok (BitVec.ofNat 64 (pack order bs))

/-- A typed read as an operation: `OK(Bits 8n)` or `ERR(AV)`. -/
def loadTyped (order : ByteOrder) (n : Nat) (start : Word) (s : State) : Result State :=
  match readTyped order n start s with
  | .error av => .next (raise av s)
  | .ok v => .next (s.answer (.okVal (.bits (8 * n) v)))

/-- A raw write as an operation: `OK` or `ERR(AV)`. -/
def storeRaw (start : Word) (data : List Byte) (s : State) : Result State :=
  match writeRaw s start data with
  | .error av => .next (raise av s)
  | .ok s' => .next (s'.answer .ok)

/-- A typed write of `n` bytes: `unpack_order`, then `MEM.WRITE_RAW` (R107). -/
def storeTyped (order : ByteOrder) (n : Nat) (start : Word) (v : Nat) (s : State) : Result State :=
  storeRaw start (unpack order n v) s

/-! ### Registers and the PC (R22 to R30) -/

/-- `reg[i]`: a Zero register, whatever its slot, reads as 0 (R23). -/
def State.readReg (s : State) (i : Nat) : Word :=
  match s.cfg.regs[i]? with
  | some ⟨.concrete, _, _⟩ => s.regs.getD i 0#64
  | _ => 0#64

/-- `reg[i] <- v mod 2^W[i]`: a Zero register drops the write (R23). -/
def State.writeReg (s : State) (i : Nat) (v : Word) : State :=
  match s.cfg.regs[i]? with
  | some ⟨.concrete, w, _⟩ => s.setSlot i (lowBits w v)
  | _ => s

/-- `pc`, the register PC_INDEX (R27), zero-extended to an address (R161). -/
def State.pc (s : State) : Word := s.readReg s.cfg.pcIndex

/-- W_PC (R9). -/
def pcWidth (c : Cfg) : Nat := ((c.regs[c.pcIndex]?).map (·.width)).getD 0

/-- `pc <- (pc + delta) mod 2^W_PC` (R160). -/
def State.advancePc (s : State) (delta : Word) : State := s.writeReg s.cfg.pcIndex (s.pc + delta)

/-! ### Submission (R201, R202) -/

/-- Hands an action to the scheduler. On a full channel REJECT answers `FULL` and changes nothing; BLOCK holds the
submission (log 11), or is refused inside a step, where only the stepper could make room. DESIGN CHOICE, log 21: under
BLOCK a submission inside a step to a channel with room is appended and answered OK, as R201's pseudocode and 93 F4
have it; D19, C8 and D23 can be read to refuse it too. -/
def submit (inside : Bool) (x : Action) (s : State) : Result State :=
  if s.chan.length < s.cfg.chanCap then .next ((s.enqueue x).answer .ok)
  else match s.cfg.fullPolicy with
    | .reject => .next (s.answer .full)
    | .block =>
      if inside then .refused .submitWouldBlock
      else .next ((s.setQueues s.chan s.pend (s.held ++ [x])).answer .noStatus)

/-- How many actions the channel has room for (R32). -/
def State.room (s : State) : Nat := s.cfg.chanCap - s.chan.length

/-- BLOCK's "then append and return OK" (R201): the held submissions that the channel has room for enter it, oldest
first, and each submitter gets its OK, which stands in `answered` (log 11). -/
def State.release (s : State) : State :=
  { s with
    chan := s.chan ++ s.held.take s.room
    held := s.held.drop s.room
    answered := s.answered ++ (s.held.take s.room).map fun x => ⟨x, .ok⟩ }

end Sys2Proof.Machine
end

