-- ==== Sys2Proof/Machine/MemoryOps.lean ====
section
/-! DEFINITION. The memory operations (41_memory_ops.md R102 to R119). None of them writes a register, the channel or
the pending list. -/

namespace Sys2Proof.Machine

/-- MEM.READ_BYTE index (R102). -/
def execMemReadByte (index : Word) (s : State) : Result State :=
  match accessFault s index 1 true with
  | some av => .next (raise av s)
  | none => .next (s.answer (.okVal (.bits 8 ((s.mem.read index.toNat).setWidth 64))))

/-- MEM.WRITE_BYTE value, index (R103). -/
def execMemWriteByte (value : Byte) (index : Word) (s : State) : Result State :=
  match accessFault s index 1 false with
  | some av => .next (raise av s)
  | none => .next ((s.setMem (s.mem.write index.toNat value)).answer .ok)

/-- MEM.READ_RAW start, n (R104): a copy, `backed = false` (R69). -/
def execMemReadRaw (start n : Word) (s : State) : Result State :=
  match readRaw s start n.toNat with
  | .error av => .next (raise av s)
  | .ok bs => .next (s.answer (.okVal (.view bs false)))

/-- MEM.WRITE_RAW data, start (R106). A sequence too long for its 64-bit length is refused (R87). -/
def execMemWriteRaw (data : List Byte) (start : Word) (s : State) : Result State :=
  if data.length < 2 ^ 64 then storeRaw start data s else .refused (.operandTooWide 64)

/-- MEM.READ_U16 order, start (R110). -/
def execMemReadU16 (order : ByteOrder) (start : Word) (s : State) : Result State := loadTyped order 2 start s

/-- MEM.READ_U32 order, start (R111). -/
def execMemReadU32 (order : ByteOrder) (start : Word) (s : State) : Result State := loadTyped order 4 start s

/-- MEM.READ_U64 order, start (R112). -/
def execMemReadU64 (order : ByteOrder) (start : Word) (s : State) : Result State := loadTyped order 8 start s

/-- MEM.READ_F32 order, start (R113): the pattern, not a conversion (R108). -/
def execMemReadF32 (order : ByteOrder) (start : Word) (s : State) : Result State := loadTyped order 4 start s

/-- MEM.READ_F64 order, start (R114): the pattern, not a conversion (R108). -/
def execMemReadF64 (order : ByteOrder) (start : Word) (s : State) : Result State := loadTyped order 8 start s

/-- MEM.WRITE_U16 order, start, v (R115). -/
def execMemWriteU16 (order : ByteOrder) (start : Word) (v : BitVec 16) (s : State) : Result State :=
  storeTyped order 2 start v.toNat s

/-- MEM.WRITE_U32 order, start, v (R116). -/
def execMemWriteU32 (order : ByteOrder) (start : Word) (v : BitVec 32) (s : State) : Result State :=
  storeTyped order 4 start v.toNat s

/-- MEM.WRITE_U64 order, start, v (R117). -/
def execMemWriteU64 (order : ByteOrder) (start : Word) (v : BitVec 64) (s : State) : Result State :=
  storeTyped order 8 start v.toNat s

/-- MEM.WRITE_F32 order, start, f (R118): the pattern unchanged (R108). -/
def execMemWriteF32 (order : ByteOrder) (start : Word) (f : BitVec 32) (s : State) : Result State :=
  storeTyped order 4 start f.toNat s

/-- MEM.WRITE_F64 order, start, f (R119): the pattern unchanged (R108). -/
def execMemWriteF64 (order : ByteOrder) (start : Word) (f : BitVec 64) (s : State) : Result State :=
  storeTyped order 8 start f.toNat s

end Sys2Proof.Machine
end

