-- ==== Sys2Proof/Machine/Flags.lean ====
section
/-! DEFINITION. The block has no flags, condition codes or predicates (10_state.md R31); no operation records a carry or
an overflow (R143). What an operation reports is its status, whose codes are here (60_exceptions.md R242). -/

namespace Sys2Proof.Machine

/-- The status code of R242; none where no operation has ended. -/
def Reply.code : Reply → Option Nat
  | .noStatus => none
  | .ok => some 0
  | .okVal _ => some 0
  | .err (.av _) => some 1
  | .err (.runner _) => some 2
  | .err (.callback _) => some 3
  | .full => some 4

/-- The step or operation returned an error (R243). -/
def Reply.isErr : Reply → Bool
  | .err _ => true
  | _ => false

end Sys2Proof.Machine
end

