-- ==== Sys2Proof/Machine/Float.lean ====
section
/-! DEFINITION. FNUM, the float arithmetic of REG.INC_FLOAT and REG.DEC_FLOAT (00_scope.md R17, D11): the integrator's
uninterpreted functions (log 9), or the reference, IEEE 754 addition and subtraction with rounding to nearest, ties to
even (PRESUMED, 93 G4; log 10). -/

namespace Sys2Proof.Machine

/-- A binary interchange format: `eb` exponent bits, `mb` fraction bits. -/
structure FloatFormat where
  eb : Nat
  mb : Nat
  deriving DecidableEq, Repr

/-- binary32 -/
def binary32 : FloatFormat := ⟨8, 23⟩
/-- binary64 -/
def binary64 : FloatFormat := ⟨11, 52⟩

/-- The largest exponent field, shifted to its place: the pattern of infinity. -/
def FloatFormat.infinity (f : FloatFormat) : Nat := (2 ^ f.eb - 1) * 2 ^ f.mb

/-- The sign bit of a pattern. -/
def FloatFormat.negative (f : FloatFormat) (x : Nat) : Bool := x / 2 ^ (f.eb + f.mb) % 2 = 1

/-- A pattern without its sign bit. -/
def FloatFormat.magnitude (f : FloatFormat) (x : Nat) : Nat := x % 2 ^ (f.eb + f.mb)

/-- A pattern with the other sign. -/
def FloatFormat.negate (f : FloatFormat) (x : Nat) : Nat := x ^^^ 2 ^ (f.eb + f.mb)

/-- A pattern from a sign and a magnitude. -/
def FloatFormat.signed (f : FloatFormat) (neg : Bool) (m : Nat) : Nat :=
  if neg then 2 ^ (f.eb + f.mb) + m else m

/-- A finite pattern's value in units of the format's least positive number, exactly. -/
def FloatFormat.units (f : FloatFormat) (x : Nat) : Int :=
  let m := f.magnitude x
  let e := m / 2 ^ f.mb
  let frac := m % 2 ^ f.mb
  let n := if e = 0 then frac else (2 ^ f.mb + frac) * 2 ^ (e - 1)
  if f.negative x then -(n : Int) else (n : Int)

/-- The magnitude pattern nearest to `n` units, ties to even; infinity when it is too large for the format. -/
def FloatFormat.round (f : FloatFormat) (n : Nat) : Nat :=
  if n < 2 ^ (f.mb + 1) then n
  else
    let k := Nat.log2 n - f.mb
    let q := n / 2 ^ k
    let r := n % 2 ^ k
    let half := 2 ^ (k - 1)
    let up := if half < r ∨ (r = half ∧ q % 2 = 1) then 1 else 0
    min (k * 2 ^ f.mb + q + up) f.infinity

/-- A quiet NaN whose sign and payload are taken from `free`. -/
def FloatFormat.quietNaN (f : FloatFormat) (free : Nat) : Nat :=
  f.signed (free / 2 ^ 63 % 2 = 1) (f.infinity + 2 ^ (f.mb - 1) + free % 2 ^ (f.mb - 1))

/-- IEEE 754 addition of two patterns, rounded to nearest, ties to even; `free` gives a NaN's sign and payload. -/
def FloatFormat.add (f : FloatFormat) (free x y : Nat) : Nat :=
  let mx := f.magnitude x
  let my := f.magnitude y
  if f.infinity < mx ∨ f.infinity < my then f.quietNaN free
  else if mx = f.infinity then
    if my = f.infinity ∧ f.negative x ≠ f.negative y then f.quietNaN free else f.signed (f.negative x) mx
  else if my = f.infinity then f.signed (f.negative y) my
  else
    let z := f.units x + f.units y
    if z = 0 then f.signed (f.negative x && f.negative y) 0
    else f.signed (decide (z < 0)) (f.round z.natAbs)

/-- IEEE 754 subtraction: addition of the second operand with the other sign. -/
def FloatFormat.sub (f : FloatFormat) (free x y : Nat) : Nat := f.add free x (f.negate y)

/-- FADD_W (R17); none for a width without a float format (D11). -/
def fnumAdd : Fnum → Nat → Word → Word → Option Word
  | .external id, 32, a, b => some ((Config.fadd32 id (a.setWidth 32) (b.setWidth 32)).setWidth 64)
  | .external id, 64, a, b => some (Config.fadd64 id a b)
  | .ieee754, 32, a, b => some (BitVec.ofNat 64 (binary32.add (Config.nanBits false a b).toNat a.toNat b.toNat))
  | .ieee754, 64, a, b => some (BitVec.ofNat 64 (binary64.add (Config.nanBits false a b).toNat a.toNat b.toNat))
  | _, _, _, _ => none

/-- FSUB_W (R17); none for a width without a float format (D11). -/
def fnumSub : Fnum → Nat → Word → Word → Option Word
  | .external id, 32, a, b => some ((Config.fsub32 id (a.setWidth 32) (b.setWidth 32)).setWidth 64)
  | .external id, 64, a, b => some (Config.fsub64 id a b)
  | .ieee754, 32, a, b => some (BitVec.ofNat 64 (binary32.sub (Config.nanBits true a b).toNat a.toNat b.toNat))
  | .ieee754, 64, a, b => some (BitVec.ofNat 64 (binary64.sub (Config.nanBits true a b).toNat a.toNat b.toNat))
  | _, _, _, _ => none

end Sys2Proof.Machine
end

