-- ==== Sys2Proof/Machine/Operands.lean ====
section
/-! DEFINITION. Operand checks (10_state.md R25, 30_encoding.md R87, 20_memory.md R54) and the values that a script
computes for the operands of its calls. -/

namespace Sys2Proof.Machine

/-- The register an index names; an index outside the bank is refused (R25). -/
def withRegister (i : Nat) (s : State) (k : RegSpec → Result State) : Result State :=
  match s.cfg.regs[i]? with
  | none => .refused (.registerOutsideBank i)
  | some r => k r

/-- A register and a W[i]-bit pattern for it; a wider operand is refused (R87). -/
def withRegisterValue (i : Nat) (v : Word) (s : State) (k : RegSpec → Result State) : Result State :=
  withRegister i s fun r => if fits r.width v then k r else .refused (.operandTooWide r.width)

/-- Float arithmetic on a register (R147, R148): a Zero register discards it, a Concrete register of a width without
a float format is refused. -/
def floatUpdate (arith : Fnum → Nat → Word → Word → Option Word) (i : Nat) (d : Word) (s : State) : Result State :=
  withRegisterValue i d s fun r =>
    match r.kind with
    | .zero => .next (s.answer .ok)
    | .concrete =>
      match arith s.cfg.fnum r.width (s.readReg i) d with
      | some v => .next ((s.writeReg i v).answer .ok)
      | none => .refused (.noFloatFormat r.width)

/-- The `order` operand of a typed access; no other operation has one (R86). -/
def orderOf? : Instr → Option ByteOrder
  | .memReadByte _ => none
  | .memWriteByte _ _ => none
  | .memReadRaw _ _ => none
  | .memWriteRaw _ _ => none
  | .memReadU16 o _ => some o
  | .memReadU32 o _ => some o
  | .memReadU64 o _ => some o
  | .memReadF32 o _ => some o
  | .memReadF64 o _ => some o
  | .memWriteU16 o _ _ => some o
  | .memWriteU32 o _ _ => some o
  | .memWriteU64 o _ _ => some o
  | .memWriteF32 o _ _ => some o
  | .memWriteF64 o _ _ => some o
  | .regSetInt _ _ => none
  | .regGetInt _ => none
  | .regIncInt _ _ => none
  | .regDecInt _ _ => none
  | .regSetFloat _ _ => none
  | .regGetFloat _ => none
  | .regIncFloat _ _ => none
  | .regDecFloat _ _ => none
  | .regCanWrite _ => none
  | .pcIncrement _ => none
  | .pcRead => none
  | .cycleStep => none
  | .schedSubmit _ _ _ => none
  | .schedStep => none
  | .runWord _ => none

/-- Through the core a typed access must have the core's order; no other operation has an order (R53, R54). -/
abbrev orderAdmitted (c : Cfg) (i : Instr) : Prop := ∀ o ∈ orderOf? i, o = c.order

/-- A typed access made through the core: its order is BO, or it is refused (R54). -/
def throughCore (order : ByteOrder) (s : State) (r : Result State) : Result State :=
  if order = s.cfg.order then r else .refused .orderNotOfCore

/-! ### What a script sees and computes -/

/-- The status code of an operation's answer as a value (R242). -/
def Reply.codeWord (r : Reply) : Word := BitVec.ofNat 64 (r.code.getD 0)

/-- The result value of an operation's answer as a word; 0 where it has none. -/
def Reply.valWord : Reply → Word
  | .okVal (.bits _ v) => v
  | .okVal (.bool b) => if b then 1#64 else 0#64
  | _ => 0#64

/-- Byte `j` of a raw view; 0 where there is none. -/
def Reply.byteWord (r : Reply) (j : Nat) : Word :=
  match r with
  | .okVal (.view bs _) => (bs.getD j 0#8).setWidth 64
  | _ => 0#64

/-- A script's operators. -/
def applyOp : BinOp → Word → Word → Word
  | .add, a, b => a + b
  | .sub, a, b => a - b
  | .and, a, b => a &&& b
  | .or, a, b => a ||| b
  | .xor, a, b => a ^^^ b
  | .shl, a, b => a <<< b.toNat
  | .shr, a, b => a >>> b.toNat
  | .sar, a, b => a.sshiftRight b.toNat
  | .eq, a, b => if a = b then 1#64 else 0#64
  | .ult, a, b => if a.toNat < b.toNat then 1#64 else 0#64

/-- The value of a script's expression, from the script's arguments and the answers its calls got, latest first. -/
def evalExpr (args : List Word) (answers : List Reply) : Expr → Word
  | .lit v => v
  | .arg k => args.getD k 0#64
  | .val k => (answers.getD k .noStatus).valWord
  | .code k => (answers.getD k .noStatus).codeWord
  | .byteAt k j => (answers.getD k .noStatus).byteWord j
  | .bin op a b => applyOp op (evalExpr args answers a) (evalExpr args answers b)

/-- The operand of a call. -/
def evalArg (args : List Word) (answers : List Reply) : Arg → Operand
  | .num e => .num (evalExpr args answers e).toNat
  | .bytes es => .bytes (es.map fun e => (evalExpr args answers e).setWidth 8)

/-- What a script returned: OK, an opaque payload, or an AccessViolation value. -/
inductive Ending where
  | ok
  | payload (p : Word)
  | violation (av : AccessViolation)
  deriving DecidableEq, Repr

/-- The value of a script's return. -/
def evalRet (args : List Word) (answers : List Reply) : Ret → Ending
  | .ok => .ok
  | .payload e => .payload (evalExpr args answers e)
  | .violation l n r =>
    .violation ⟨evalExpr args answers l, evalExpr args answers n, decide (evalExpr args answers r ≠ 0#64)⟩

/-- The status of a step from RUN's return: an AccessViolation value has code 1 whoever returns it, any other error is a
runner error, passed on verbatim (R185, R241, R242). -/
def Ending.ofRunner : Ending → Reply
  | .ok => .ok
  | .payload p => .err (.runner p)
  | .violation av => .err (.av av)

/-- The status of a step from CB's return: `none` suppresses the fault (R183, R184, R242). -/
def Ending.ofCallback : Ending → Reply
  | .ok => .ok
  | .payload p => .err (.callback p)
  | .violation av => .err (.av av)

end Sys2Proof.Machine
end

