-- ==== Sys2Proof/Machine/RegisterOps.lean ====
section
/-! DEFINITION. The register and program-counter operations (42_register_ops.md R140 to R162). None of them touches
memory, the channel or the pending list, and none raises an error. -/

namespace Sys2Proof.Machine

/-- REG.SET_INT i, v (R141). -/
def execRegSetInt (i : Nat) (v : Word) (s : State) : Result State :=
  withRegisterValue i v s fun _ => .next ((s.writeReg i v).answer .ok)

/-- REG.GET_INT i (R142). -/
def execRegGetInt (i : Nat) (s : State) : Result State :=
  withRegister i s fun r => .next (s.answer (.okVal (.bits r.width (s.readReg i))))

/-- REG.INC_INT i, d (R143): wraps modulo 2^W. -/
def execRegIncInt (i : Nat) (d : Word) (s : State) : Result State :=
  withRegisterValue i d s fun _ => .next ((s.writeReg i (s.readReg i + d)).answer .ok)

/-- REG.DEC_INT i, d (R144): wraps modulo 2^W. -/
def execRegDecInt (i : Nat) (d : Word) (s : State) : Result State :=
  withRegisterValue i d s fun _ => .next ((s.writeReg i (s.readReg i - d)).answer .ok)

/-- REG.SET_FLOAT i, f (R145): the same bits, no conversion, for every W. -/
def execRegSetFloat (i : Nat) (f : Word) (s : State) : Result State :=
  withRegisterValue i f s fun _ => .next ((s.writeReg i f).answer .ok)

/-- REG.GET_FLOAT i (R146): the same bits as REG.GET_INT. -/
def execRegGetFloat (i : Nat) (s : State) : Result State :=
  withRegister i s fun r => .next (s.answer (.okVal (.bits r.width (s.readReg i))))

/-- REG.INC_FLOAT i, d (R147). -/
def execRegIncFloat (i : Nat) (d : Word) (s : State) : Result State := floatUpdate fnumAdd i d s

/-- REG.DEC_FLOAT i, d (R148). -/
def execRegDecFloat (i : Nat) (d : Word) (s : State) : Result State := floatUpdate fnumSub i d s

/-- REG.CAN_WRITE i (R149): by the register's kind alone. -/
def execRegCanWrite (i : Nat) (s : State) : Result State :=
  withRegister i s fun r => .next (s.answer (.okVal (.bool (decide (r.kind = .concrete)))))

/-- PC.INCREMENT delta (R160): wraps at the PC's own width. -/
def execPcIncrement (delta : Word) (s : State) : Result State := .next ((s.advancePc delta).answer .ok)

/-- PC.READ (R161): zero-extended to 64 bits. -/
def execPcRead (s : State) : Result State := .next (s.answer (.okVal (.bits 64 s.pc)))

end Sys2Proof.Machine
end

