-- ==== Sys2Proof/Machine/Script.lean ====
section
/-! DEFINITION. What RUN, CB and action bodies do inside a step: they invoke operations of the block, one after the
other (30_encoding.md R88; D16, D17, D23). -/

namespace Sys2Proof.Machine

/-- The model's name for a refusal of the decoder (R87). -/
def refusalOf : DecodeError → Refusal
  | .reservedSelect op => .reservedSelect op
  | .wrongOperands op => .wrongOperands op
  | .operandTooWide w => .operandTooWide w
  | .wordLength _ => .wordIsNoOperation

/-- An operation invoked inside a step: the memory, register and PC operations, through the core (R54), and
SCHED.SUBMIT; a step is refused (R88, R192). -/
def innerOp (i : Instr) (s : State) : Result State :=
  match i with
  | .memReadByte a => execMemReadByte a s
  | .memWriteByte v a => execMemWriteByte v a s
  | .memReadRaw a n => execMemReadRaw a n s
  | .memWriteRaw data a => execMemWriteRaw data a s
  | .memReadU16 o a => throughCore o s (execMemReadU16 o a s)
  | .memReadU32 o a => throughCore o s (execMemReadU32 o a s)
  | .memReadU64 o a => throughCore o s (execMemReadU64 o a s)
  | .memReadF32 o a => throughCore o s (execMemReadF32 o a s)
  | .memReadF64 o a => throughCore o s (execMemReadF64 o a s)
  | .memWriteU16 o a v => throughCore o s (execMemWriteU16 o a v s)
  | .memWriteU32 o a v => throughCore o s (execMemWriteU32 o a v s)
  | .memWriteU64 o a v => throughCore o s (execMemWriteU64 o a v s)
  | .memWriteF32 o a f => throughCore o s (execMemWriteF32 o a f s)
  | .memWriteF64 o a f => throughCore o s (execMemWriteF64 o a f s)
  | .regSetInt j v => execRegSetInt j v s
  | .regGetInt j => execRegGetInt j s
  | .regIncInt j d => execRegIncInt j d s
  | .regDecInt j d => execRegDecInt j d s
  | .regSetFloat j f => execRegSetFloat j f s
  | .regGetFloat j => execRegGetFloat j s
  | .regIncFloat j d => execRegIncFloat j d s
  | .regDecFloat j d => execRegDecFloat j d s
  | .regCanWrite j => execRegCanWrite j s
  | .pcIncrement d => execPcIncrement d s
  | .pcRead => execPcRead s
  | .cycleStep => .refused .stepInsideStep
  | .schedSubmit a d t => submit true ⟨a, d, t⟩ s
  | .schedStep => .refused .stepInsideStep
  | .runWord _ => .refused .wordIsNoOperation

/-- One call of a script: the record is decoded, then the operation runs; its answer is the status left in `reply`. -/
def invoke (c : Call) (args : List Word) (answers : List Reply) (s : State) : Result State :=
  match decodeOp c.op (c.args.map (evalArg args answers)) with
  | .error e => .refused (refusalOf e)
  | .ok i => innerOp i s

/-- Runs a script to its return. A hang is no completed step (R282); a refused operation leaves the step without a
meaning (log 15). -/
def runScript : Script → List Word → List Reply → State → Result (State × Ending)
  | .ret r, args, answers, s => .next (s, evalRet args answers r)
  | .hang, _, _, _ => .fault .stepperHung
  | .call c k, args, answers, s =>
    (invoke c args answers s).andThen fun s' => runScript k args (s'.reply :: answers) s'
  | .branch e y n, args, answers, s =>
    if evalExpr args answers e ≠ 0#64 then runScript y args answers s else runScript n args answers s

end Sys2Proof.Machine
end

