-- ==== Sys2Proof/Machine/Cycle.lean ====
section
/-! DEFINITION. The FixedLengthCycle: fetch, PC advance, dispatch (43_cycle.md R180 to R192). -/

namespace Sys2Proof.Machine

/-- RUN is handed one word, exactly once, and its return is the status (R182, R185). -/
def dispatchWord (word : Word) (s : State) : Result State :=
  (runScript s.cfg.run [word] [] (s.log (.ran word))).andThen fun (s', e) => .next (s'.answer e.ofRunner)

/-- A failed fetch: without a callback the raw violation is the status and nothing changes (R181); otherwise CB is called
exactly once with it and its return is the status (R183, R184). RUN is not invoked and the PC is not advanced. -/
def fetchFault (av : AccessViolation) (s : State) : Result State :=
  match s.cfg.cb with
  | none => .next (raise av s)
  | some cb =>
    (runScript cb [av.location, av.numBytes, if av.wasRead then 1#64 else 0#64] [] (s.log (.calledBack av))).andThen
      fun (s', e) => .next (s'.answer e.ofCallback)

/-- One fetch, the advance, the dispatch (R180). The advance comes before the dispatch, whatever RUN then does (R186). -/
def cycleOnce (s : State) : Result State :=
  match readTyped s.cfg.order s.cfg.width s.pc s with
  | .error av => fetchFault av s
  | .ok bits => dispatchWord bits (s.advancePc (BitVec.ofNat 64 s.cfg.width))

/-- CYCLE.STEP (R180): it does not drain, age or fire (R187, R216). -/
def execCycleStep (s : State) : Result State := cycleOnce s

/-- RUN.WORD: the instruction word, handed whole to RUN (R83, R84); a word of more than 8w bits is none (R81). -/
def execRunWord (word : Word) (s : State) : Result State :=
  if fits (8 * s.cfg.width) word then dispatchWord word s else .refused (.operandTooWide (8 * s.cfg.width))

end Sys2Proof.Machine
end

