-- ==== Sys2Proof/Machine/Scheduler.lean ====
section
/-! DEFINITION. The InterruptScheduler: submission, drain, countdown and firing (44_scheduler.md R200 to R218). -/

namespace Sys2Proof.Machine

/-- SCHED.SUBMIT action, delay, description, from outside a step (R201). -/
def execSchedSubmit (action delay description : Word) (s : State) : Result State :=
  submit false ⟨action, delay, description⟩ s

/-- `length(pend) < PMAX` (R204, R206). -/
abbrev pendHasRoom (cap : Option Nat) (n : Nat) : Prop := ∀ m ∈ cap, n < m

/-- The drain loop of R204 over (chan, pend): heads of the channel go to the tail of the pending list while there is
room; the rest of the channel stays, in order (R205, R206). -/
def drain (cap : Option Nat) : List Action → List Action → List Action × List Action
  | [], pend => ([], pend)
  | x :: chan, pend => if pendHasRoom cap pend.length then drain cap chan (pend ++ [x]) else (x :: chan, pend)

/-- Fires an action, the block's only interrupt entry: a synchronous call of its body on the stepper, which saves
nothing; what the body returns is dropped (R208, R247, R249). -/
def fire (x : Action) (s : State) : Result State :=
  (runScript s.cfg.act [x.action] [] (s.log (.fired x))).andThen fun (s', _) => .next s'

/-- The one traversal, head to tail: an action of delay 0 fires in place, any other is aged by one and survives (R204,
R207, R208, R209). Answers the state and the survivors. -/
def traverse : List Action → State → Result (State × List Action)
  | [], s => .next (s, [])
  | x :: xs, s =>
    if x.delay = 0#64 then (fire x s).andThen fun s' => traverse xs s'
    else (traverse xs s).andThen fun (s', survivors) => .next (s', { x with delay := x.delay - 1#64 } :: survivors)

/-- What follows an inner step that returned OK (R204): drain, traversal, removal of the fired, then the held
submissions. -/
def afterInner (s : State) : Result State :=
  let (chan, pend) := drain s.cfg.pendCap s.chan s.pend
  (traverse pend (s.setQueues chan pend s.held)).andThen fun (s', survivors) =>
    .next ((s'.setQueues s'.chan survivors s'.held).release.answer .ok)

/-- SCHED.STEP (R204): an error of the inner step is returned at once, with no drain, aging or firing (R211). -/
def execSchedStep (s : State) : Result State :=
  (cycleOnce s).andThen fun s' => if s'.reply.isErr then .next s' else afterInner s'

end Sys2Proof.Machine
end

