-- ==== Sys2Proof/Machine/Dispatch.lean ====
section
/-! DEFINITION. One arm per row of the opcode table (30_encoding.md R86, R92). -/

namespace Sys2Proof.Machine

def exec (i : Instr) (s : State) : Host.Outcome State Fault Refusal :=
  match i with
  | .memReadByte index => Sys2Proof.Machine.execMemReadByte index s
  | .memWriteByte value index => Sys2Proof.Machine.execMemWriteByte value index s
  | .memReadRaw start n => Sys2Proof.Machine.execMemReadRaw start n s
  | .memWriteRaw data start => Sys2Proof.Machine.execMemWriteRaw data start s
  | .memReadU16 order start => Sys2Proof.Machine.execMemReadU16 order start s
  | .memReadU32 order start => Sys2Proof.Machine.execMemReadU32 order start s
  | .memReadU64 order start => Sys2Proof.Machine.execMemReadU64 order start s
  | .memReadF32 order start => Sys2Proof.Machine.execMemReadF32 order start s
  | .memReadF64 order start => Sys2Proof.Machine.execMemReadF64 order start s
  | .memWriteU16 order start v => Sys2Proof.Machine.execMemWriteU16 order start v s
  | .memWriteU32 order start v => Sys2Proof.Machine.execMemWriteU32 order start v s
  | .memWriteU64 order start v => Sys2Proof.Machine.execMemWriteU64 order start v s
  | .memWriteF32 order start f => Sys2Proof.Machine.execMemWriteF32 order start f s
  | .memWriteF64 order start f => Sys2Proof.Machine.execMemWriteF64 order start f s
  | .regSetInt j v => Sys2Proof.Machine.execRegSetInt j v s
  | .regGetInt j => Sys2Proof.Machine.execRegGetInt j s
  | .regIncInt j d => Sys2Proof.Machine.execRegIncInt j d s
  | .regDecInt j d => Sys2Proof.Machine.execRegDecInt j d s
  | .regSetFloat j f => Sys2Proof.Machine.execRegSetFloat j f s
  | .regGetFloat j => Sys2Proof.Machine.execRegGetFloat j s
  | .regIncFloat j d => Sys2Proof.Machine.execRegIncFloat j d s
  | .regDecFloat j d => Sys2Proof.Machine.execRegDecFloat j d s
  | .regCanWrite j => Sys2Proof.Machine.execRegCanWrite j s
  | .pcIncrement delta => Sys2Proof.Machine.execPcIncrement delta s
  | .pcRead => Sys2Proof.Machine.execPcRead s
  | .cycleStep => Sys2Proof.Machine.execCycleStep s
  | .schedSubmit action delay description => Sys2Proof.Machine.execSchedSubmit action delay description s
  | .schedStep => Sys2Proof.Machine.execSchedStep s
  | .runWord word => Sys2Proof.Machine.execRunWord word s

end Sys2Proof.Machine
end

