-- ==== Sys2Proof/Machine/Port.lean ====
section
/-! DEFINITION. How the outside world reaches the block: the transaction that the next step takes (30_encoding.md R85,
R87, R88; 60_exceptions.md R258), and how an instruction is put where the next step takes it from. -/

namespace Sys2Proof.Machine

/-- Why an agent's operation is refused, if it is: the host may invoke every operation, with either order at the Memory
level and with BO alone through the core (R53, R54); a producer may invoke SCHED.SUBMIT only (R63, R88). -/
def agentRefusal (c : Cfg) : Agent → Instr → Option Refusal
  | .host .memory, _ => none
  | .host .core, i => if orderAdmitted c i then none else some .orderNotOfCore
  | .producer, .schedSubmit _ _ _ => none
  | .producer, _ => some .producerOutsideChannel

/-- The operation the next step performs, and the state it is performed on: the oldest transaction of the inbox, taken
out; with none waiting, the host invokes SCHED.STEP (70_reset_and_hazards.md R273; log 7). -/
def nextOperation (s : State) : Result (Instr × State) :=
  match s.inbox with
  | [] => .next (.schedStep, s)
  | t :: rest =>
    match decodeOp t.op t.operands with
    | .error e => .refused (refusalOf e)
    | .ok i =>
      match agentRefusal s.cfg t.agent i with
      | some r => .refused r
      | none => .next (i, s.setInbox rest)

/-- Puts an encoded object where the next step takes its instruction from: an operation as the host's transaction at
the Memory level, at the head of the inbox, an instruction word in memory at the PC, with no transaction before it. -/
def placeEncoded (s : State) : Encoded → State
  | .operation op xs => s.setInbox (⟨.host .memory, op, xs⟩ :: s.inbox)
  | .word bytes => (s.setMem (s.mem.writeBytes s.pc.toNat bytes)).setInbox []

end Sys2Proof.Machine
end

