-- ==== Sys2Proof/Machine/Step.lean ====
section
/-! DEFINITION. One step of the machine: one interface operation, taken from outside and performed as one atomic
transition (20_memory.md R58, D1). -/

namespace Sys2Proof.Machine

/-- Takes the next operation (Port.lean) and performs it. -/
def step (s : State) : Host.Outcome State Fault Refusal :=
  (nextOperation s).andThen fun (i, s') => exec i s'

/-- `s` with the instruction of an opcode-table word where the next step takes it from: an operation in the inbox, an
instruction word in memory at the PC (logs 7, 8). -/
def State.withFetchWord (s : State) (nbits w : Nat) : State :=
  match tableEncoded s.cfg nbits w with
  | some e => placeEncoded s e
  | none => s

end Sys2Proof.Machine
end

