-- ==== Sys2Proof/Safety.lean ====
section
/-! DEFINITION. The terms that claims use: the invariant of the state, successful steps and how they are counted, the
two lists a traversal makes of a pending list, where a step's scripts stop it, and the value formulas of 20_memory.md
R52 spelt out. -/

namespace Sys2Proof.Machine

/-- A register slot holds a pattern of its register's width (R22); a Zero register's slot holds 0 (R23). -/
def slotOk (r : RegSpec) (v : Word) : Bool :=
  match r.kind with
  | .concrete => decide (fits r.width v)
  | .zero => decide (v = 0#64)

/-- What holds of the block's state at every point between operations: the configuration is one that construction
admits (R270), memory is canonical and no larger than N (R21), the bank has the configured registers and widths (R22,
R25), the two lists keep their capacities (R32, R33), and a submission is held only under BLOCK, while the channel is
full (R201). -/
structure Inv (s : State) : Prop where
  config    : s.cfg.WellFormed
  canonical : s.mem.wf
  inside    : s.mem.inside s.cfg.memSize
  bankSize  : s.regs.length = s.cfg.regs.length
  slots     : ∀ i r, s.cfg.regs[i]? = some r → slotOk r (s.regs.getD i 0#64) = true
  chanBound : s.chan.length ≤ s.cfg.chanCap
  pendBound : ∀ m ∈ s.cfg.pendCap, s.pend.length ≤ m
  heldWaits : s.held ≠ [] → s.cfg.fullPolicy = .block ∧ s.chan.length = s.cfg.chanCap

/-- A `SCHED.STEP` that returned OK (00_scope.md section 6, "successful step"; R210). -/
def OkStep (s t : State) : Prop := exec .schedStep s = .next t ∧ t.reply = .ok

/-- Operations one after the other, of which `n` are SCHED.STEPs that returned OK and are counted (R210); faulted steps
and every other operation may stand anywhere between them. -/
inductive CountedRun : Nat → State → State → Prop where
  | start (s : State) : CountedRun 0 s s
  | counted {n : Nat} {s u t : State} : CountedRun n s u → OkStep u t → CountedRun (n + 1) s t
  | other {n : Nat} {s u t : State} (i : Instr) : CountedRun n s u → exec i u = .next t →
      ¬ (i = .schedStep ∧ t.reply = .ok) → CountedRun n s t

/-- What is left of a pending list after `k` traversals: actions of a smaller delay are gone, the others have aged by
`k`, in the same order (R207, R209). -/
def aged (k : Nat) (l : List Action) : List Action :=
  l.filterMap fun x => if x.delay.toNat < k then none else some { x with delay := x.delay - BitVec.ofNat 64 k }

/-- The firings of the traversal that comes after `k` others: the actions of delay `k`, in list order, each then at
delay 0 (R208, R210). -/
def due (k : Nat) (l : List Action) : List Event :=
  (l.filter fun x => x.delay.toNat = k).map fun x => .fired { x with delay := 0#64 }

/-- The list that a step traverses, from the state its inner step left: the pending list with what the drain appended
(R205, R206). -/
def traversed (s : State) : List Action := (drain s.cfg.pendCap s.chan s.pend).2

/-- The operations whose operands are numbers of fixed width, with the width of each in order (R86). The 64
bits of SCHED.SUBMIT's ActionId and Tag are the model's: R86 gives them no width (DESIGN CHOICE, log 13). -/
def fixedFields : List (Byte × List Nat) :=
  [(0x01, [64]), (0x02, [8, 64]), (0x03, [64, 64])] ++
  [(0x10, [1, 64]), (0x11, [1, 64]), (0x12, [1, 64]), (0x13, [1, 64]), (0x14, [1, 64])] ++
  [(0x18, [1, 64, 16]), (0x19, [1, 64, 32]), (0x1A, [1, 64, 64]), (0x1B, [1, 64, 32]), (0x1C, [1, 64, 64])] ++
  [(0x30, [64]), (0x50, [64, 64, 64])]

/-- The instruction is written as a record with select code `op`, which decodes to it (R86). -/
def hasCode (op : Byte) (i : Instr) : Prop :=
  ∃ xs, (∀ c, encode c i = .operation op xs) ∧ decodeOp op xs = .ok i

/-- The formulas of R52: the value of the `n` bytes `b 0 .. b (n-1)` at increasing addresses. -/
def byteSum (order : ByteOrder) (n : Nat) (b : Nat → Byte) : Nat :=
  match order with
  | .le => ∑ k ∈ Finset.range n, (b k).toNat * 2 ^ (8 * k)
  | .be => ∑ k ∈ Finset.range n, (b k).toNat * 2 ^ (8 * (n - 1 - k))

/-- R52, the inverse: byte `k` of the `n` bytes of a value, `v[8k+7:8k]` for LE and `v[8(n-1-k)+7:8(n-1-k)]` for BE. -/
def byteOf (order : ByteOrder) (n v k : Nat) : Byte :=
  match order with
  | .le => BitVec.ofNat 8 (v / 2 ^ (8 * k))
  | .be => BitVec.ofNat 8 (v / 2 ^ (8 * (n - 1 - k)))

/-- The firing of a list of actions, head to tail, each from the state the one before left (R208). -/
def fireAll : List Action → State → Result State
  | [], s => .next s
  | x :: xs, s => (fire x s).andThen fun s' => fireAll xs s'

/-- How many actions a drain moves: all of the channel, or as many as a finite PMAX leaves room for (R205, R206). -/
def drainCount (s : State) : Nat :=
  match s.cfg.pendCap with
  | none => s.chan.length
  | some m => min s.chan.length (m - s.pend.length)

/-- The word at the PC, packed by BO, as a fetch in bounds reads it (R82, R182). -/
def fetchedWord (s : State) : Word :=
  BitVec.ofNat 64 (byteSum s.cfg.order s.cfg.width fun k => s.mem.read (s.pc.toNat + k))

/-- The state at the moment RUN starts: the PC already advanced by w at its own width, and the word in the history
(R182, R186). -/
def beforeRun (s : State) (word : Word) : State :=
  { s with
    regs := s.regs.set s.cfg.pcIndex (BitVec.ofNat 64 ((s.pc.toNat + s.cfg.width) % 2 ^ pcWidth s.cfg))
    events := s.events ++ [.ran word] }

/-- The violation that a failed fetch reports (R181). -/
def fetchViolation (s : State) : AccessViolation := ⟨s.pc, BitVec.ofNat 64 s.cfg.width, true⟩

/-- Why a step does not complete: a fault, or a refusal. -/
inductive Stop where
  | fault (f : Fault)
  | refused (r : Refusal)
  deriving DecidableEq, Repr

/-- The stop as the result of any operation. -/
def Stop.result {α : Type} : Stop → Result α
  | .fault f => .fault f
  | .refused r => .refused r

/-- A stop of a script that a step or an instruction word from `s` runs, wherever in the script it happens, is the stop
of the whole: of RUN when the fetch is in bounds, of CB when it fails, of RUN on an instruction word, and of the body of
an action of delay 0, from the state that the traversal of the actions before it left. -/
structure StopsWithItsScripts (s : State) (e : Stop) : Prop where
  ofRun : s.pc.toNat + s.cfg.width ≤ s.cfg.memSize →
    runScript s.cfg.run [fetchedWord s] []
      ((s.advancePc (BitVec.ofNat 64 s.cfg.width)).log (.ran (fetchedWord s))) = e.result →
    exec .cycleStep s = e.result ∧ exec .schedStep s = e.result
  ofCallback : ∀ cb, s.cfg.cb = some cb → s.cfg.memSize < s.pc.toNat + s.cfg.width →
    runScript cb [s.pc, BitVec.ofNat 64 s.cfg.width, 1] [] (s.log (.calledBack (fetchViolation s))) = e.result →
    exec .cycleStep s = e.result ∧ exec .schedStep s = e.result
  ofWord : ∀ word : Word, word.toNat < 2 ^ (8 * s.cfg.width) →
    runScript s.cfg.run [word] [] (s.log (.ran word)) = e.result → exec (.runWord word) s = e.result
  ofBody : ∀ (s1 u : State) (before after survivors : List Action) (x : Action),
    exec .cycleStep s = .next s1 → s1.reply = .ok → traversed s1 = before ++ x :: after → x.delay = 0#64 →
    traverse before { s1 with chan := s1.chan.drop (drainCount s1), pend := traversed s1 } = .next (u, survivors) →
    runScript u.cfg.act [x.action] [] (u.log (.fired x)) = e.result →
    exec .schedStep s = e.result

/-- An action without its tag. -/
def Action.untagged (x : Action) : Action := { x with description := 0#64 }

/-- A history entry without the tag of the action that fired. -/
def Event.untagged : Event → Event
  | .fired x => .fired x.untagged
  | .ran w => .ran w
  | .calledBack av => .calledBack av

/-- A late answer without the tag of its submission. -/
def Answer.untagged (a : Answer) : Answer := { a with submission := a.submission.untagged }

/-- Two states that differ in the tags of actions at most (R218). -/
def SameButTags (s t : State) : Prop :=
  t.cfg = s.cfg ∧ t.mem = s.mem ∧ t.regs = s.regs ∧ t.reply = s.reply ∧ t.inbox = s.inbox ∧
  t.chan.map Action.untagged = s.chan.map Action.untagged ∧
  t.pend.map Action.untagged = s.pend.map Action.untagged ∧
  t.held.map Action.untagged = s.held.map Action.untagged ∧
  t.answered.map Answer.untagged = s.answered.map Answer.untagged ∧
  t.events.map Event.untagged = s.events.map Event.untagged

/-- A run of the machine that never stops with a fault or a refusal. -/
def SafeRun (s : State) : Prop := ∀ n, ∃ t, Host.Core.run Sys2Proof.core n s = .next t

/-- An expression whose value has at most `w` bits whatever the answers were: any at 64, a constant, or a masked one. -/
def exprWithin (w : Nat) : Expr → Bool
  | .lit v => decide (fits w v)
  | .bin .and _ (.lit m) => decide (fits w m)
  | _ => decide (64 ≤ w)

/-- A constant that is the code of the core's byte order (R54, R86). -/
def orderOfCore (c : Cfg) : Expr → Bool
  | .lit v => decide (v.toNat = orderCode c.order)
  | _ => false

/-- A constant that names a register of the bank for which `p` holds (R25). -/
def registerWith (c : Cfg) (p : RegSpec → Bool) : Expr → Bool
  | .lit v => ((c.regs[v.toNat]?).map p).getD false
  | _ => false

/-- Operands of a typed read through the core (R54). -/
def readAdmitted (c : Cfg) : List Arg → Bool
  | [.num o, .num _] => orderOfCore c o
  | _ => false

/-- Operands of a typed write of `w` bits through the core (R54, R87). -/
def writeAdmitted (c : Cfg) (w : Nat) : List Arg → Bool
  | [.num o, .num _, .num v] => orderOfCore c o && exprWithin w v
  | _ => false

/-- Operands of an operation on a register (R25). -/
def registerAdmitted (c : Cfg) : List Arg → Bool
  | [.num i] => registerWith c (fun _ => true) i
  | _ => false

/-- Operands of an operation on a register for which `p` holds, with a pattern that fits it (R25, R87). -/
def registerValueAdmitted (c : Cfg) (p : RegSpec → Bool) : List Arg → Bool
  | [.num i, .num v] => registerWith c (fun r => exprWithin r.width v && p r) i
  | _ => false

/-- Float arithmetic has a meaning on the register (R147, R148). -/
def floatRegister (r : RegSpec) : Bool := decide (r.kind = .zero ∨ r.width = 32 ∨ r.width = 64)

/-- A call inside a step whose record the table admits whatever the answers before it were: operands of the table's
shape that fit, registers of the bank, the core's byte order, a float format for float arithmetic, and submission
under REJECT (R25, R54, R86, R87, R147, R201). -/
def callAdmitted (c : Cfg) (k : Call) : Bool :=
  match k.op.toNat with
  | 0x01 => match k.args with
    | [.num _] => true
    | _ => false
  | 0x02 => match k.args with
    | [.num v, .num _] => exprWithin 8 v
    | _ => false
  | 0x03 => match k.args with
    | [.num _, .num _] => true
    | _ => false
  | 0x04 => match k.args with
    | [.bytes es, .num _] => decide (es.length < 2 ^ 64)
    | _ => false
  | 0x10 => readAdmitted c k.args
  | 0x11 => readAdmitted c k.args
  | 0x12 => readAdmitted c k.args
  | 0x13 => readAdmitted c k.args
  | 0x14 => readAdmitted c k.args
  | 0x18 => writeAdmitted c 16 k.args
  | 0x19 => writeAdmitted c 32 k.args
  | 0x1A => writeAdmitted c 64 k.args
  | 0x1B => writeAdmitted c 32 k.args
  | 0x1C => writeAdmitted c 64 k.args
  | 0x20 => registerValueAdmitted c (fun _ => true) k.args
  | 0x21 => registerAdmitted c k.args
  | 0x22 => registerValueAdmitted c (fun _ => true) k.args
  | 0x23 => registerValueAdmitted c (fun _ => true) k.args
  | 0x24 => registerValueAdmitted c (fun _ => true) k.args
  | 0x25 => registerAdmitted c k.args
  | 0x26 => registerValueAdmitted c floatRegister k.args
  | 0x27 => registerValueAdmitted c floatRegister k.args
  | 0x28 => registerAdmitted c k.args
  | 0x30 => match k.args with
    | [.num _] => true
    | _ => false
  | 0x31 => k.args.isEmpty
  | 0x50 => match k.args with
    | [.num _, .num _, .num _] => decide (c.fullPolicy = .reject)
    | _ => false
  | _ => false

/-- A script that returns (R282) and makes admitted calls alone. -/
def scriptAdmitted (c : Cfg) : Script → Bool
  | .ret _ => true
  | .hang => false
  | .call k next => callAdmitted c k && scriptAdmitted c next
  | .branch _ y n => scriptAdmitted c y && scriptAdmitted c n

/-- RUN, CB and every action body return and make admitted calls alone. -/
def stepperAdmitted (c : Cfg) : Bool :=
  scriptAdmitted c c.run && (c.cb.map (scriptAdmitted c)).getD true && scriptAdmitted c c.act

end Sys2Proof.Machine
end

