-- ==== Sys2Proof/Certificates/Slice0/Obligations.lean ====
section
/-! DEFINITION. The statements for the provers. Each docstring names the rule of spec/ that the statement formalises.
`exec i s = .next { s with ... }` says the result and the frame at once: every field that is not named is as before. -/

open Sys2Proof Sys2Proof.Machine

/-! ### Encoding (30_encoding.md) -/

/-- R85, R86, R92, R81, R82: decoding the encoding of a well-formed instruction gives it back, every operand at every
value, an instruction word through its bytes in BO. -/
def Obligations.DecodeOfEncode : Prop :=
  ∀ (c : Cfg) (i : Instr), c.WellFormed → i.wellFormed c = true → decode c (encode c i) = .ok i

/-- R85, R86: an encoded object that decodes is the encoding of what it decodes to, so no two objects share a meaning. -/
def Obligations.EncodeOfDecode : Prop :=
  ∀ (c : Cfg) (e : Encoded) (i : Instr), c.WellFormed → decode c e = .ok i → encode c i = e

/-- R87, its list of reserved select codes: none decodes, a transaction with one is refused, and so is a call inside a
step. -/
def Obligations.ReservedSelectCodesAreRefused : Prop :=
  ∀ op : Byte,
    (op.toNat = 0x00 ∨ (0x05 ≤ op.toNat ∧ op.toNat ≤ 0x0F) ∨ (0x15 ≤ op.toNat ∧ op.toNat ≤ 0x17) ∨
      (0x1D ≤ op.toNat ∧ op.toNat ≤ 0x1F) ∨ (0x29 ≤ op.toNat ∧ op.toNat ≤ 0x2F) ∨
      (0x32 ≤ op.toNat ∧ op.toNat ≤ 0x3F) ∨ (0x41 ≤ op.toNat ∧ op.toNat ≤ 0x4F) ∨ 0x52 ≤ op.toNat) →
    (∀ xs, decodeOp op xs = .error (.reservedSelect op)) ∧
    (∀ (s : State) (who : Agent) (xs : List Operand) (rest : List Txn), s.inbox = ⟨who, op, xs⟩ :: rest →
      step s = .refused (.reservedSelect op)) ∧
    (∀ (xs : List Arg) (k : Script) (args : List Word) (answers : List Reply) (s : State),
      runScript (.call ⟨op, xs⟩ k) args answers s = .refused (.reservedSelect op))

/-- R87, operands. A register pattern wider than W[i] is refused, for a Zero register too (log 18); so are an instruction
word of more than 8w bits, a byte sequence of more than 2^64 - 1 bytes, and every operand of fixed width in the table of
R86 that does not fit (the first such operand is named); and a transaction whose record has an operand that does not fit
is refused. R86 gives SCHED.SUBMIT's ActionId and Tag no width: that they have 64 bits, and that a wider one is refused,
is the model's choice (log 13). -/
def Obligations.WideOperandsAreRefused : Prop :=
  (∀ (s : State) (i : Nat) (r : RegSpec) (v : Word), s.cfg.regs[i]? = some r → 2 ^ r.width ≤ v.toNat →
    exec (.regSetInt i v) s = .refused (.operandTooWide r.width) ∧
    exec (.regIncInt i v) s = .refused (.operandTooWide r.width) ∧
    exec (.regDecInt i v) s = .refused (.operandTooWide r.width) ∧
    exec (.regSetFloat i v) s = .refused (.operandTooWide r.width) ∧
    exec (.regIncFloat i v) s = .refused (.operandTooWide r.width) ∧
    exec (.regDecFloat i v) s = .refused (.operandTooWide r.width)) ∧
  (∀ op ∈ ([0x20, 0x22, 0x23, 0x24, 0x26, 0x27] : List Byte), ∀ i v : Nat, 2 ^ 64 ≤ v →
    decodeOp op [.num i, .num v] = .error (.operandTooWide 64)) ∧
  (∀ (s : State) (data : List Byte) (a : Word), 2 ^ 64 ≤ data.length →
    exec (.memWriteRaw data a) s = .refused (.operandTooWide 64)) ∧
  (∀ (data : List Byte) (a : Nat), 2 ^ 64 ≤ data.length ∨ 2 ^ 64 ≤ a →
    decodeOp 0x04 [.bytes data, .num a] = .error (.operandTooWide 64)) ∧
  (∀ (s : State) (word : Word), 2 ^ (8 * s.cfg.width) ≤ word.toNat →
    exec (.runWord word) s = .refused (.operandTooWide (8 * s.cfg.width))) ∧
  (∀ row ∈ fixedFields, ∀ (vs : List Nat) (k : Nat), vs.length = row.2.length → k < row.2.length →
    (∀ j, j < k → vs.getD j 0 < 2 ^ row.2.getD j 0) → 2 ^ row.2.getD k 0 ≤ vs.getD k 0 →
    decodeOp row.1 (vs.map .num) = .error (.operandTooWide (row.2.getD k 0))) ∧
  (∀ (s : State) (t : Txn) (rest : List Txn) (w : Nat), s.inbox = t :: rest →
    decodeOp t.op t.operands = .error (.operandTooWide w) → step s = .refused (.operandTooWide w))

/-- R86, R82: one record of each family, written from the table, and an instruction word in both byte orders. -/
def Obligations.TableRecordsDecode : Prop :=
  decodeOp 0x01 [.num 15] = .ok (.memReadByte 15) ∧
  decodeOp 0x02 [.num 0x5A, .num 3] = .ok (.memWriteByte 0x5A 3) ∧
  decodeOp 0x04 [.bytes [1, 2, 3], .num 13] = .ok (.memWriteRaw [1, 2, 3] 13) ∧
  decodeOp 0x10 [.num 1, .num 4] = .ok (.memReadU16 .le 4) ∧
  decodeOp 0x1B [.num 0, .num 0, .num 0x3F800000] = .ok (.memWriteF32 .be 0 0x3F800000) ∧
  decodeOp 0x23 [.num 3, .num 3] = .ok (.regDecInt 3 3) ∧
  decodeOp 0x26 [.num 2, .num 0x3F800000] = .ok (.regIncFloat 2 0x3F800000) ∧
  decodeOp 0x30 [.num 4] = .ok (.pcIncrement 4) ∧
  decodeOp 0x40 [] = .ok .cycleStep ∧
  decodeOp 0x50 [.num 1, .num 2, .num 3] = .ok (.schedSubmit 1 2 3) ∧
  decodeOp 0x51 [] = .ok .schedStep ∧
  decodeWord Config.standard [0x12, 0x34] = .ok (.runWord 0x1234) ∧
  decodeWord { Config.standard with order := .le } [0x12, 0x34] = .ok (.runWord 0x3412)

/-- R90, R91: what the pseudo-operations expand to; `MEM.READ_TYPED` of any other width is refused. ONE_W is the
configuration's (log 9). -/
def Obligations.PseudoOperationsExpand : Prop :=
  ∀ (c : Cfg) (o : ByteOrder) (a : Word) (i : Nat),
    Pseudo.expand c (.readTyped o 1 a) = some (.memReadByte a) ∧
    Pseudo.expand c (.readTyped o 2 a) = some (.memReadU16 o a) ∧
    Pseudo.expand c (.readTyped o 4 a) = some (.memReadU32 o a) ∧
    Pseudo.expand c (.readTyped o 8 a) = some (.memReadU64 o a) ∧
    (∀ n, n ∉ [1, 2, 4, 8] → Pseudo.expand c (.readTyped o n a) = none) ∧
    Pseudo.expand c (.incInt i) = some (.regIncInt i 1) ∧
    Pseudo.expand c (.decInt i) = some (.regDecInt i 1) ∧
    (∀ r one, c.regs[i]? = some r → oneOf c.fnum r.width = some one →
      Pseudo.expand c (.incFloat i) = some (.regIncFloat i one) ∧
      Pseudo.expand c (.decFloat i) = some (.regDecFloat i one))

/-! ### Memory operations (20_memory.md, 41_memory_ops.md) -/

/-- R101: the exact bounds test is what a 65-bit adder computes, overflow clause included. -/
def Obligations.BoundsRuleIsTheAdders : Prop :=
  ∀ (n : Nat) (start len : Word), n ≤ 2 ^ 64 - 1 →
    (inBoundsAdder n start len = true ↔ start.toNat + len.toNat ≤ n)

/-- R102. -/
def Obligations.ReadByteResult : Prop :=
  ∀ (s : State) (index : Word),
    hasCode 0x01 (.memReadByte index) ∧
    (index.toNat < s.cfg.memSize → exec (.memReadByte index) s =
      .next { s with reply := .okVal (.bits 8 ((s.mem.read index.toNat).setWidth 64)) }) ∧
    (s.cfg.memSize ≤ index.toNat → exec (.memReadByte index) s =
      .next { s with reply := .err (.av ⟨index, 1, true⟩) })

/-- R103: one byte changes, no other; a rejected write changes none; writing it again changes nothing. -/
def Obligations.WriteByteResult : Prop :=
  ∀ (s : State) (value : Byte) (index : Word), s.mem.wf →
    hasCode 0x02 (.memWriteByte value index) ∧
    (index.toNat < s.cfg.memSize → ∃ t, exec (.memWriteByte value index) s = .next t ∧
      t = { s with mem := t.mem, reply := .ok } ∧
      t.mem.read index.toNat = value ∧
      (∀ b, b ≠ index.toNat → t.mem.read b = s.mem.read b) ∧
      exec (.memWriteByte value index) t = .next t) ∧
    (s.cfg.memSize ≤ index.toNat → exec (.memWriteByte value index) s =
      .next { s with reply := .err (.av ⟨index, 1, false⟩) })

/-- R104: a copy of the bytes at start, `backed = false`, or the violation; `n = 0` succeeds exactly when
`start <= N`. -/
def Obligations.ReadRawResult : Prop :=
  ∀ (s : State) (start n : Word),
    hasCode 0x03 (.memReadRaw start n) ∧
    (start.toNat + n.toNat ≤ s.cfg.memSize → ∃ bytes, exec (.memReadRaw start n) s =
        .next { s with reply := .okVal (.view bytes false) } ∧
      bytes.length = n.toNat ∧ ∀ k, k < n.toNat → bytes[k]? = some (s.mem.read (start.toNat + k))) ∧
    (s.cfg.memSize < start.toNat + n.toNat → exec (.memReadRaw start n) s =
      .next { s with reply := .err (.av ⟨start, n, true⟩) })

/-- R106: all of the bytes in order and no other, or none and the violation. -/
def Obligations.WriteRawResult : Prop :=
  ∀ (s : State) (data : List Byte) (start : Word), s.mem.wf → data.length ≤ 2 ^ 64 - 1 →
    hasCode 0x04 (.memWriteRaw data start) ∧
    (start.toNat + data.length ≤ s.cfg.memSize → ∃ t, exec (.memWriteRaw data start) s = .next t ∧
      t = { s with mem := t.mem, reply := .ok } ∧
      (∀ k, k < data.length → data[k]? = some (t.mem.read (start.toNat + k))) ∧
      (∀ b, b < start.toNat ∨ start.toNat + data.length ≤ b → t.mem.read b = s.mem.read b)) ∧
    (s.cfg.memSize < start.toNat + data.length → exec (.memWriteRaw data start) s =
      .next { s with reply := .err (.av ⟨start, BitVec.ofNat 64 data.length, false⟩) })

/-- R110 to R114, with the value formulas of R52. -/
def Obligations.TypedReadsResult : Prop :=
  ∀ (s : State) (o : ByteOrder) (start : Word),
    let reads (op : Byte) (n : Nat) (i : Instr) : Prop :=
      hasCode op i ∧
      (start.toNat + n ≤ s.cfg.memSize → exec i s = .next { s with
        reply := .okVal (.bits (8 * n) (BitVec.ofNat 64 (byteSum o n fun k => s.mem.read (start.toNat + k)))) }) ∧
      (s.cfg.memSize < start.toNat + n → exec i s =
        .next { s with reply := .err (.av ⟨start, BitVec.ofNat 64 n, true⟩) })
    reads 0x10 2 (.memReadU16 o start) ∧ reads 0x11 4 (.memReadU32 o start) ∧ reads 0x12 8 (.memReadU64 o start) ∧
    reads 0x13 4 (.memReadF32 o start) ∧ reads 0x14 8 (.memReadF64 o start)

/-- R115 to R119, with the byte formulas of R52: the n bytes at start, and no other byte, whatever the order. -/
def Obligations.TypedWritesResult : Prop :=
  ∀ (s : State) (o : ByteOrder) (start : Word) (v16 : BitVec 16) (v32 : BitVec 32) (v64 : BitVec 64), s.mem.wf →
    let writes (op : Byte) (n v : Nat) (i : Instr) : Prop :=
      hasCode op i ∧
      (start.toNat + n ≤ s.cfg.memSize → ∃ t, exec i s = .next t ∧
        t = { s with mem := t.mem, reply := .ok } ∧
        (∀ k, k < n → t.mem.read (start.toNat + k) = byteOf o n v k) ∧
        (∀ b, b < start.toNat ∨ start.toNat + n ≤ b → t.mem.read b = s.mem.read b)) ∧
      (s.cfg.memSize < start.toNat + n → exec i s =
        .next { s with reply := .err (.av ⟨start, BitVec.ofNat 64 n, false⟩) })
    writes 0x18 2 v16.toNat (.memWriteU16 o start v16) ∧ writes 0x19 4 v32.toNat (.memWriteU32 o start v32) ∧
    writes 0x1A 8 v64.toNat (.memWriteU64 o start v64) ∧ writes 0x1B 4 v32.toNat (.memWriteF32 o start v32) ∧
    writes 0x1C 8 v64.toNat (.memWriteF64 o start v64)

/-- R120: a typed write and then the typed read of the same kind, order and place returns the value. -/
def Obligations.WriteThenReadReturnsValue : Prop :=
  ∀ (s : State) (o : ByteOrder) (start : Word) (v16 : BitVec 16) (v32 : BitVec 32) (v64 : BitVec 64), s.mem.wf →
    let trip (n : Nat) (v : Word) (write read : Instr) : Prop :=
      start.toNat + n ≤ s.cfg.memSize → ∃ t, exec write s = .next t ∧ t.reply = .ok ∧
        exec read t = .next { t with reply := .okVal (.bits (8 * n) v) }
    trip 2 (v16.setWidth 64) (.memWriteU16 o start v16) (.memReadU16 o start) ∧
    trip 4 (v32.setWidth 64) (.memWriteU32 o start v32) (.memReadU32 o start) ∧
    trip 8 v64 (.memWriteU64 o start v64) (.memReadU64 o start) ∧
    trip 4 (v32.setWidth 64) (.memWriteF32 o start v32) (.memReadF32 o start) ∧
    trip 8 v64 (.memWriteF64 o start v64) (.memReadF64 o start)

/-- R121: the raw operations fail alike, and their violations differ in wasRead alone. -/
def Obligations.RawFaultsAgree : Prop :=
  ∀ (s : State) (start len : Word) (data : List Byte),
    (s.cfg.memSize < start.toNat + len.toNat ∨ 2 ^ 64 ≤ start.toNat + len.toNat) → s.cfg.memSize ≤ 2 ^ 64 - 1 →
    data.length = len.toNat →
    exec (.memReadRaw start len) s = .next { s with reply := .err (.av ⟨start, len, true⟩) } ∧
    exec (.memWriteRaw data start) s = .next { s with reply := .err (.av ⟨start, len, false⟩) }

/-- R108: the float helpers move the same patterns as the integer helpers of their width. -/
def Obligations.FloatHelpersMovePatterns : Prop :=
  ∀ (s : State) (o : ByteOrder) (start : Word) (f32 : BitVec 32) (f64 : BitVec 64),
    exec (.memReadF32 o start) s = exec (.memReadU32 o start) s ∧
    exec (.memReadF64 o start) s = exec (.memReadU64 o start) s ∧
    exec (.memWriteF32 o start f32) s = exec (.memWriteU32 o start f32) s ∧
    exec (.memWriteF64 o start f64) s = exec (.memWriteU64 o start f64) s

/-- R55: a narrower read inside a wider write sees the bytes: after a 32-bit write, each 16-bit half and each order. -/
def Obligations.MixedWidthReadSeesBytes : Prop :=
  ∀ (s : State) (start mid : Word) (v : BitVec 32), s.mem.wf → start.toNat + 4 ≤ s.cfg.memSize →
    mid.toNat = start.toNat + 2 →
    ∃ t u, exec (.memWriteU32 .be start v) s = .next t ∧ exec (.memWriteU32 .le start v) s = .next u ∧
      exec (.memReadU16 .be mid) t = .next { t with reply := .okVal (.bits 16 ((v.extractLsb' 0 16).setWidth 64)) } ∧
      exec (.memReadU16 .be start) t = .next { t with reply := .okVal (.bits 16 ((v.extractLsb' 16 16).setWidth 64)) } ∧
      exec (.memReadU16 .le mid) u = .next { u with reply := .okVal (.bits 16 ((v.extractLsb' 16 16).setWidth 64)) } ∧
      exec (.memReadU16 .le start) u = .next { u with reply := .okVal (.bits 16 ((v.extractLsb' 0 16).setWidth 64)) }

/-- 41_memory_ops.md's head and R59: no memory operation touches a register, a list of the scheduler or the history,
and the reads leave memory alone as well. -/
def Obligations.MemoryOperationsFrame : Prop :=
  ∀ (s t : State) (o : ByteOrder) (a n : Word) (b : Byte) (data : List Byte) (v16 : BitVec 16) (v32 : BitVec 32)
    (v64 : BitVec 64),
    (∀ i ∈ [Instr.memReadByte a, .memReadRaw a n, .memReadU16 o a, .memReadU32 o a, .memReadU64 o a, .memReadF32 o a,
        .memReadF64 o a],
      exec i s = .next t → t = { s with reply := t.reply }) ∧
    (∀ i ∈ [Instr.memWriteByte b a, .memWriteRaw data a, .memWriteU16 o a v16, .memWriteU32 o a v32,
        .memWriteU64 o a v64, .memWriteF32 o a v32, .memWriteF64 o a v64],
      exec i s = .next t → t = { s with mem := t.mem, reply := t.reply })

/-! ### Register and PC operations (10_state.md, 42_register_ops.md) -/

/-- R141, R145: the pattern is stored as it stands, in a register of any width; a Zero register drops it. -/
def Obligations.SettersStorePattern : Prop :=
  ∀ (s : State) (i : Nat) (r : RegSpec) (v : Word), s.cfg.regs[i]? = some r → v.toNat < 2 ^ r.width →
    hasCode 0x20 (.regSetInt i v) ∧ hasCode 0x24 (.regSetFloat i v) ∧
    ∀ op ∈ [Instr.regSetInt i v, .regSetFloat i v],
      (r.kind = .concrete → exec op s = .next { s with regs := s.regs.set i v, reply := .ok }) ∧
      (r.kind = .zero → exec op s = .next { s with reply := .ok })

/-- R142, R146: both getters return the same W[i]-bit pattern, the slot of a Concrete register and 0 for a Zero one,
whatever its slot holds. -/
def Obligations.GettersReturnPattern : Prop :=
  ∀ (s : State) (i : Nat) (r : RegSpec), s.cfg.regs[i]? = some r →
    hasCode 0x21 (.regGetInt i) ∧ hasCode 0x25 (.regGetFloat i) ∧
    ∀ op ∈ [Instr.regGetInt i, .regGetFloat i],
      (r.kind = .concrete → exec op s = .next { s with reply := .okVal (.bits r.width (s.regs.getD i 0#64)) }) ∧
      (r.kind = .zero → exec op s = .next { s with reply := .okVal (.bits r.width 0#64) })

/-- R143, R144: sum and difference modulo 2^W; a Zero register changes nothing. The last clause, that a decrement by d is
an increment by (2^W - d) mod 2^W, is R144's own inference from R143, marked as derived there. -/
def Obligations.IntegerIncrementAndDecrement : Prop :=
  ∀ (s : State) (i : Nat) (r : RegSpec) (d e : Word), s.cfg.WellFormed → s.cfg.regs[i]? = some r →
    d.toNat < 2 ^ r.width → e.toNat = (2 ^ r.width - d.toNat) % 2 ^ r.width →
    hasCode 0x22 (.regIncInt i d) ∧ hasCode 0x23 (.regDecInt i d) ∧
    (r.kind = .concrete →
      exec (.regIncInt i d) s = .next { s with
        regs := s.regs.set i (BitVec.ofNat 64 (((s.regs.getD i 0#64).toNat + d.toNat) % 2 ^ r.width)), reply := .ok } ∧
      exec (.regDecInt i d) s = .next { s with
        regs := s.regs.set i (BitVec.ofInt 64 ((((s.regs.getD i 0#64).toNat : Int) - d.toNat) % 2 ^ r.width)),
        reply := .ok }) ∧
    (r.kind = .zero →
      exec (.regIncInt i d) s = .next { s with reply := .ok } ∧
      exec (.regDecInt i d) s = .next { s with reply := .ok }) ∧
    exec (.regDecInt i d) s = exec (.regIncInt i e) s

/-- R147, R148: W 32 and 64 use FADD_W and FSUB_W of the configuration's FNUM, whatever it is; W 8 and 16 are refused;
a Zero register discards the result at every width. -/
def Obligations.FloatIncrementAndDecrement : Prop :=
  ∀ (s : State) (i : Nat) (r : RegSpec) (d : Word), s.cfg.regs[i]? = some r → d.toNat < 2 ^ r.width →
    hasCode 0x26 (.regIncFloat i d) ∧ hasCode 0x27 (.regDecFloat i d) ∧
    (r.kind = .concrete → r.width = 32 ∨ r.width = 64 →
      (∃ sum, fnumAdd s.cfg.fnum r.width (s.regs.getD i 0#64) d = some sum ∧
        exec (.regIncFloat i d) s = .next { s with regs := s.regs.set i sum, reply := .ok }) ∧
      (∃ diff, fnumSub s.cfg.fnum r.width (s.regs.getD i 0#64) d = some diff ∧
        exec (.regDecFloat i d) s = .next { s with regs := s.regs.set i diff, reply := .ok })) ∧
    (r.kind = .concrete → r.width = 8 ∨ r.width = 16 →
      exec (.regIncFloat i d) s = .refused (.noFloatFormat r.width) ∧
      exec (.regDecFloat i d) s = .refused (.noFloatFormat r.width)) ∧
    (r.kind = .zero →
      exec (.regIncFloat i d) s = .next { s with reply := .ok } ∧
      exec (.regDecFloat i d) s = .next { s with reply := .ok })

/-- D11's reference FNUM (log 10, PRESUMED): adding +0 to a finite nonzero binary32 or binary64 pattern gives the same
pattern, so decomposing and rounding lose nothing on a representable value. -/
def Obligations.ReferenceAdditionOfZeroIsExact : Prop :=
  ∀ (free x : Nat),
    (x < 2 ^ 32 → binary32.magnitude x ≠ 0 → binary32.magnitude x < binary32.infinity → binary32.add free x 0 = x) ∧
    (x < 2 ^ 64 → binary64.magnitude x ≠ 0 → binary64.magnitude x < binary64.infinity → binary64.add free x 0 = x)

/-- R149: by the kind alone. -/
def Obligations.CanWriteReportsKind : Prop :=
  ∀ (s : State) (i : Nat) (r : RegSpec), s.cfg.regs[i]? = some r →
    hasCode 0x28 (.regCanWrite i) ∧
    exec (.regCanWrite i) s = .next { s with reply := .okVal (.bool (decide (r.kind = .concrete))) }

/-- R150: a pattern set through one view is got through the other, for every Concrete register. -/
def Obligations.ReinterpretationIsInvolutive : Prop :=
  ∀ (s : State) (i : Nat) (r : RegSpec) (f : Word), Inv s → s.cfg.regs[i]? = some r → r.kind = .concrete →
    f.toNat < 2 ^ r.width →
    (∃ t, exec (.regSetFloat i f) s = .next t ∧ t.reply = .ok ∧
      exec (.regGetInt i) t = .next { t with reply := .okVal (.bits r.width f) }) ∧
    (∃ t, exec (.regSetInt i f) s = .next t ∧ t.reply = .ok ∧
      exec (.regGetFloat i) t = .next { t with reply := .okVal (.bits r.width f) })

/-- R151: a Zero register, for any prior state: every setter, increment and decrement leaves the whole block state
unchanged, and both getters return 0. -/
def Obligations.ZeroRegisterLaw : Prop :=
  ∀ (s : State) (i : Nat) (r : RegSpec) (v : Word), s.cfg.regs[i]? = some r → r.kind = .zero → v.toNat < 2 ^ r.width →
    (∀ op ∈ [Instr.regSetInt i v, .regIncInt i v, .regDecInt i v, .regSetFloat i v, .regIncFloat i v,
        .regDecFloat i v], exec op s = .next { s with reply := .ok }) ∧
    (∀ op ∈ [Instr.regGetInt i, .regGetFloat i],
      exec op s = .next { s with reply := .okVal (.bits r.width 0#64) })

/-- R25: no operation changes the number, the kinds or the widths of the registers, and one that names an index outside
the bank is refused. -/
def Obligations.RegisterBankIsStable : Prop :=
  (∀ (i : Instr) (s t : State), exec i s = .next t → t.cfg = s.cfg ∧ t.regs.length = s.regs.length) ∧
  (∀ (s : State) (i : Nat) (v : Word), s.cfg.regs.length ≤ i →
    ∀ op ∈ [Instr.regSetInt i v, .regGetInt i, .regIncInt i v, .regDecInt i v, .regSetFloat i v, .regGetFloat i,
        .regIncFloat i v, .regDecFloat i v, .regCanWrite i],
      exec op s = .refused (.registerOutsideBank i))

/-- 42_register_ops.md's head: a register or PC operation touches no memory, no list of the scheduler, and no register
but the one it names; a getter touches none. -/
def Obligations.RegisterOperationsFrame : Prop :=
  ∀ (s t : State) (i : Nat) (v : Word),
    (∀ op ∈ [Instr.regSetInt i v, .regIncInt i v, .regDecInt i v, .regSetFloat i v, .regIncFloat i v,
        .regDecFloat i v],
      exec op s = .next t → t = { s with regs := t.regs, reply := .ok } ∧ ∀ j, j ≠ i → t.readReg j = s.readReg j) ∧
    (∀ op ∈ [Instr.regGetInt i, .regGetFloat i, .regCanWrite i, .pcRead],
      exec op s = .next t → t = { s with reply := t.reply }) ∧
    (exec (.pcIncrement v) s = .next t →
      t = { s with regs := t.regs, reply := .ok } ∧ ∀ j, j ≠ s.cfg.pcIndex → t.readReg j = s.readReg j)

/-- R160: the PC advances by delta modulo 2^W_PC; a negative delta's pattern subtracts; delta 0 changes nothing. -/
def Obligations.PcIncrementWrapsAtItsWidth : Prop :=
  ∀ (s : State) (delta : Word), Inv s →
    hasCode 0x30 (.pcIncrement delta) ∧
    exec (.pcIncrement delta) s = .next { s with
      regs := s.regs.set s.cfg.pcIndex (BitVec.ofNat 64 ((s.pc.toNat + delta.toNat) % 2 ^ pcWidth s.cfg)),
      reply := .ok } ∧
    exec (.pcIncrement (-delta)) s = .next { s with
      regs := s.regs.set s.cfg.pcIndex (BitVec.ofInt 64 (((s.pc.toNat : Int) - delta.toNat) % 2 ^ pcWidth s.cfg)),
      reply := .ok } ∧
    exec (.pcIncrement 0) s = .next { s with reply := .ok }

/-- R161: the PC register's integer value, zero-extended: never 2^W_PC or more. -/
def Obligations.PcReadZeroExtends : Prop :=
  ∀ (s : State), Inv s →
    hasCode 0x31 .pcRead ∧
    exec .pcRead s = .next { s with reply := .okVal (.bits 64 (s.regs.getD s.cfg.pcIndex 0#64)) } ∧
    (s.regs.getD s.cfg.pcIndex 0#64).toNat < 2 ^ pcWidth s.cfg

/-- R162: the PC is an ordinary register: REG.SET_INT on it is a jump that PC.READ sees, PC.INCREMENT is REG.INC_INT,
and REG.GET_INT reads the same bits. -/
def Obligations.PcIsAnOrdinaryRegister : Prop :=
  ∀ (s : State) (v : Word), Inv s → v.toNat < 2 ^ pcWidth s.cfg →
    exec (.pcIncrement v) s = exec (.regIncInt s.cfg.pcIndex v) s ∧
    exec (.regGetInt s.cfg.pcIndex) s = .next { s with reply := .okVal (.bits (pcWidth s.cfg) s.pc) } ∧
    ∃ t, exec (.regSetInt s.cfg.pcIndex v) s = .next t ∧ t.pc = v ∧
      exec .pcRead t = .next { t with reply := .okVal (.bits 64 v) }

/-- R30: the advance of a successful fetch wraps at the PC's width when that is below 64, and never at 64. -/
def Obligations.AdvanceWrapsBelowSixtyFourBits : Prop :=
  ∀ (s : State), Inv s → s.pc.toNat + s.cfg.width ≤ s.cfg.memSize →
    (s.advancePc (BitVec.ofNat 64 s.cfg.width)).pc.toNat = (s.pc.toNat + s.cfg.width) % 2 ^ pcWidth s.cfg ∧
    (pcWidth s.cfg = 64 → (s.advancePc (BitVec.ofNat 64 s.cfg.width)).pc.toNat = s.pc.toNat + s.cfg.width) ∧
    (pcWidth s.cfg < 64 → 2 ^ pcWidth s.cfg - 1 - s.cfg.width < s.pc.toNat →
      (s.advancePc (BitVec.ofNat 64 s.cfg.width)).pc.toNat < s.cfg.width)

/-! ### The cycle (43_cycle.md) -/

/-- R181: without a callback a failed fetch returns the raw violation and writes nothing else; it fails exactly when
`p + w > N`: otherwise RUN is invoked. -/
def Obligations.FetchFaultWithoutCallback : Prop :=
  ∀ s : State, s.cfg.cb = none →
    (s.cfg.memSize < s.pc.toNat + s.cfg.width →
      exec .cycleStep s = .next { s with reply := .err (.av (fetchViolation s)) }) ∧
    (s.pc.toNat + s.cfg.width ≤ s.cfg.memSize → ∀ t, exec .cycleStep s = .next t →
      t.events = s.events ++ [.ran (fetchedWord s)])

/-- R182: on a successful fetch the PC is p + w before RUN starts, RUN gets the packed word, once, and its return is the
step's. -/
def Obligations.FetchedWordGoesToRun : Prop :=
  ∀ (s t : State) (e : Ending), Inv s → s.pc.toNat + s.cfg.width ≤ s.cfg.memSize →
    let word := fetchedWord s
    runScript s.cfg.run [word] [] (beforeRun s word) = .next (t, e) →
    (beforeRun s word).pc.toNat = (s.pc.toNat + s.cfg.width) % 2 ^ pcWidth s.cfg ∧
    t.events = s.events ++ [.ran word] ∧
    (e = .ok → exec .cycleStep s = .next { t with reply := .ok }) ∧
    (∀ p, e = .payload p → exec .cycleStep s = .next { t with reply := .err (.runner p) }) ∧
    (∀ av, e = .violation av → exec .cycleStep s = .next { t with reply := .err (.av av) })

/-- R83, R84: an instruction word is handed to RUN whole and once, whatever its bits. -/
def Obligations.InstructionWordRunsRun : Prop :=
  ∀ (s t : State) (word : Word) (e : Ending), word.toNat < 2 ^ (8 * s.cfg.width) →
    runScript s.cfg.run [word] [] { s with events := s.events ++ [.ran word] } = .next (t, e) →
    exec (.runWord word) s = .next { t with reply := e.ofRunner } ∧ t.events = s.events ++ [.ran word]

/-- R183, R184: a failed fetch with a callback calls it once with the raw violation, the PC still at p; its return is the
step's, and `none` is OK; a successful fetch never calls it. -/
def Obligations.FetchFaultWithCallback : Prop :=
  ∀ (s : State) (cb : Script), s.cfg.cb = some cb →
    (s.cfg.memSize < s.pc.toNat + s.cfg.width → ∀ t e,
      runScript cb [s.pc, BitVec.ofNat 64 s.cfg.width, 1] []
        { s with events := s.events ++ [.calledBack (fetchViolation s)] } = .next (t, e) →
      t.events = s.events ++ [.calledBack (fetchViolation s)] ∧
      (e = .ok → exec .cycleStep s = .next { t with reply := .ok }) ∧
      (∀ p, e = .payload p → exec .cycleStep s = .next { t with reply := .err (.callback p) }) ∧
      (∀ av, e = .violation av → exec .cycleStep s = .next { t with reply := .err (.av av) })) ∧
    (s.pc.toNat + s.cfg.width ≤ s.cfg.memSize → ∀ t, exec .cycleStep s = .next t →
      ∃ word, t.events = s.events ++ [.ran word])

/-- R185, R241: when RUN returns an error, CYCLE.STEP and SCHED.STEP return it, and everything RUN left stands: the
state is RUN's, with no drain, ageing or firing. -/
def Obligations.RunnerErrorLeavesEffects : Prop :=
  ∀ (s t : State) (e : Ending), Inv s → s.pc.toNat + s.cfg.width ≤ s.cfg.memSize → e ≠ .ok →
    let word := fetchedWord s
    runScript s.cfg.run [word] [] (beforeRun s word) = .next (t, e) →
    exec .cycleStep s = .next { t with reply := e.ofRunner } ∧
    exec .schedStep s = .next { t with reply := e.ofRunner }

/-- R216, R187: CYCLE.STEP by itself neither drains, ages nor fires: the pending list and the held submissions stay, the
channel keeps what it held, in order, and nothing fires. -/
def Obligations.CycleStepDoesNotSchedule : Prop :=
  ∀ (s t : State), exec .cycleStep s = .next t →
    t.pend = s.pend ∧ t.held = s.held ∧ s.chan <+: t.chan ∧
    ∃ added, t.events = s.events ++ added ∧ added.length ≤ 1 ∧ ∀ x, Event.fired x ∉ added

/-- R276: a suppressed fault that changes nothing repeats: for every n, n steps of the machine leave PC, registers and
memory as they are, each a call of CB and each a success. With the inbox empty the machine's steps are SCHED.STEPs by the
model's choice (log 7). Actions that wait (O46), and a CB that changes other state, are left out. -/
def Obligations.SuppressedFaultRepeatsForever : Prop :=
  ∀ (s : State) (n : Nat), s.cfg.cb = some (.ret .ok) → s.cfg.memSize < s.pc.toNat + s.cfg.width →
    s.inbox = [] → s.chan = [] → s.pend = [] → s.held = [] → s.reply = .ok →
    Host.Core.run Sys2Proof.core n s =
      .next { s with events := s.events ++ List.replicate n (.calledBack (fetchViolation s)) }

/-! ### The scheduler (44_scheduler.md) -/

/-- R201, R202: a submission is appended at the tail while the channel has room; REJECT answers FULL and changes
nothing; BLOCK holds it (the model's waiting list, log 11; O45 says when it enters the channel and gets its OK), and is
refused inside a step. That BLOCK appends inside a step while there is room is the model's choice (log 21). -/
def Obligations.SubmitAppendsOrAnswersFull : Prop :=
  ∀ (s : State) (a d t : Word),
    hasCode 0x50 (.schedSubmit a d t) ∧
    (s.chan.length < s.cfg.chanCap →
      exec (.schedSubmit a d t) s = .next { s with chan := s.chan ++ [⟨a, d, t⟩], reply := .ok } ∧
      innerOp (.schedSubmit a d t) s = .next { s with chan := s.chan ++ [⟨a, d, t⟩], reply := .ok }) ∧
    (s.cfg.chanCap ≤ s.chan.length → s.cfg.fullPolicy = .reject →
      exec (.schedSubmit a d t) s = .next { s with reply := .full } ∧
      innerOp (.schedSubmit a d t) s = .next { s with reply := .full }) ∧
    (s.cfg.chanCap ≤ s.chan.length → s.cfg.fullPolicy = .block →
      exec (.schedSubmit a d t) s = .next { s with held := s.held ++ [⟨a, d, t⟩], reply := .noStatus } ∧
      innerOp (.schedSubmit a d t) s = .refused .submitWouldBlock)

/-- R211: a step whose inner step returns an error returns that error, and no action is drained, aged or fired; the
channel keeps what it held. -/
def Obligations.FaultedStepConsumesNoDelay : Prop :=
  ∀ (s t : State), exec .cycleStep s = .next t → t.reply.isErr = true →
    exec .schedStep s = .next t ∧ t.pend = s.pend ∧ s.chan <+: t.chan ∧
    ∃ added, t.events = s.events ++ added ∧ ∀ x, Event.fired x ∉ added

/-- R204 to R209: after an inner step that returned OK, the head part of the channel that PMAX admits goes to the tail of
the pending list, once; the list is traversed once; the actions of delay 0 fire in list order; the others age by one
and survive in order; what bodies submit stays in the channel behind the rest; the step returns OK. -/
def Obligations.SuccessfulStepDrainsAgesFires : Prop :=
  ∀ (s s1 s2 : State) (survivors : List Action), exec .cycleStep s = .next s1 → s1.reply = .ok →
    let list := s1.pend ++ s1.chan.take (drainCount s1)
    traverse list { s1 with chan := s1.chan.drop (drainCount s1), pend := list } = .next (s2, survivors) →
    ∃ t, exec .schedStep s = .next t ∧ t.reply = .ok ∧ t.mem = s2.mem ∧ t.regs = s2.regs ∧ t.cfg = s.cfg ∧
      t.inbox = s.inbox ∧ t.pend = aged 1 list ∧ t.events = s1.events ++ due 0 list ∧
      s1.chan.drop (drainCount s1) <+: t.chan ∧ (s1.held = [] → t.held = [] ∧ t.chan = s2.chan)

/-- R208, R249: a firing hands the ActionId to ACT on the state as it is and drops what ACT returns; a traversal fires
the actions of delay 0 one after the other in list order, each from the state the one before left, and does nothing
else to the state. -/
def Obligations.BodiesRunInPlaceInListOrder : Prop :=
  (∀ (x : Action) (s t : State) (e : Ending),
    runScript s.cfg.act [x.action] [] { s with events := s.events ++ [.fired x] } = .next (t, e) →
    fire x s = .next t) ∧
  (∀ (l : List Action) (s : State),
    traverse l s = (fireAll (l.filter fun x => x.delay = 0#64) s).andThen fun t => .next (t, aged 1 l))

/-- R210: exact timing, the order by R213 (its clause on later drains is that rule's own inference). `l` is the list that a
successful step traverses, and steps are counted from that one. That step fires the actions of delay 0. After k more
successful steps, with faulted steps and other operations anywhere between, the actions of delay over k, aged by k + 1,
head the pending list; an operation that is no successful step fires nothing; and the next successful step, number
k + 2, fires the actions of `l` of delay k + 1, in order, and after them exactly those of delay 0 that stand behind
`l`'s in its own list. -/
def Obligations.ActionFiresOnExactStep : Prop :=
  ∀ (s s1 first : State), exec .cycleStep s = .next s1 → OkStep s first →
    let l := traversed s1
    (first.pend = aged 1 l ∧ first.events = s1.events ++ due 0 l ∧
      ∃ inner, s1.events = s.events ++ inner ∧ ∀ x, Event.fired x ∉ inner) ∧
    ∀ (k : Nat) (u : State), CountedRun k first u →
      (∃ behind, u.pend = aged (k + 1) l ++ behind) ∧
      (∀ i t, exec i u = .next t → ¬ (i = .schedStep ∧ t.reply = .ok) →
        ∃ added, t.events = u.events ++ added ∧ ∀ x, Event.fired x ∉ added) ∧
      (∀ t, OkStep u t → ∃ u1 inner behind, exec .cycleStep u = .next u1 ∧
        u1.events = u.events ++ inner ∧ (∀ x, Event.fired x ∉ inner) ∧
        traversed u1 = aged (k + 1) l ++ behind ∧
        t.pend = aged (k + 2) l ++ aged 1 behind ∧
        t.events = u1.events ++ due (k + 1) l ++ due 0 behind)

/-- R214: nothing is lost, duplicated or reordered. Every operation but SCHED.STEP only appends to the channel and the
waiting list; a successful SCHED.STEP moves a head part of the channel behind the pending list, and every action of
that list either fires or survives, in order, and held submissions that enter the channel get their OK (R201, log 11); a
faulted SCHED.STEP fires nothing and keeps every list. -/
def Obligations.NothingIsLostOrReordered : Prop :=
  (∀ (i : Instr) (s t : State), i ≠ .schedStep → exec i s = .next t →
    t.pend = s.pend ∧ s.chan <+: t.chan ∧ s.held <+: t.held) ∧
  (∀ (s t : State), Inv s → OkStep s t →
    ∃ (submitted taken rest new released : List Action) (inner : List Event),
      s.chan ++ submitted = taken ++ rest ∧
      t.pend = aged 1 (s.pend ++ taken) ∧
      t.events = s.events ++ inner ++ due 0 (s.pend ++ taken) ∧ (∀ x, Event.fired x ∉ inner) ∧
      (aged 1 (s.pend ++ taken)).length + (due 0 (s.pend ++ taken)).length = (s.pend ++ taken).length ∧
      t.chan = rest ++ new ++ released ∧ s.held = released ++ t.held ∧
      t.answered = s.answered ++ released.map fun x => ⟨x, .ok⟩) ∧
  (∀ (s t : State), exec .schedStep s = .next t → t.reply ≠ .ok →
    t.pend = s.pend ∧ s.chan <+: t.chan ∧ t.held = s.held ∧
    ∃ added, t.events = s.events ++ added ∧ ∀ x, Event.fired x ∉ added)

/-- R215: a suppressed fetch fault is a successful step: the scheduler drains, ages and fires though no word was given
to RUN. -/
def Obligations.SuppressedFaultAgesActions : Prop :=
  ∀ (s s1 t : State) (cb : Script), s.cfg.cb = some cb → s.cfg.memSize < s.pc.toNat + s.cfg.width →
    runScript cb [s.pc, BitVec.ofNat 64 s.cfg.width, 1] []
      { s with events := s.events ++ [.calledBack (fetchViolation s)] } = .next (s1, .ok) →
    exec .schedStep s = .next t →
    t.reply = .ok ∧ t.pend = aged 1 (s1.pend ++ s1.chan.take (drainCount s1)) ∧
    t.events = s.events ++ [.calledBack (fetchViolation s)] ++ due 0 (s1.pend ++ s1.chan.take (drainCount s1))

/-- R207, R217: one successful step takes one from every delay but 0, whose actions fire in it, and n of them take n: as
numbers, so that no delay wraps, up to 2^64 - 1. -/
def Obligations.DelaysNeverWrap : Prop :=
  (∀ s t : State, OkStep s t → ∃ s1, exec .cycleStep s = .next s1 ∧
    let l := s.pend ++ s1.chan.take (drainCount s1)
    t.pend = (l.filter fun x => 0 < x.delay.toNat).map
      (fun x => { x with delay := BitVec.ofNat 64 (x.delay.toNat - 1) }) ∧
    t.events = s1.events ++ (l.filter fun x => x.delay.toNat = 0).map .fired) ∧
  (∀ (n : Nat) (s t : State), CountedRun n s t → ∃ behind,
    t.pend = (s.pend.filter fun x => n ≤ x.delay.toNat).map
      (fun x => { x with delay := BitVec.ofNat 64 (x.delay.toNat - n) }) ++ behind)

/-- R218: tags have no effect, and ageing carries them unchanged: from two states that differ in the tags of actions at most, every operation ends alike,
in states that differ in tags at most. -/
def Obligations.TagsHaveNoEffect : Prop :=
  (∀ (i : Instr) (s s' : State), SameButTags s s' →
    (∀ t, exec i s = .next t → ∃ t', exec i s' = .next t' ∧ SameButTags t t') ∧
    (∀ f, exec i s = .fault f → exec i s' = .fault f) ∧
    (∀ r, exec i s = .refused r → exec i s' = .refused r)) ∧
  (∀ (k : Nat) (l : List Action), ((aged k l).map (·.description)).Sublist (l.map (·.description)))

/-! ### Errors and agents (60_exceptions.md, 30_encoding.md R88) -/

/-- R242: the number of each kind of status, whoever returns it, and which of them each kind of operation can end with. -/
def Obligations.StatusCodesByOperation : Prop :=
  (∀ (v : Value) (av : AccessViolation) (p : Word),
    Reply.code .ok = some 0 ∧ (Reply.okVal v).code = some 0 ∧ (Reply.err (.av av)).code = some 1 ∧
    (Ending.violation av).ofRunner.code = some 1 ∧ (Ending.violation av).ofCallback.code = some 1 ∧
    (Ending.payload p).ofRunner.code = some 2 ∧ (Ending.payload p).ofCallback.code = some 3 ∧
    Reply.code .full = some 4) ∧
  ∀ (s t : State) (o : ByteOrder) (a n d x : Word) (j : Nat) (b : Byte) (data : List Byte) (v16 : BitVec 16)
    (v32 : BitVec 32) (v64 : BitVec 64),
    (∀ i ∈ [Instr.memReadByte a, .memWriteByte b a, .memReadRaw a n, .memWriteRaw data a, .memReadU16 o a,
        .memReadU32 o a, .memReadU64 o a, .memReadF32 o a, .memReadF64 o a, .memWriteU16 o a v16, .memWriteU32 o a v32,
        .memWriteU64 o a v64, .memWriteF32 o a v32, .memWriteF64 o a v64],
      exec i s = .next t → t.reply.code = some 0 ∨ t.reply.code = some 1) ∧
    (∀ i ∈ [Instr.regSetInt j x, .regGetInt j, .regIncInt j x, .regDecInt j x, .regSetFloat j x, .regGetFloat j,
        .regIncFloat j x, .regDecFloat j x, .regCanWrite j, .pcIncrement x, .pcRead],
      exec i s = .next t → t.reply.code = some 0) ∧
    (exec (.schedSubmit a d x) s = .next t → s.cfg.fullPolicy = .reject →
      t.reply.code = some 0 ∨ t.reply.code = some 4) ∧
    (∀ i ∈ [Instr.cycleStep, .schedStep],
      exec i s = .next t → ∃ c, t.reply.code = some c ∧ c ≤ 3) ∧
    (exec (.runWord x) s = .next t → ∃ c, t.reply.code = some c ∧ c ≤ 2)

/-- R88, R63: a producer's transaction other than SCHED.SUBMIT is refused. -/
def Obligations.ProducersMayOnlySubmit : Prop :=
  ∀ (s : State) (op : Byte) (xs : List Operand) (rest : List Txn) (i : Instr),
    s.inbox = ⟨.producer, op, xs⟩ :: rest → decodeOp op xs = .ok i → op ≠ 0x50 →
    step s = .refused .producerOutsideChannel

/-- R88, R192: CYCLE.STEP and SCHED.STEP invoked inside a step are refused, wherever RUN, CB or a body invokes them; and a
refusal inside a step, by whichever of the three scripts and after whatever calls, is the whole step's (log 15). -/
def Obligations.StepsInsideStepsAreRefused : Prop :=
  (∀ s : State, innerOp .cycleStep s = .refused .stepInsideStep ∧ innerOp .schedStep s = .refused .stepInsideStep) ∧
  (∀ op ∈ ([0x40, 0x51] : List Byte), ∀ (k : Script) (args : List Word) (answers : List Reply) (s : State),
    runScript (.call ⟨op, []⟩ k) args answers s = .refused .stepInsideStep) ∧
  ∀ (s : State) (r : Refusal), StopsWithItsScripts s (.refused r)

/-- The steps complete: where RUN, CB and the bodies return and make admitted calls alone, CYCLE.STEP, SCHED.STEP and
an instruction word answer a next state from every state, with a status and with their entry in the
history; CYCLE.STEP's is the word at the PC when the fetch is in bounds (R182), and a successful SCHED.STEP's reply is
OK (R209). -/
def Obligations.AdmittedStepsComplete : Prop :=
  ∀ s : State, stepperAdmitted s.cfg = true →
    (∃ t, exec .cycleStep s = .next t ∧ (t.reply = .ok ∨ t.reply.isErr = true) ∧
      (s.pc.toNat + s.cfg.width ≤ s.cfg.memSize → t.events = s.events ++ [.ran (fetchedWord s)])) ∧
    (∃ t, exec .schedStep s = .next t ∧ (t.reply = .ok ∨ t.reply.isErr = true)) ∧
    (∀ word : Word, word.toNat < 2 ^ (8 * s.cfg.width) → ∃ t, exec (.runWord word) s = .next t ∧
      (t.reply = .ok ∨ t.reply.isErr = true) ∧ t.events = s.events ++ [.ran word])

/-- D38 of the whole machine: from every state with no transaction waiting and an admitted stepper, the machine runs for
any number of steps without a fault or a refusal. -/
def Obligations.AdmittedMachineRunsForever : Prop :=
  ∀ s : State, stepperAdmitted s.cfg = true → s.inbox = [] → SafeRun s

/-- R282: a script that hangs, at once or after any calls and branches, never returns, and a RUN, a CB or a body that never
returns is a hang of the step, never a step that completes. -/
def Obligations.HangingStepperNeverCompletes : Prop :=
  (∀ (args : List Word) (answers : List Reply) (s : State), runScript .hang args answers s = .fault .stepperHung) ∧
  ∀ s : State, StopsWithItsScripts s (.fault .stepperHung)

/-- R53, R54, R88, R243. Through the core a typed access passes BO and is refused with the other order: inside a step
always, and for the host when it reaches memory through the core; at the Memory level the host's access takes either
order. That exec is the operation at the Memory level, that a host's transaction names its level, and that every call
inside a step goes through the core, is the model's reading (log 19). Every other memory, register or PC operation
inside a step is the operation itself. A script's call performs its operation, and the script goes on from the state
that the operation left, with its status; a refusal of the record or of the operation is the script's (log 15). -/
def Obligations.CoreAccessesPassByteOrder : Prop :=
  (∀ (s : State) (o : ByteOrder) (a : Word) (v16 : BitVec 16) (v32 : BitVec 32) (v64 : BitVec 64),
    ∀ i ∈ [Instr.memReadU16 o a, .memReadU32 o a, .memReadU64 o a, .memReadF32 o a, .memReadF64 o a,
        .memWriteU16 o a v16, .memWriteU32 o a v32, .memWriteU64 o a v64, .memWriteF32 o a v32, .memWriteF64 o a v64],
      (o = s.cfg.order → innerOp i s = exec i s) ∧
      (o ≠ s.cfg.order → innerOp i s = .refused .orderNotOfCore) ∧
      (∃ t, exec i s = .next t) ∧
      ∀ (op : Byte) (xs : List Operand) (rest : List Txn), decodeOp op xs = .ok i →
        (s.inbox = ⟨.host .memory, op, xs⟩ :: rest → step s = exec i { s with inbox := rest }) ∧
        (s.inbox = ⟨.host .core, op, xs⟩ :: rest →
          (o = s.cfg.order → step s = exec i { s with inbox := rest }) ∧
          (o ≠ s.cfg.order → step s = .refused .orderNotOfCore))) ∧
  (∀ (s : State) (a n v : Word) (b : Byte) (data : List Byte) (j : Nat),
    ∀ i ∈ [Instr.memReadByte a, .memWriteByte b a, .memReadRaw a n, .memWriteRaw data a, .regSetInt j v, .regGetInt j,
        .regIncInt j v, .regDecInt j v, .regSetFloat j v, .regGetFloat j, .regIncFloat j v, .regDecFloat j v,
        .regCanWrite j, .pcIncrement v, .pcRead],
      innerOp i s = exec i s) ∧
  (∀ (c : Call) (k : Script) (args : List Word) (answers : List Reply) (s : State),
    let record := decodeOp c.op (c.args.map (evalArg args answers))
    (∀ e, record = .error e → runScript (.call c k) args answers s = .refused (refusalOf e)) ∧
    (∀ i t, record = .ok i → innerOp i s = .next t →
      runScript (.call c k) args answers s = runScript k args (t.reply :: answers) t) ∧
    (∀ i r, record = .ok i → innerOp i s = .refused r → runScript (.call c k) args answers s = .refused r)) ∧
  (∀ (args : List Word) (answers : List Reply) (r : Reply) (code w : Nat) (v : Word) (bs : List Byte) (f : Bool) (j : Nat),
    (r.code = some code → evalExpr args (r :: answers) (.code 0) = BitVec.ofNat 64 code) ∧
    evalExpr args (.okVal (.bits w v) :: answers) (.val 0) = v ∧
    evalExpr args (.okVal (.view bs f) :: answers) (.byteAt 0 j) = (bs.getD j 0).setWidth 64)

/-! ### Reset, the invariant, and the step (70_reset_and_hazards.md) -/

/-- R40, R270, R271: construction of a well-formed configuration gives its initial contents, empty lists and its initial
PC; the first cycle fetches there; any other configuration is refused. -/
def Obligations.ConstructionGivesInitialContents : Prop :=
  ∀ c : Cfg,
    (c.WellFormed → ∃ s, construct c = .next s ∧ s.cfg = c ∧
      (∀ a, a < c.memSize → s.mem.read a = Memory.read c.memInit a) ∧
      (∀ i w x, c.regs[i]? = some ⟨.concrete, w, x⟩ → s.readReg i = x) ∧
      (∀ i w x, c.regs[i]? = some ⟨.zero, w, x⟩ → s.readReg i = 0) ∧
      (∀ r, c.regs[c.pcIndex]? = some r → s.pc = r.init) ∧
      s.chan = [] ∧ s.pend = []) ∧
    (¬ c.WellFormed → construct c = .refused .illFormedConfig)

/-- The invariant holds after construction, and of State.reset (R40). -/
def Obligations.ResetMeetsInvariant : Prop :=
  (∀ (c : Cfg) (s : State), construct c = .next s → Inv s) ∧ Inv State.reset

/-- R21, R22, R23, R25, R32, R33: from every state that meets the invariant, a step gives a state that meets it. -/
def Obligations.StepKeepsInvariant : Prop :=
  ∀ s t : State, Inv s → step s = .next t → Inv t

/-- R85, R88: the oldest transaction's operation is performed, where its agent may invoke it (a producer submits alone;
through the core the order is BO, R54), and its record taken out of the inbox; with none waiting the host invokes SCHED.STEP (the model's choice, log 7). -/
def Obligations.StepRunsDecodedOperation : Prop :=
  (∀ (s : State) (who : Agent) (op : Byte) (xs : List Operand) (rest : List Txn) (i : Instr),
    s.inbox = ⟨who, op, xs⟩ :: rest → decodeOp op xs = .ok i → (who = .producer → op = 0x50) →
    (who = .host .core → ∀ o, orderOf? i = some o → o = s.cfg.order) →
    step s = exec i { s with inbox := rest }) ∧
  (∀ s : State, s.inbox = [] → step s = exec .schedStep s)

/-- R82, R180: when the w bytes at the PC decode to an instruction word, CYCLE.STEP is that instruction on the state
whose PC has advanced by w. -/
def Obligations.CycleRunsDecodedWord : Prop :=
  ∀ (s : State) (i : Instr), Inv s → s.pc.toNat + s.cfg.width ≤ s.cfg.memSize →
    decodeWord s.cfg (s.mem.readBytes s.pc.toNat s.cfg.width) = .ok i →
    i.wellFormed s.cfg = true ∧ exec .cycleStep s = exec i (s.advancePc (BitVec.ofNat 64 s.cfg.width))
end

