-- ==== Sys2Proof/Laws/Bytes.lean ====
section
/-! SUPPORT. The laws of byte order (20_memory.md R52): pack and unpack are inverse, and both are the spec's formulas. -/

namespace Sys2Proof.Machine

@[simp] theorem length_unpackLE (n v : Nat) : (unpackLE n v).length = n := by
  induction n generalizing v with
  | zero => rfl
  | succ n ih => simp [unpackLE, ih]

@[simp] theorem length_unpack (o : ByteOrder) (n v : Nat) : (unpack o n v).length = n := by
  cases o <;> simp [unpack]

theorem packLE_unpackLE (n v : Nat) : packLE (unpackLE n v) = v % 2 ^ (8 * n) := by
  induction n generalizing v with
  | zero => simp [unpackLE, packLE, Nat.mod_one]
  | succ n ih =>
    have h : (2 : Nat) ^ (8 * (n + 1)) = 256 * 2 ^ (8 * n) := by
      rw [show 8 * (n + 1) = 8 + 8 * n by ring, pow_add]; norm_num
    rw [unpackLE, packLE, ih, h, Nat.mod_mul, BitVec.toNat_ofNat]

/-- `pack` after `unpack` gives the low `8n` bits back. -/
theorem pack_unpack (o : ByteOrder) (n v : Nat) : pack o (unpack o n v) = v % 2 ^ (8 * n) := by
  cases o <;> simp [pack, unpack, packLE_unpackLE]

theorem unpackLE_packLE (bs : List Byte) : unpackLE bs.length (packLE bs) = bs := by
  induction bs with
  | nil => rfl
  | cons b bs ih =>
    have hb : b.toNat < 256 := b.isLt
    rw [List.length_cons, unpackLE, packLE]
    congr 1
    · apply BitVec.eq_of_toNat_eq
      rw [BitVec.toNat_ofNat]; omega
    · rw [show (b.toNat + 256 * packLE bs) / 256 = packLE bs by omega, ih]

/-- `unpack` after `pack` gives the bytes back. -/
theorem unpack_pack (o : ByteOrder) (bs : List Byte) : unpack o bs.length (pack o bs) = bs := by
  cases o with
  | le => exact unpackLE_packLE bs
  | be =>
    have h := unpackLE_packLE bs.reverse
    rw [List.length_reverse] at h
    simp [pack, unpack, h]

theorem packLE_lt (bs : List Byte) : packLE bs < 2 ^ (8 * bs.length) := by
  induction bs with
  | nil => simp [packLE]
  | cons b bs ih =>
    have hb : b.toNat < 256 := b.isLt
    have h : (2 : Nat) ^ (8 * (bs.length + 1)) = 256 * 2 ^ (8 * bs.length) := by
      rw [show 8 * (bs.length + 1) = 8 + 8 * bs.length by ring, pow_add]; norm_num
    rw [packLE, List.length_cons, h]
    omega

/-- `n` bytes pack to an `8n`-bit value. -/
theorem pack_lt (o : ByteOrder) (bs : List Byte) : pack o bs < 2 ^ (8 * bs.length) := by
  cases o with
  | le => exact packLE_lt bs
  | be => simpa [pack] using packLE_lt bs.reverse

theorem getD_unpackLE (n v k : Nat) (d : Byte) (hk : k < n) :
    (unpackLE n v).getD k d = BitVec.ofNat 8 (v / 2 ^ (8 * k)) := by
  induction n generalizing v k with
  | zero => omega
  | succ n ih =>
    cases k with
    | zero => simp [unpackLE]
    | succ k =>
      have h : (2 : Nat) ^ (8 * (k + 1)) = 256 * 2 ^ (8 * k) := by
        rw [show 8 * (k + 1) = 8 + 8 * k by ring, pow_add]; norm_num
      have hi := ih (v / 256) k (by omega)
      rw [Nat.div_div_eq_div_mul, ← h] at hi
      simpa [unpackLE] using hi

/-- `unpack` is the spec's formula, byte by byte. -/
theorem getD_unpack (o : ByteOrder) (n v k : Nat) (d : Byte) (hk : k < n) :
    (unpack o n v).getD k d = byteOf o n v k := by
  cases o with
  | le => exact getD_unpackLE n v k d hk
  | be =>
    have h := getD_unpackLE n v (n - 1 - k) d (by omega)
    rw [List.getD_eq_getElem (hn := by simpa using (by omega : n - 1 - k < n))] at h
    rw [unpack, List.getD_eq_getElem (hn := by simpa using hk), List.getElem_reverse]
    simpa [byteOf] using h

theorem packLE_eq_sum (bs : List Byte) (d : Byte) :
    packLE bs = ∑ k ∈ Finset.range bs.length, (bs.getD k d).toNat * 2 ^ (8 * k) := by
  induction bs with
  | nil => rfl
  | cons b bs ih =>
    rw [List.length_cons, Finset.sum_range_succ', packLE, ih, Finset.mul_sum]
    simp only [List.getD_cons_succ, List.getD_cons_zero, Nat.mul_zero, pow_zero, Nat.mul_one]
    rw [Nat.add_comm]
    congr 1
    refine Finset.sum_congr rfl fun k _ => ?_
    rw [show 8 * (k + 1) = 8 + 8 * k by ring, pow_add]
    ring

/-- `pack` is the spec's formula. -/
theorem pack_eq_sum (o : ByteOrder) (bs : List Byte) (d : Byte) :
    pack o bs = byteSum o bs.length fun k => bs.getD k d := by
  cases o with
  | le => exact packLE_eq_sum bs d
  | be =>
    rw [pack, packLE_eq_sum _ d, List.length_reverse, byteSum, ← Finset.sum_range_reflect]
    refine Finset.sum_congr rfl fun k hk => ?_
    have hk : k < bs.length := Finset.mem_range.1 hk
    rw [List.getD_eq_getElem (hn := by simp; omega), List.getElem_reverse, List.getD_eq_getElem (hn := hk)]
    congr 3
    omega

/-- A pattern that fits is its own low bits. -/
theorem lowBits_of_fits {w : Nat} {v : Word} (h : fits w v) : lowBits w v = v := by
  rw [lowBits, Nat.mod_eq_of_lt h, BitVec.ofNat_toNat, BitVec.setWidth_eq]

/-- The low bits fit. -/
theorem fits_lowBits (w : Nat) (v : Word) : fits w (lowBits w v) := by
  have hp : 0 < 2 ^ w := Nat.two_pow_pos w
  have h1 := Nat.mod_lt v.toNat hp
  have h2 : v.toNat % 2 ^ w ≤ v.toNat := Nat.mod_le _ _
  have h3 := v.isLt
  rw [fits, lowBits, BitVec.toNat_ofNat, Nat.mod_eq_of_lt (by omega)]
  exact h1

end Sys2Proof.Machine
end

