-- ==== Sys2Proof/Laws/Memory.lean ====
section
/-! SUPPORT. The laws of memory: a read after a write, and that every write keeps the canonical form and the size. -/

namespace Sys2Proof.Machine

@[simp] theorem Memory.read_nil (a : Nat) : Memory.read [] a = memFill := rfl

theorem Memory.read_cons (k : Nat) (x : Byte) (m : Memory) (a : Nat) :
    Memory.read ((k, x) :: m) a = if k = a then x else m.read a := rfl

/-- An address below every listed one reads as the fill. -/
theorem Memory.read_below (m : Memory) (a : Nat) (h : ∀ c ∈ m, a < c.1) : m.read a = memFill := by
  induction m with
  | nil => rfl
  | cons c m ih =>
    obtain ⟨k, x⟩ := c
    have hk : a < k := h (k, x) (by simp)
    rw [Memory.read_cons, if_neg (by omega)]
    exact ih fun c hc => h c (by simp [hc])

/-- In a canonical list everything after a cell has a larger address. -/
theorem Memory.wf_cons {k : Nat} {x : Byte} {m : Memory} (h : Memory.wf ((k, x) :: m)) :
    (∀ c ∈ m, k < c.1) ∧ x ≠ memFill ∧ m.wf := by
  obtain ⟨hp, hf⟩ := h
  rw [List.pairwise_cons] at hp
  exact ⟨hp.1, hf (k, x) (by simp), hp.2, fun c hc => hf c (by simp [hc])⟩

/-- The cells after a write: old ones, or the written one. -/
theorem Memory.mem_write {m : Memory} {a : Nat} {v : Byte} {c : Host.Cell} (h : c ∈ m.write a v) :
    c ∈ m ∨ (c = (a, v) ∧ v ≠ memFill) := by
  induction m with
  | nil =>
    simp only [Memory.write] at h
    split at h
    · simp at h
    · next hv => exact .inr ⟨by simpa using h, hv⟩
  | cons d m ih =>
    obtain ⟨k, x⟩ := d
    simp only [Memory.write] at h
    split at h
    · split at h
      · exact .inl h
      · next hv =>
        rcases List.mem_cons.1 h with rfl | h
        · exact .inr ⟨rfl, hv⟩
        · exact .inl h
    · split at h
      · split at h
        · exact .inl (List.mem_cons_of_mem _ h)
        · next hv =>
          rcases List.mem_cons.1 h with rfl | h
          · exact .inr ⟨rfl, hv⟩
          · exact .inl (List.mem_cons_of_mem _ h)
      · rcases List.mem_cons.1 h with rfl | h
        · exact .inl (by simp)
        · rcases ih h with h | h
          · exact .inl (List.mem_cons_of_mem _ h)
          · exact .inr h

/-- A write keeps the canonical form. -/
theorem Memory.write_wf {m : Memory} (a : Nat) (v : Byte) (h : m.wf) : (m.write a v).wf := by
  induction m with
  | nil =>
    simp only [Memory.write]
    split <;> simp_all [Memory.wf]
  | cons d m ih =>
    obtain ⟨k, x⟩ := d
    obtain ⟨hk, hx, hm⟩ := Memory.wf_cons h
    have cons_wf : ∀ {b : Nat} {y : Byte} {l : Memory}, y ≠ memFill → (∀ c ∈ l, b < c.1) → l.wf →
        Memory.wf ((b, y) :: l) := fun hy hb hl =>
      ⟨List.pairwise_cons.2 ⟨hb, hl.1⟩, fun c hc => by
        rcases List.mem_cons.1 hc with rfl | hc
        · exact hy
        · exact hl.2 c hc⟩
    simp only [Memory.write]
    split
    · next hak =>
      split
      · exact h
      · next hv =>
        refine cons_wf hv (fun c hc => ?_) h
        rcases List.mem_cons.1 hc with rfl | hc
        · exact hak
        · exact lt_trans hak (hk c hc)
    · split
      · next hak =>
        split
        · exact hm
        · next hv => exact cons_wf hv (fun c hc => hak ▸ hk c hc) hm
      · next hlt hne =>
        refine cons_wf hx (fun c hc => ?_) (ih hm)
        rcases Memory.mem_write hc with hc | ⟨rfl, -⟩
        · exact hk c hc
        · show k < a
          omega

/-- A write inside the memory keeps its size. -/
theorem Memory.write_inside {m : Memory} {n a : Nat} (v : Byte) (h : m.inside n) (ha : a < n) :
    (m.write a v).inside n := fun c hc => by
  rcases Memory.mem_write hc with hc | ⟨rfl, -⟩
  · exact h c hc
  · exact ha

/-- A read after a write, in a canonical memory: the written byte there, the old byte everywhere else. -/
theorem Memory.read_write {m : Memory} (h : m.wf) (a : Nat) (v : Byte) (b : Nat) :
    (m.write a v).read b = if b = a then v else m.read b := by
  induction m with
  | nil =>
    simp only [Memory.write]
    split
    · next hv => split <;> simp [hv]
    · rw [Memory.read_cons]; simp [eq_comm]
  | cons d m ih =>
    obtain ⟨k, x⟩ := d
    obtain ⟨hk, -, hm⟩ := Memory.wf_cons h
    have fill : b ≤ k → Memory.read m b = memFill := fun hb =>
      Memory.read_below m b fun c hc => lt_of_le_of_lt hb (hk c hc)
    simp only [Memory.write]
    split
    · next hak =>
      split
      · next hv =>
        rw [Memory.read_cons]
        by_cases hb : b = a
        · rw [if_neg (by omega), fill (by omega), if_pos hb, hv]
        · rw [if_neg hb]
      · rw [Memory.read_cons, Memory.read_cons]
        by_cases hb : b = a
        · rw [if_pos hb.symm, if_pos hb]
        · rw [if_neg (Ne.symm hb), if_neg hb]
    · split
      · next hak =>
        subst hak
        split
        · next hv =>
          by_cases hb : b = a
          · rw [if_pos hb, fill (by omega), hv]
          · rw [if_neg hb, Memory.read_cons, if_neg (Ne.symm hb)]
        · rw [Memory.read_cons, Memory.read_cons]
          by_cases hb : b = a
          · rw [if_pos hb.symm, if_pos hb]
          · rw [if_neg (Ne.symm hb), if_neg hb, if_neg (Ne.symm hb)]
      · next hlt hne =>
        rw [Memory.read_cons, Memory.read_cons, ih hm]
        by_cases hb : k = b
        · rw [if_pos hb, if_neg (by omega), if_pos hb]
        · rw [if_neg hb, if_neg hb]

/-- Every byte-sequence write keeps the canonical form. -/
theorem Memory.writeBytes_wf {m : Memory} (a : Nat) (bs : List Byte) (h : m.wf) : (m.writeBytes a bs).wf := by
  induction bs generalizing m a with
  | nil => exact h
  | cons b bs ih => exact ih (a + 1) (Memory.write_wf a b h)

/-- A byte-sequence write inside the memory keeps its size. -/
theorem Memory.writeBytes_inside {m : Memory} {n a : Nat} (bs : List Byte) (h : m.inside n)
    (ha : a + bs.length ≤ n) : (m.writeBytes a bs).inside n := by
  induction bs generalizing m a with
  | nil => exact h
  | cons b bs ih =>
    simp only [List.length_cons] at ha
    exact ih (Memory.write_inside b h (by omega)) (by omega)

/-- A read after a byte-sequence write: byte `k` of the sequence at `a + k`, the old byte everywhere else. -/
theorem Memory.read_writeBytes {m : Memory} (h : m.wf) (a : Nat) (bs : List Byte) (b : Nat) :
    (m.writeBytes a bs).read b =
      if a ≤ b ∧ b < a + bs.length then bs.getD (b - a) memFill else m.read b := by
  induction bs generalizing m a with
  | nil => rw [if_neg (by simp)]; rfl
  | cons x bs ih =>
    rw [Memory.writeBytes, ih (Memory.write_wf a x h) (a + 1), Memory.read_write h]
    simp only [List.length_cons]
    by_cases hb : b = a
    · subst hb
      rw [if_neg (by omega), if_pos rfl, if_pos (by omega)]
      simp
    · by_cases hin : a + 1 ≤ b ∧ b < a + 1 + bs.length
      · rw [if_pos hin, if_pos (by omega)]
        obtain ⟨j, rfl⟩ : ∃ j, b = a + 1 + j := ⟨b - (a + 1), by omega⟩
        rw [show a + 1 + j - (a + 1) = j by omega, show a + 1 + j - a = j + 1 by omega]
        rfl
      · rw [if_neg hin, if_neg hb, if_neg (by omega)]

@[simp] theorem Memory.length_readBytes (m : Memory) (a n : Nat) : (m.readBytes a n).length = n := by
  induction n generalizing a with
  | zero => rfl
  | succ n ih => simp [Memory.readBytes, ih]

/-- Byte `k` of a byte-sequence read is the byte at `a + k`. -/
theorem Memory.getD_readBytes (m : Memory) (a n k : Nat) (d : Byte) (hk : k < n) :
    (m.readBytes a n).getD k d = m.read (a + k) := by
  induction n generalizing a k with
  | zero => omega
  | succ n ih =>
    cases k with
    | zero => rfl
    | succ k =>
      have h := ih (a + 1) k (by omega)
      rw [Nat.add_right_comm] at h
      simpa [Memory.readBytes, Nat.add_assoc] using h

/-- Reading back what a byte-sequence write put there. -/
theorem Memory.readBytes_writeBytes {m : Memory} (h : m.wf) (a : Nat) (bs : List Byte) :
    (m.writeBytes a bs).readBytes a bs.length = bs := by
  refine List.ext_getElem (by simp) fun k h1 h2 => ?_
  have hk : k < bs.length := h2
  rw [← List.getD_eq_getElem (d := memFill), Memory.getD_readBytes _ _ _ _ _ hk, Memory.read_writeBytes h,
    if_pos (by omega), Nat.add_sub_cancel_left, List.getD_eq_getElem (hn := hk)]

/-- Canonical memories that read alike are equal data. -/
theorem Memory.eq_of_read_eq {m n : Memory} (hm : m.wf) (hn : n.wf) (h : ∀ a, m.read a = n.read a) : m = n := by
  induction m generalizing n with
  | nil =>
    cases n with
    | nil => rfl
    | cons d n =>
      obtain ⟨j, y⟩ := d
      have hj := h j
      rw [Memory.read_nil, Memory.read_cons, if_pos rfl] at hj
      exact absurd hj.symm (Memory.wf_cons hn).2.1
  | cons c m ih =>
    obtain ⟨k, x⟩ := c
    obtain ⟨hk, hx, hm'⟩ := Memory.wf_cons hm
    cases n with
    | nil =>
      have hk' := h k
      rw [Memory.read_nil, Memory.read_cons, if_pos rfl] at hk'
      exact absurd hk' hx
    | cons d n =>
      obtain ⟨j, y⟩ := d
      obtain ⟨hj, hy, hn'⟩ := Memory.wf_cons hn
      have below : ∀ {l : Memory} {a b : Nat}, (∀ c ∈ l, a < c.1) → b ≤ a → l.read b = memFill :=
        fun hl hb => Memory.read_below _ _ fun c hc => lt_of_le_of_lt hb (hl c hc)
      have hkj : k = j := by
        rcases lt_trichotomy k j with hlt | rfl | hlt
        · have hr := h k
          rw [Memory.read_cons, if_pos rfl, Memory.read_cons, if_neg (by omega), below hj (by omega)] at hr
          exact absurd hr hx
        · rfl
        · have hr := h j
          rw [Memory.read_cons, if_neg (by omega), below hk (by omega), Memory.read_cons, if_pos rfl] at hr
          exact absurd hr.symm hy
      subst hkj
      have hxy : x = y := by simpa [Memory.read_cons] using h k
      subst hxy
      refine congrArg _ (ih hm' hn' fun a => ?_)
      by_cases ha : k = a
      · rw [below hk (by omega), below hj (by omega)]
      · simpa [Memory.read_cons, ha] using h a

end Sys2Proof.Machine
end

