-- ==== Sys2Proof/Laws/State.lean ====
section
/-! SUPPORT. One lemma per field per update of State, true by rfl, so that no later proof unfolds a record update. -/

namespace Sys2Proof.Machine

@[simp] theorem State.answer_cfg (s : State) (r : Reply) : (s.answer r).cfg = s.cfg := rfl
@[simp] theorem State.answer_mem (s : State) (r : Reply) : (s.answer r).mem = s.mem := rfl
@[simp] theorem State.answer_regs (s : State) (r : Reply) : (s.answer r).regs = s.regs := rfl
@[simp] theorem State.answer_chan (s : State) (r : Reply) : (s.answer r).chan = s.chan := rfl
@[simp] theorem State.answer_pend (s : State) (r : Reply) : (s.answer r).pend = s.pend := rfl
@[simp] theorem State.answer_held (s : State) (r : Reply) : (s.answer r).held = s.held := rfl
@[simp] theorem State.answer_answered (s : State) (r : Reply) : (s.answer r).answered = s.answered := rfl
@[simp] theorem State.answer_reply (s : State) (r : Reply) : (s.answer r).reply = r := rfl
@[simp] theorem State.answer_inbox (s : State) (r : Reply) : (s.answer r).inbox = s.inbox := rfl
@[simp] theorem State.answer_events (s : State) (r : Reply) : (s.answer r).events = s.events := rfl

@[simp] theorem State.setMem_cfg (s : State) (m : Memory) : (s.setMem m).cfg = s.cfg := rfl
@[simp] theorem State.setMem_mem (s : State) (m : Memory) : (s.setMem m).mem = m := rfl
@[simp] theorem State.setMem_regs (s : State) (m : Memory) : (s.setMem m).regs = s.regs := rfl
@[simp] theorem State.setMem_chan (s : State) (m : Memory) : (s.setMem m).chan = s.chan := rfl
@[simp] theorem State.setMem_pend (s : State) (m : Memory) : (s.setMem m).pend = s.pend := rfl
@[simp] theorem State.setMem_held (s : State) (m : Memory) : (s.setMem m).held = s.held := rfl
@[simp] theorem State.setMem_answered (s : State) (m : Memory) : (s.setMem m).answered = s.answered := rfl
@[simp] theorem State.setMem_reply (s : State) (m : Memory) : (s.setMem m).reply = s.reply := rfl
@[simp] theorem State.setMem_inbox (s : State) (m : Memory) : (s.setMem m).inbox = s.inbox := rfl
@[simp] theorem State.setMem_events (s : State) (m : Memory) : (s.setMem m).events = s.events := rfl

@[simp] theorem State.setSlot_cfg (s : State) (i : Nat) (v : Word) : (s.setSlot i v).cfg = s.cfg := rfl
@[simp] theorem State.setSlot_mem (s : State) (i : Nat) (v : Word) : (s.setSlot i v).mem = s.mem := rfl
@[simp] theorem State.setSlot_regs (s : State) (i : Nat) (v : Word) : (s.setSlot i v).regs = s.regs.set i v := rfl
@[simp] theorem State.setSlot_chan (s : State) (i : Nat) (v : Word) : (s.setSlot i v).chan = s.chan := rfl
@[simp] theorem State.setSlot_pend (s : State) (i : Nat) (v : Word) : (s.setSlot i v).pend = s.pend := rfl
@[simp] theorem State.setSlot_held (s : State) (i : Nat) (v : Word) : (s.setSlot i v).held = s.held := rfl
@[simp] theorem State.setSlot_answered (s : State) (i : Nat) (v : Word) : (s.setSlot i v).answered = s.answered := rfl
@[simp] theorem State.setSlot_reply (s : State) (i : Nat) (v : Word) : (s.setSlot i v).reply = s.reply := rfl
@[simp] theorem State.setSlot_inbox (s : State) (i : Nat) (v : Word) : (s.setSlot i v).inbox = s.inbox := rfl
@[simp] theorem State.setSlot_events (s : State) (i : Nat) (v : Word) : (s.setSlot i v).events = s.events := rfl

@[simp] theorem State.log_cfg (s : State) (e : Event) : (s.log e).cfg = s.cfg := rfl
@[simp] theorem State.log_mem (s : State) (e : Event) : (s.log e).mem = s.mem := rfl
@[simp] theorem State.log_regs (s : State) (e : Event) : (s.log e).regs = s.regs := rfl
@[simp] theorem State.log_chan (s : State) (e : Event) : (s.log e).chan = s.chan := rfl
@[simp] theorem State.log_pend (s : State) (e : Event) : (s.log e).pend = s.pend := rfl
@[simp] theorem State.log_held (s : State) (e : Event) : (s.log e).held = s.held := rfl
@[simp] theorem State.log_answered (s : State) (e : Event) : (s.log e).answered = s.answered := rfl
@[simp] theorem State.log_reply (s : State) (e : Event) : (s.log e).reply = s.reply := rfl
@[simp] theorem State.log_inbox (s : State) (e : Event) : (s.log e).inbox = s.inbox := rfl
@[simp] theorem State.log_events (s : State) (e : Event) : (s.log e).events = s.events ++ [e] := rfl

@[simp] theorem State.enqueue_cfg (s : State) (x : Action) : (s.enqueue x).cfg = s.cfg := rfl
@[simp] theorem State.enqueue_mem (s : State) (x : Action) : (s.enqueue x).mem = s.mem := rfl
@[simp] theorem State.enqueue_regs (s : State) (x : Action) : (s.enqueue x).regs = s.regs := rfl
@[simp] theorem State.enqueue_chan (s : State) (x : Action) : (s.enqueue x).chan = s.chan ++ [x] := rfl
@[simp] theorem State.enqueue_pend (s : State) (x : Action) : (s.enqueue x).pend = s.pend := rfl
@[simp] theorem State.enqueue_held (s : State) (x : Action) : (s.enqueue x).held = s.held := rfl
@[simp] theorem State.enqueue_answered (s : State) (x : Action) : (s.enqueue x).answered = s.answered := rfl
@[simp] theorem State.enqueue_reply (s : State) (x : Action) : (s.enqueue x).reply = s.reply := rfl
@[simp] theorem State.enqueue_inbox (s : State) (x : Action) : (s.enqueue x).inbox = s.inbox := rfl
@[simp] theorem State.enqueue_events (s : State) (x : Action) : (s.enqueue x).events = s.events := rfl

@[simp] theorem State.setQueues_cfg (s : State) (c p h : List Action) : (s.setQueues c p h).cfg = s.cfg := rfl
@[simp] theorem State.setQueues_mem (s : State) (c p h : List Action) : (s.setQueues c p h).mem = s.mem := rfl
@[simp] theorem State.setQueues_regs (s : State) (c p h : List Action) : (s.setQueues c p h).regs = s.regs := rfl
@[simp] theorem State.setQueues_chan (s : State) (c p h : List Action) : (s.setQueues c p h).chan = c := rfl
@[simp] theorem State.setQueues_pend (s : State) (c p h : List Action) : (s.setQueues c p h).pend = p := rfl
@[simp] theorem State.setQueues_held (s : State) (c p h : List Action) : (s.setQueues c p h).held = h := rfl
@[simp] theorem State.setQueues_answered (s : State) (c p h : List Action) : (s.setQueues c p h).answered = s.answered := rfl
@[simp] theorem State.setQueues_reply (s : State) (c p h : List Action) : (s.setQueues c p h).reply = s.reply := rfl
@[simp] theorem State.setQueues_inbox (s : State) (c p h : List Action) : (s.setQueues c p h).inbox = s.inbox := rfl
@[simp] theorem State.setQueues_events (s : State) (c p h : List Action) : (s.setQueues c p h).events = s.events := rfl

@[simp] theorem State.setInbox_cfg (s : State) (ts : List Txn) : (s.setInbox ts).cfg = s.cfg := rfl
@[simp] theorem State.setInbox_mem (s : State) (ts : List Txn) : (s.setInbox ts).mem = s.mem := rfl
@[simp] theorem State.setInbox_regs (s : State) (ts : List Txn) : (s.setInbox ts).regs = s.regs := rfl
@[simp] theorem State.setInbox_chan (s : State) (ts : List Txn) : (s.setInbox ts).chan = s.chan := rfl
@[simp] theorem State.setInbox_pend (s : State) (ts : List Txn) : (s.setInbox ts).pend = s.pend := rfl
@[simp] theorem State.setInbox_held (s : State) (ts : List Txn) : (s.setInbox ts).held = s.held := rfl
@[simp] theorem State.setInbox_answered (s : State) (ts : List Txn) : (s.setInbox ts).answered = s.answered := rfl
@[simp] theorem State.setInbox_reply (s : State) (ts : List Txn) : (s.setInbox ts).reply = s.reply := rfl
@[simp] theorem State.setInbox_inbox (s : State) (ts : List Txn) : (s.setInbox ts).inbox = ts := rfl
@[simp] theorem State.setInbox_events (s : State) (ts : List Txn) : (s.setInbox ts).events = s.events := rfl

@[simp] theorem State.release_cfg (s : State) : s.release.cfg = s.cfg := rfl
@[simp] theorem State.release_mem (s : State) : s.release.mem = s.mem := rfl
@[simp] theorem State.release_regs (s : State) : s.release.regs = s.regs := rfl
@[simp] theorem State.release_chan (s : State) : s.release.chan = s.chan ++ s.held.take s.room := rfl
@[simp] theorem State.release_pend (s : State) : s.release.pend = s.pend := rfl
@[simp] theorem State.release_held (s : State) : s.release.held = s.held.drop s.room := rfl
@[simp] theorem State.release_answered (s : State) :
    s.release.answered = s.answered ++ (s.held.take s.room).map fun x => ⟨x, .ok⟩ := rfl
@[simp] theorem State.release_reply (s : State) : s.release.reply = s.reply := rfl
@[simp] theorem State.release_inbox (s : State) : s.release.inbox = s.inbox := rfl
@[simp] theorem State.release_events (s : State) : s.release.events = s.events := rfl

@[simp] theorem raise_cfg (av : AccessViolation) (s : State) : (raise av s).cfg = s.cfg := rfl
@[simp] theorem raise_mem (av : AccessViolation) (s : State) : (raise av s).mem = s.mem := rfl
@[simp] theorem raise_regs (av : AccessViolation) (s : State) : (raise av s).regs = s.regs := rfl
@[simp] theorem raise_chan (av : AccessViolation) (s : State) : (raise av s).chan = s.chan := rfl
@[simp] theorem raise_pend (av : AccessViolation) (s : State) : (raise av s).pend = s.pend := rfl
@[simp] theorem raise_held (av : AccessViolation) (s : State) : (raise av s).held = s.held := rfl
@[simp] theorem raise_answered (av : AccessViolation) (s : State) : (raise av s).answered = s.answered := rfl
@[simp] theorem raise_reply (av : AccessViolation) (s : State) : (raise av s).reply = .err (.av av) := rfl
@[simp] theorem raise_inbox (av : AccessViolation) (s : State) : (raise av s).inbox = s.inbox := rfl
@[simp] theorem raise_events (av : AccessViolation) (s : State) : (raise av s).events = s.events := rfl

end Sys2Proof.Machine
end

