-- ==== Sys2Proof/Laws/Ops.lean ====
section
/-! SUPPORT. One law per shared operation: the bounds rule, raw and typed accesses, register writes, and what any one
operation that is not a step can do. -/

namespace Sys2Proof.Machine

@[simp] theorem Result.andThen_next {α β : Type} (a : α) (f : α → Result β) :
    Result.andThen (.next a) f = f a := rfl

/-- A result that goes on came from a next state. -/
theorem Result.andThen_eq_next {α β : Type} {r : Result α} {f : α → Result β} {b : β}
    (h : r.andThen f = .next b) : ∃ a, r = .next a ∧ f a = .next b := by
  cases r with
  | next a => exact ⟨a, rfl, h⟩
  | fault e => cases h
  | refused e => cases h

/-! ### Memory accesses -/

theorem accessFault_inBounds {s : State} {start : Word} {n : Nat} (r : Bool)
    (h : start.toNat + n ≤ s.cfg.memSize) : accessFault s start n r = none := if_pos h

theorem accessFault_outOfBounds {s : State} {start : Word} {n : Nat} (r : Bool)
    (h : s.cfg.memSize < start.toNat + n) :
    accessFault s start n r = some ⟨start, BitVec.ofNat 64 n, r⟩ := if_neg (by omega)

theorem readRaw_inBounds {s : State} {start : Word} {n : Nat} (h : start.toNat + n ≤ s.cfg.memSize) :
    readRaw s start n = .ok (s.mem.readBytes start.toNat n) := by
  rw [readRaw, accessFault_inBounds true h]

theorem readRaw_outOfBounds {s : State} {start : Word} {n : Nat} (h : s.cfg.memSize < start.toNat + n) :
    readRaw s start n = .error ⟨start, BitVec.ofNat 64 n, true⟩ := by
  rw [readRaw, accessFault_outOfBounds true h]

theorem readTyped_inBounds {s : State} {start : Word} {n : Nat} (o : ByteOrder)
    (h : start.toNat + n ≤ s.cfg.memSize) :
    readTyped o n start s = .ok (BitVec.ofNat 64 (pack o (s.mem.readBytes start.toNat n))) := by
  rw [readTyped, readRaw_inBounds h]

theorem readTyped_outOfBounds {s : State} {start : Word} {n : Nat} (o : ByteOrder)
    (h : s.cfg.memSize < start.toNat + n) :
    readTyped o n start s = .error ⟨start, BitVec.ofNat 64 n, true⟩ := by
  rw [readTyped, readRaw_outOfBounds h]

theorem loadTyped_inBounds {s : State} {start : Word} {n : Nat} (o : ByteOrder)
    (h : start.toNat + n ≤ s.cfg.memSize) :
    loadTyped o n start s =
      .next (s.answer (.okVal (.bits (8 * n) (BitVec.ofNat 64 (pack o (s.mem.readBytes start.toNat n)))))) := by
  rw [loadTyped, readTyped_inBounds o h]

theorem loadTyped_outOfBounds {s : State} {start : Word} {n : Nat} (o : ByteOrder)
    (h : s.cfg.memSize < start.toNat + n) :
    loadTyped o n start s = .next (s.answer (.err (.av ⟨start, BitVec.ofNat 64 n, true⟩))) := by
  rw [loadTyped, readTyped_outOfBounds o h]; rfl

theorem storeRaw_inBounds {s : State} {start : Word} {data : List Byte}
    (h : start.toNat + data.length ≤ s.cfg.memSize) :
    storeRaw start data s = .next ((s.setMem (s.mem.writeBytes start.toNat data)).answer .ok) := by
  rw [storeRaw, writeRaw, accessFault_inBounds false h]

theorem storeRaw_outOfBounds {s : State} {start : Word} {data : List Byte}
    (h : s.cfg.memSize < start.toNat + data.length) :
    storeRaw start data s = .next (s.answer (.err (.av ⟨start, BitVec.ofNat 64 data.length, false⟩))) := by
  rw [storeRaw, writeRaw, accessFault_outOfBounds false h]; rfl

/-- Everything a raw write in bounds does: the bytes in order, no other byte, no other field. -/
theorem storeRaw_effect {s : State} {start : Word} {data : List Byte} (hw : s.mem.wf)
    (h : start.toNat + data.length ≤ s.cfg.memSize) :
    ∃ t, storeRaw start data s = .next t ∧ t = { s with mem := t.mem, reply := .ok } ∧ t.mem.wf ∧
      (∀ k, k < data.length → t.mem.read (start.toNat + k) = data.getD k memFill) ∧
      ∀ b, b < start.toNat ∨ start.toNat + data.length ≤ b → t.mem.read b = s.mem.read b := by
  refine ⟨_, storeRaw_inBounds h, rfl, Memory.writeBytes_wf _ _ hw, fun k hk => ?_, fun b hb => ?_⟩
  · simp only [State.answer_mem, State.setMem_mem]
    rw [Memory.read_writeBytes hw, if_pos (by omega), Nat.add_sub_cancel_left]
  · simp only [State.answer_mem, State.setMem_mem]
    rw [Memory.read_writeBytes hw, if_neg (by omega)]

/-- Everything a typed write in bounds does, byte by byte (R52, R107). -/
theorem storeTyped_effect {s : State} {start : Word} (o : ByteOrder) (n v : Nat) (hw : s.mem.wf)
    (h : start.toNat + n ≤ s.cfg.memSize) :
    ∃ t, storeTyped o n start v s = .next t ∧ t = { s with mem := t.mem, reply := .ok } ∧ t.mem.wf ∧
      (∀ k, k < n → t.mem.read (start.toNat + k) = byteOf o n v k) ∧
      ∀ b, b < start.toNat ∨ start.toNat + n ≤ b → t.mem.read b = s.mem.read b := by
  have hl : (unpack o n v).length = n := length_unpack o n v
  obtain ⟨t, h1, h2, h3, h4, h5⟩ := storeRaw_effect (data := unpack o n v) hw (by rw [hl]; exact h)
  rw [hl] at h4 h5
  exact ⟨t, h1, h2, h3, fun k hk => (h4 k hk).trans (getD_unpack o n v k _ hk), h5⟩

/-- A typed read after a typed write of the same width, order and place answers the value (R120). -/
theorem loadTyped_storeTyped {s : State} {start : Word} (o : ByteOrder) (n v : Nat) (hw : s.mem.wf)
    (h : start.toNat + n ≤ s.cfg.memSize) :
    ∃ t, storeTyped o n start v s = .next t ∧ t.reply = .ok ∧
      loadTyped o n start t = .next (t.answer (.okVal (.bits (8 * n) (BitVec.ofNat 64 (v % 2 ^ (8 * n)))))) := by
  have hl : (unpack o n v).length = n := length_unpack o n v
  refine ⟨_, storeRaw_inBounds (by rw [hl]; exact h), rfl, ?_⟩
  rw [loadTyped_inBounds o (by simpa using h)]
  have hb := Memory.readBytes_writeBytes hw start.toNat (unpack o n v)
  rw [hl] at hb
  simp only [State.answer_mem, State.setMem_mem]
  rw [hb, pack_unpack]

/-! ### Registers -/

theorem readReg_concrete {s : State} {i : Nat} {w : Nat} {x : Word} (h : s.cfg.regs[i]? = some ⟨.concrete, w, x⟩) :
    s.readReg i = s.regs.getD i 0#64 := by
  rw [State.readReg, h]

theorem readReg_zero {s : State} {i : Nat} {w : Nat} {x : Word} (h : s.cfg.regs[i]? = some ⟨.zero, w, x⟩) :
    s.readReg i = 0#64 := by
  rw [State.readReg, h]

theorem writeReg_concrete {s : State} {i : Nat} {w : Nat} {x : Word} (v : Word)
    (h : s.cfg.regs[i]? = some ⟨.concrete, w, x⟩) : s.writeReg i v = s.setSlot i (lowBits w v) := by
  rw [State.writeReg, h]

theorem writeReg_zero {s : State} {i : Nat} {w : Nat} {x : Word} (v : Word)
    (h : s.cfg.regs[i]? = some ⟨.zero, w, x⟩) : s.writeReg i v = s := by
  rw [State.writeReg, h]

/-- A register write sets one slot of a Concrete register to a pattern that fits, or changes nothing. -/
theorem writeReg_cases (s : State) (i : Nat) (v : Word) :
    s.writeReg i v = s ∨
      ∃ w x, s.cfg.regs[i]? = some ⟨.concrete, w, x⟩ ∧ s.writeReg i v = s.setSlot i (lowBits w v) := by
  rcases h : s.cfg.regs[i]? with _ | ⟨k, w, x⟩
  · exact .inl (by rw [State.writeReg, h])
  · cases k with
    | concrete => exact .inr ⟨w, x, rfl, writeReg_concrete v h⟩
    | zero => exact .inl (writeReg_zero v h)

theorem withRegister_some {i : Nat} {s : State} {k : RegSpec → Result State} {r : RegSpec}
    (h : s.cfg.regs[i]? = some r) : withRegister i s k = k r := by
  rw [withRegister, h]

theorem withRegister_none {i : Nat} {s : State} {k : RegSpec → Result State} (h : s.cfg.regs[i]? = none) :
    withRegister i s k = .refused (.registerOutsideBank i) := by
  rw [withRegister, h]

theorem withRegisterValue_some {i : Nat} {v : Word} {s : State} {k : RegSpec → Result State} {r : RegSpec}
    (h : s.cfg.regs[i]? = some r) (hv : fits r.width v) : withRegisterValue i v s k = k r := by
  rw [withRegisterValue, withRegister_some h, if_pos hv]

theorem withRegisterValue_wide {i : Nat} {v : Word} {s : State} {k : RegSpec → Result State} {r : RegSpec}
    (h : s.cfg.regs[i]? = some r) (hv : ¬ fits r.width v) :
    withRegisterValue i v s k = .refused (.operandTooWide r.width) := by
  rw [withRegisterValue, withRegister_some h, if_neg hv]

/-- A register operation that goes on found its register. -/
theorem withRegister_eq_next {i : Nat} {s t : State} {k : RegSpec → Result State}
    (h : withRegister i s k = .next t) : ∃ r, s.cfg.regs[i]? = some r ∧ k r = .next t := by
  rcases hr : s.cfg.regs[i]? with _ | r
  · rw [withRegister_none hr] at h; cases h
  · rw [withRegister_some hr] at h; exact ⟨r, rfl, h⟩

/-- A register operation that goes on found its register, and its operand fits. -/
theorem withRegisterValue_eq_next {i : Nat} {v : Word} {s t : State} {k : RegSpec → Result State}
    (h : withRegisterValue i v s k = .next t) :
    ∃ r, s.cfg.regs[i]? = some r ∧ fits r.width v ∧ k r = .next t := by
  obtain ⟨r, hr, h⟩ := withRegister_eq_next h
  split at h
  · next hv => exact ⟨r, hr, hv, h⟩
  · cases h

/-- What the invariant says of the PC: a Concrete register of the bank, of an admitted width, whose value fits. -/
theorem Inv.pc_register {s : State} (h : Inv s) :
    ∃ w x, s.cfg.regs[s.cfg.pcIndex]? = some ⟨.concrete, w, x⟩ ∧ pcWidth s.cfg = w ∧ w ∈ [8, 16, 32, 64] ∧
      s.cfg.pcIndex < s.regs.length ∧ s.pc = s.regs.getD s.cfg.pcIndex 0#64 ∧ fits w s.pc := by
  obtain ⟨-, -, -, hr, hp, -⟩ := h.config
  obtain ⟨⟨k, w, x⟩, hs, hk⟩ := Option.map_eq_some_iff.1 hp
  obtain rfl : k = .concrete := hk
  have hlt : s.cfg.pcIndex < s.cfg.regs.length := (List.getElem?_eq_some_iff.1 hs).1
  have hpc : s.pc = s.regs.getD s.cfg.pcIndex 0#64 := readReg_concrete hs
  refine ⟨w, x, hs, by simp [pcWidth, hs], (hr _ (List.mem_of_getElem? hs)).1, by rw [h.bankSize]; exact hlt, hpc, ?_⟩
  rw [hpc]
  simpa [slotOk] using h.slots _ _ hs

/-- Low bits of a sum, as a number. -/
theorem lowBits_add {w : Nat} (hw : w ≤ 64) (a b : Word) :
    lowBits w (a + b) = BitVec.ofNat 64 ((a.toNat + b.toNat) % 2 ^ w) := by
  have hd : (2 : Nat) ^ w ∣ 2 ^ 64 := pow_dvd_pow 2 hw
  rw [lowBits, BitVec.toNat_add, Nat.mod_mod_of_dvd _ hd]

/-- Low bits of a difference, as an integer. -/
theorem lowBits_sub {w : Nat} (hw : w ≤ 64) (a b : Word) :
    lowBits w (a - b) = BitVec.ofInt 64 (((a.toNat : Int) - b.toNat) % 2 ^ w) := by
  have hd : (2 : Nat) ^ w ∣ 2 ^ 64 := pow_dvd_pow 2 hw
  have hb := b.isLt
  have hk : ((2 ^ 64 - b.toNat + a.toNat : Nat) : Int) = (a.toNat : Int) - b.toNat + 2 ^ 64 := by push_cast [hb.le]; ring
  have hi : (((2 ^ 64 - b.toNat + a.toNat) % 2 ^ w : Nat) : Int) = ((a.toNat : Int) - b.toNat) % 2 ^ w := by
    obtain ⟨c, hc⟩ := hd
    rw [Int.natCast_mod, hk]
    push_cast
    have : (18446744073709551616 : Int) = 2 ^ w * (c : Int) := by
      have := congrArg (fun n : Nat => (n : Int)) hc
      push_cast at this
      exact this
    rw [this, Int.add_mul_emod_self_left]
  rw [lowBits, BitVec.toNat_sub, Nat.mod_mod_of_dvd _ hd, ← hi, BitVec.ofInt_natCast]

/-- The advance of the PC, spelt out (R160). -/
theorem Inv.advancePc_eq {s : State} (h : Inv s) (d : Word) :
    s.advancePc d = { s with
      regs := s.regs.set s.cfg.pcIndex (BitVec.ofNat 64 ((s.pc.toNat + d.toNat) % 2 ^ pcWidth s.cfg)) } := by
  obtain ⟨w, x, hs, hw, hm, -⟩ := h.pc_register
  have hle : w ≤ 64 := by simp at hm; omega
  rw [State.advancePc, writeReg_concrete _ hs, lowBits_add hle, hw]
  rfl

/-! ### What one operation can do -/

/-- All that an operation other than a step can do to a state when it goes on: answer; store bytes in bounds; write one
register; append to a channel that has room; and, from outside a step, have BLOCK hold its submission. -/
inductive OpCase (inside : Bool) (s : State) : State → Prop where
  | status (r : Reply) : OpCase inside s (s.answer r)
  | store (a : Nat) (data : List Byte) (h : a + data.length ≤ s.cfg.memSize) :
      OpCase inside s ((s.setMem (s.mem.writeBytes a data)).answer .ok)
  | register (i : Nat) (v : Word) : OpCase inside s ((s.writeReg i v).answer .ok)
  | submitted (x : Action) (h : s.chan.length < s.cfg.chanCap) : OpCase inside s ((s.enqueue x).answer .ok)
  | heldBack (x : Action) (hi : inside = false) (hp : s.cfg.fullPolicy = .block)
      (h : s.cfg.chanCap ≤ s.chan.length) :
      OpCase inside s ((s.setQueues s.chan s.pend (s.held ++ [x])).answer .noStatus)

theorem loadTyped_cases {o : ByteOrder} {n : Nat} {a : Word} {s t : State} {inside : Bool}
    (h : loadTyped o n a s = .next t) : OpCase inside s t := by
  by_cases hb : a.toNat + n ≤ s.cfg.memSize
  · rw [loadTyped_inBounds o hb] at h; cases h; exact .status _
  · rw [loadTyped_outOfBounds o (by omega)] at h; cases h; exact .status _

theorem storeRaw_cases {a : Word} {data : List Byte} {s t : State} {inside : Bool}
    (h : storeRaw a data s = .next t) : OpCase inside s t := by
  by_cases hb : a.toNat + data.length ≤ s.cfg.memSize
  · rw [storeRaw_inBounds hb] at h; cases h; exact .store _ _ hb
  · rw [storeRaw_outOfBounds (by omega)] at h; cases h; exact .status _

theorem floatUpdate_cases {f : Fnum → Nat → Word → Word → Option Word} {i : Nat} {d : Word} {s t : State}
    {inside : Bool} (h : floatUpdate f i d s = .next t) : OpCase inside s t := by
  obtain ⟨r, -, -, h⟩ := withRegisterValue_eq_next h
  split at h
  · cases h; exact .status _
  · split at h
    · cases h; exact .register _ _
    · cases h

theorem submit_cases {inside : Bool} {x : Action} {s t : State} (h : submit inside x s = .next t) :
    OpCase inside s t := by
  unfold submit at h
  split at h
  · next hc => cases h; exact .submitted x hc
  · next hc =>
    split at h
    · cases h; exact .status _
    · next hp =>
      split at h
      · cases h
      · next hi => cases h; exact .heldBack x (by simpa using hi) hp (by omega)

theorem memReadByte_cases {a : Word} {s t : State} {inside : Bool} (h : execMemReadByte a s = .next t) :
    OpCase inside s t := by
  unfold execMemReadByte at h
  split at h <;> (cases h; exact .status _)

theorem memWriteByte_cases {v : Byte} {a : Word} {s t : State} {inside : Bool}
    (h : execMemWriteByte v a s = .next t) : OpCase inside s t := by
  unfold execMemWriteByte accessFault at h
  by_cases hb : inBounds s.cfg.memSize a.toNat 1
  · rw [if_pos hb] at h; cases h; exact .store a.toNat [v] hb
  · rw [if_neg hb] at h; cases h; exact .status _

theorem memReadRaw_cases {a n : Word} {s t : State} {inside : Bool} (h : execMemReadRaw a n s = .next t) :
    OpCase inside s t := by
  unfold execMemReadRaw at h
  split at h <;> (cases h; exact .status _)

theorem memWriteRaw_cases {data : List Byte} {a : Word} {s t : State} {inside : Bool}
    (h : execMemWriteRaw data a s = .next t) : OpCase inside s t := by
  unfold execMemWriteRaw at h
  split at h
  · exact storeRaw_cases h
  · cases h

theorem regWrite_cases {i : Nat} {v : Word} {s t : State} {inside : Bool} {x : Word}
    (h : (withRegisterValue i v s fun _ => .next ((s.writeReg i x).answer .ok)) = .next t) :
    OpCase inside s t := by
  obtain ⟨r, -, -, h⟩ := withRegisterValue_eq_next h
  cases h
  exact .register _ _

theorem regRead_cases {i : Nat} {s t : State} {inside : Bool} {f : RegSpec → Reply}
    (h : (withRegister i s fun r => .next (s.answer (f r))) = .next t) : OpCase inside s t := by
  obtain ⟨r, -, h⟩ := withRegister_eq_next h
  cases h
  exact .status _

end Sys2Proof.Machine
end

