-- ==== Sys2Proof/Laws/PerInstr.lean ====
section
/-! SUPPORT. One fact per instruction about its encoding, for statements over all instructions. -/

namespace Sys2Proof.Laws

/-- The instruction's encoding is a record with an assigned select code and as many operands as the opcode table gives
it (R86), or exactly w bytes (R81). -/
def EncodeForm.Statement (i : Instr) : Prop :=
  ∀ c : Cfg, match encode c i with
    | .operation op xs => (decodeOp op (zeroOperands op)).toOption.isSome = true ∧
        xs.length = (zeroOperands op).length
    | .word bytes => bytes.length = c.width

theorem EncodeForm.memReadByte (index : Word) :
    EncodeForm.Statement (.memReadByte index) := fun _ => ⟨rfl, rfl⟩
theorem EncodeForm.memWriteByte (value : Byte) (index : Word) :
    EncodeForm.Statement (.memWriteByte value index) := fun _ => ⟨rfl, rfl⟩
theorem EncodeForm.memReadRaw (start n : Word) :
    EncodeForm.Statement (.memReadRaw start n) := fun _ => ⟨rfl, rfl⟩
theorem EncodeForm.memWriteRaw (data : List Byte) (start : Word) :
    EncodeForm.Statement (.memWriteRaw data start) := fun _ => ⟨rfl, rfl⟩
theorem EncodeForm.memReadU16 (order : ByteOrder) (start : Word) :
    EncodeForm.Statement (.memReadU16 order start) := fun _ => ⟨rfl, rfl⟩
theorem EncodeForm.memReadU32 (order : ByteOrder) (start : Word) :
    EncodeForm.Statement (.memReadU32 order start) := fun _ => ⟨rfl, rfl⟩
theorem EncodeForm.memReadU64 (order : ByteOrder) (start : Word) :
    EncodeForm.Statement (.memReadU64 order start) := fun _ => ⟨rfl, rfl⟩
theorem EncodeForm.memReadF32 (order : ByteOrder) (start : Word) :
    EncodeForm.Statement (.memReadF32 order start) := fun _ => ⟨rfl, rfl⟩
theorem EncodeForm.memReadF64 (order : ByteOrder) (start : Word) :
    EncodeForm.Statement (.memReadF64 order start) := fun _ => ⟨rfl, rfl⟩
theorem EncodeForm.memWriteU16 (order : ByteOrder) (start : Word) (v : BitVec 16) :
    EncodeForm.Statement (.memWriteU16 order start v) := fun _ => ⟨rfl, rfl⟩
theorem EncodeForm.memWriteU32 (order : ByteOrder) (start : Word) (v : BitVec 32) :
    EncodeForm.Statement (.memWriteU32 order start v) := fun _ => ⟨rfl, rfl⟩
theorem EncodeForm.memWriteU64 (order : ByteOrder) (start : Word) (v : BitVec 64) :
    EncodeForm.Statement (.memWriteU64 order start v) := fun _ => ⟨rfl, rfl⟩
theorem EncodeForm.memWriteF32 (order : ByteOrder) (start : Word) (f : BitVec 32) :
    EncodeForm.Statement (.memWriteF32 order start f) := fun _ => ⟨rfl, rfl⟩
theorem EncodeForm.memWriteF64 (order : ByteOrder) (start : Word) (f : BitVec 64) :
    EncodeForm.Statement (.memWriteF64 order start f) := fun _ => ⟨rfl, rfl⟩
theorem EncodeForm.regSetInt (i : Nat) (v : Word) :
    EncodeForm.Statement (.regSetInt i v) := fun _ => ⟨rfl, rfl⟩
theorem EncodeForm.regGetInt (i : Nat) :
    EncodeForm.Statement (.regGetInt i) := fun _ => ⟨rfl, rfl⟩
theorem EncodeForm.regIncInt (i : Nat) (d : Word) :
    EncodeForm.Statement (.regIncInt i d) := fun _ => ⟨rfl, rfl⟩
theorem EncodeForm.regDecInt (i : Nat) (d : Word) :
    EncodeForm.Statement (.regDecInt i d) := fun _ => ⟨rfl, rfl⟩
theorem EncodeForm.regSetFloat (i : Nat) (f : Word) :
    EncodeForm.Statement (.regSetFloat i f) := fun _ => ⟨rfl, rfl⟩
theorem EncodeForm.regGetFloat (i : Nat) :
    EncodeForm.Statement (.regGetFloat i) := fun _ => ⟨rfl, rfl⟩
theorem EncodeForm.regIncFloat (i : Nat) (d : Word) :
    EncodeForm.Statement (.regIncFloat i d) := fun _ => ⟨rfl, rfl⟩
theorem EncodeForm.regDecFloat (i : Nat) (d : Word) :
    EncodeForm.Statement (.regDecFloat i d) := fun _ => ⟨rfl, rfl⟩
theorem EncodeForm.regCanWrite (i : Nat) :
    EncodeForm.Statement (.regCanWrite i) := fun _ => ⟨rfl, rfl⟩
theorem EncodeForm.pcIncrement (delta : Word) :
    EncodeForm.Statement (.pcIncrement delta) := fun _ => ⟨rfl, rfl⟩
theorem EncodeForm.pcRead :
    EncodeForm.Statement (.pcRead) := fun _ => ⟨rfl, rfl⟩
theorem EncodeForm.cycleStep :
    EncodeForm.Statement (.cycleStep) := fun _ => ⟨rfl, rfl⟩
theorem EncodeForm.schedSubmit (action delay description : Word) :
    EncodeForm.Statement (.schedSubmit action delay description) := fun _ => ⟨rfl, rfl⟩
theorem EncodeForm.schedStep :
    EncodeForm.Statement (.schedStep) := fun _ => ⟨rfl, rfl⟩
theorem EncodeForm.runWord (word : Word) :
    EncodeForm.Statement (.runWord word) := fun c => by
  simp only [encode]
  exact Machine.length_unpack _ _ _

end Sys2Proof.Laws
end

