-- ==== Sys2Proof/Laws/Script.lean ====
section
/-! SUPPORT. What an operation inside a step, a script, and an operation from outside can do; and that scripts leave no
computation out (log 1). -/

namespace Sys2Proof.Machine

theorem throughCore_eq_next {o : ByteOrder} {s t : State} {r : Result State} (h : throughCore o s r = .next t) :
    o = s.cfg.order ∧ r = .next t := by
  unfold throughCore at h
  split at h
  · next ho => exact ⟨ho, h⟩
  · cases h

/-- An operation invoked inside a step, when it goes on. -/
theorem innerOp_cases {i : Instr} {s t : State} (h : innerOp i s = .next t) : OpCase true s t := by
  cases i with
  | memReadByte a => exact memReadByte_cases h
  | memWriteByte v a => exact memWriteByte_cases h
  | memReadRaw a n => exact memReadRaw_cases h
  | memWriteRaw data a => exact memWriteRaw_cases h
  | memReadU16 o a => exact loadTyped_cases (throughCore_eq_next h).2
  | memReadU32 o a => exact loadTyped_cases (throughCore_eq_next h).2
  | memReadU64 o a => exact loadTyped_cases (throughCore_eq_next h).2
  | memReadF32 o a => exact loadTyped_cases (throughCore_eq_next h).2
  | memReadF64 o a => exact loadTyped_cases (throughCore_eq_next h).2
  | memWriteU16 o a v => exact storeRaw_cases (throughCore_eq_next h).2
  | memWriteU32 o a v => exact storeRaw_cases (throughCore_eq_next h).2
  | memWriteU64 o a v => exact storeRaw_cases (throughCore_eq_next h).2
  | memWriteF32 o a v => exact storeRaw_cases (throughCore_eq_next h).2
  | memWriteF64 o a v => exact storeRaw_cases (throughCore_eq_next h).2
  | regSetInt j v => exact regWrite_cases h
  | regGetInt j => exact regRead_cases h
  | regIncInt j d => exact regWrite_cases h
  | regDecInt j d => exact regWrite_cases h
  | regSetFloat j f => exact regWrite_cases h
  | regGetFloat j => exact regRead_cases h
  | regIncFloat j d => exact floatUpdate_cases h
  | regDecFloat j d => exact floatUpdate_cases h
  | regCanWrite j => exact regRead_cases h
  | pcIncrement d => cases h; exact .register _ _
  | pcRead => cases h; exact .status _
  | cycleStep => cases h
  | schedSubmit a d t => exact submit_cases h
  | schedStep => cases h
  | runWord w => cases h

/-- What one operation leaves alone: the configuration, the pending list, what BLOCK holds and has answered, the inbox and
the history; and the channel keeps what it held, in order. -/
structure Keeps (s t : State) : Prop where
  cfg    : t.cfg = s.cfg
  pend   : t.pend = s.pend
  held   : t.held = s.held
  answered : t.answered = s.answered
  inbox  : t.inbox = s.inbox
  events : t.events = s.events
  chan   : s.chan <+: t.chan

theorem Keeps.refl (s : State) : Keeps s s := ⟨rfl, rfl, rfl, rfl, rfl, rfl, List.prefix_refl _⟩

theorem Keeps.trans {s t u : State} (h : Keeps s t) (k : Keeps t u) : Keeps s u :=
  ⟨k.cfg.trans h.cfg, k.pend.trans h.pend, k.held.trans h.held, k.answered.trans h.answered, k.inbox.trans h.inbox,
    k.events.trans h.events, h.chan.trans k.chan⟩

@[simp] theorem writeReg_cfg (s : State) (i : Nat) (v : Word) : (s.writeReg i v).cfg = s.cfg := by
  rcases writeReg_cases s i v with h | ⟨w, x, -, h⟩ <;> rw [h]; rfl

/-- A register write changes the register bank at most. -/
theorem writeReg_frame (s : State) (i : Nat) (v : Word) :
    s.writeReg i v = { s with regs := (s.writeReg i v).regs } := by
  rcases writeReg_cases s i v with h | ⟨w, x, -, h⟩ <;> rw [h]; rfl

theorem OpCase.keeps {s t : State} (h : OpCase true s t) : Keeps s t := by
  cases h with
  | status r => exact ⟨rfl, rfl, rfl, rfl, rfl, rfl, List.prefix_refl _⟩
  | store a data h => exact ⟨rfl, rfl, rfl, rfl, rfl, rfl, List.prefix_refl _⟩
  | register i v =>
    rw [writeReg_frame]
    exact ⟨rfl, rfl, rfl, rfl, rfl, rfl, List.prefix_refl _⟩
  | submitted x h => exact ⟨rfl, rfl, rfl, rfl, rfl, rfl, List.prefix_append _ _⟩
  | heldBack x hi => cases hi

/-- The part of the invariant that every operation keeps, inside a step or outside. -/
structure BlockInv (s : State) : Prop where
  canonical : s.mem.wf
  inside    : s.mem.inside s.cfg.memSize
  bankSize  : s.regs.length = s.cfg.regs.length
  slots     : ∀ i r, s.cfg.regs[i]? = some r → slotOk r (s.regs.getD i 0#64) = true
  chanBound : s.chan.length ≤ s.cfg.chanCap

theorem Inv.block {s : State} (h : Inv s) : BlockInv s := ⟨h.canonical, h.inside, h.bankSize, h.slots, h.chanBound⟩

theorem BlockInv.setSlot {s : State} (h : BlockInv s) {i : Nat} {w : Nat} {x : Word} (v : Word)
    (hr : s.cfg.regs[i]? = some ⟨.concrete, w, x⟩) : BlockInv (s.setSlot i (lowBits w v)) := by
  refine ⟨h.canonical, h.inside, by simpa using h.bankSize, fun j r hj => ?_, h.chanBound⟩
  have hj' : s.cfg.regs[j]? = some r := hj
  rw [State.setSlot_regs]
  by_cases hij : i = j
  · subst hij
    obtain rfl : r = ⟨.concrete, w, x⟩ := by rw [hr] at hj'; simpa using hj'.symm
    by_cases hlen : i < s.regs.length
    · rw [List.getD_eq_getElem (hn := by simpa using hlen), List.getElem_set_self]
      simpa [slotOk] using fits_lowBits w v
    · rw [List.getD_eq_default (hn := by simpa using hlen)]
      simp [slotOk]
  · have := h.slots j r hj'
    rwa [List.getD_eq_getElem?_getD, List.getElem?_set_ne hij, ← List.getD_eq_getElem?_getD]

/-- Every operation that is not a step keeps the block's invariant. -/
theorem OpCase.keepsInv {inside : Bool} {s t : State} (h : OpCase inside s t) (hs : BlockInv s) : BlockInv t := by
  cases h with
  | status r => exact ⟨hs.canonical, hs.inside, hs.bankSize, hs.slots, hs.chanBound⟩
  | store a data h =>
    exact ⟨Memory.writeBytes_wf a data hs.canonical, Memory.writeBytes_inside data hs.inside h, hs.bankSize,
      hs.slots, hs.chanBound⟩
  | register i v =>
    have hw : BlockInv (s.writeReg i v) := by
      rcases writeReg_cases s i v with h | ⟨w, x, hr, h⟩ <;> rw [h]
      · exact hs
      · exact hs.setSlot v hr
    exact ⟨hw.canonical, hw.inside, hw.bankSize, hw.slots, hw.chanBound⟩
  | submitted x h => exact ⟨hs.canonical, hs.inside, hs.bankSize, hs.slots, by simpa using h⟩
  | heldBack x hi hp h => exact ⟨hs.canonical, hs.inside, hs.bankSize, hs.slots, hs.chanBound⟩

/-- A call of a script, when it goes on, is one operation inside a step. -/
theorem invoke_cases {c : Call} {args : List Word} {answers : List Reply} {s t : State}
    (h : invoke c args answers s = .next t) : OpCase true s t := by
  unfold invoke at h
  split at h
  · cases h
  · exact innerOp_cases h

/-- What every operation inside a step keeps, a whole script keeps. -/
theorem runScript_induct {P : State → Prop} (hP : ∀ {s t}, OpCase true s t → P s → P t)
    {p : Script} {args : List Word} {answers : List Reply} {s t : State} {e : Ending}
    (h : runScript p args answers s = .next (t, e)) (hs : P s) : P t := by
  induction p generalizing answers s with
  | ret r => cases h; exact hs
  | hang => cases h
  | call c k ih =>
    obtain ⟨u, hu, h⟩ := Result.andThen_eq_next h
    exact ih h (hP (invoke_cases hu) hs)
  | branch e y n ihy ihn =>
    rw [runScript] at h
    split at h
    · exact ihy h hs
    · exact ihn h hs

theorem runScript_keeps {p : Script} {args : List Word} {answers : List Reply} {s t : State} {e : Ending}
    (h : runScript p args answers s = .next (t, e)) : Keeps s t :=
  runScript_induct (P := fun u => Keeps s u) (fun hu hk => hk.trans hu.keeps) h (Keeps.refl s)

theorem runScript_keepsInv {p : Script} {args : List Word} {answers : List Reply} {s t : State} {e : Ending}
    (h : runScript p args answers s = .next (t, e)) (hs : BlockInv s) : BlockInv t :=
  runScript_induct (fun hu hk => hu.keepsInv hk) h hs

/-! ### Scripts leave no computation out -/

/-- Goes on with `f v` where the value of `e` is a listed `v`. -/
def switch (e : Expr) (f : Word → Script) (otherwise : Script) : List Word → Script
  | [] => otherwise
  | v :: vs => .branch (.bin .eq e (.lit v)) (f v) (switch e f otherwise vs)

/-- For every function of a 64-bit value there is a script that goes on as the function says, whatever the value is: so
a script can go on in any way from anything that it has learnt, and every RUN, CB or body that is a function of what it
can see is a script. -/
theorem script_switch (e : Expr) (f : Word → Script) : ∃ p : Script, ∀ args answers s,
    runScript p args answers s = runScript (f (evalExpr args answers e)) args answers s := by
  have step : ∀ vs : List Word, ∀ args answers s, evalExpr args answers e ∈ vs →
      runScript (switch e f .hang vs) args answers s = runScript (f (evalExpr args answers e)) args answers s := by
    intro vs args answers s
    induction vs with
    | nil => intro h; cases h
    | cons v vs ih =>
      intro h
      rw [switch, runScript]
      by_cases hv : evalExpr args answers e = v
      · simp [evalExpr, applyOp, hv]
      · have := ih ((List.mem_cons.1 h).resolve_left hv)
        simp [evalExpr, applyOp, hv, this]
  refine ⟨switch e f .hang ((List.range (2 ^ 64)).map (BitVec.ofNat 64)), fun args answers s => ?_⟩
  exact step _ args answers s (List.mem_map.2 ⟨_, List.mem_range.2 (evalExpr args answers e).isLt, by simp⟩)

end Sys2Proof.Machine
end

