-- ==== Sys2Proof/Laws/Scheduler.lean ====
section
/-! SUPPORT. What the pieces of a step can do: one cycle, the drain, a firing, the traversal, the release of held
submissions. -/

namespace Sys2Proof.Machine

/-! ### The cycle -/

/-- What a script leaves alone when it runs after an entry in the history. -/
theorem runScript_log_keeps {p : Script} {args : List Word} {s t : State} {ev : Event} {e : Ending}
    (h : runScript p args [] (s.log ev) = .next (t, e)) :
    t.cfg = s.cfg ∧ t.pend = s.pend ∧ t.held = s.held ∧ t.answered = s.answered ∧ t.inbox = s.inbox ∧
      t.events = s.events ++ [ev] ∧ s.chan <+: t.chan :=
  have k := runScript_keeps h
  ⟨k.cfg, k.pend, k.held, k.answered, k.inbox, k.events, k.chan⟩

/-- What one cycle leaves alone, and what it adds to the history: the word given to RUN, the call of CB, or, where a
fetch fails and there is no callback, nothing. -/
structure CycleKeeps (s t : State) (added : List Event) : Prop where
  cfg    : t.cfg = s.cfg
  pend   : t.pend = s.pend
  held   : t.held = s.held
  answered : t.answered = s.answered
  inbox  : t.inbox = s.inbox
  events : t.events = s.events ++ added
  chan   : s.chan <+: t.chan
  added  : added = [] ∨ (∃ w, added = [.ran w]) ∨ ∃ av, added = [.calledBack av]
  reply  : t.reply = .ok ∨ t.reply.isErr = true

theorem ofRunner_cases (e : Ending) : e.ofRunner = .ok ∨ e.ofRunner.isErr = true := by
  cases e <;> simp [Ending.ofRunner, Reply.isErr]

theorem ofCallback_cases (e : Ending) : e.ofCallback = .ok ∨ e.ofCallback.isErr = true := by
  cases e <;> simp [Ending.ofCallback, Reply.isErr]

theorem dispatchWord_keeps {w : Word} {s t : State} (h : dispatchWord w s = .next t) :
    CycleKeeps s t [.ran w] := by
  obtain ⟨⟨u, e⟩, hu, h⟩ := Result.andThen_eq_next h
  cases h
  obtain ⟨hc, hp, hh, ha, hi, he, hch⟩ := runScript_log_keeps hu
  exact ⟨hc, hp, hh, ha, hi, he, hch, .inr (.inl ⟨w, rfl⟩), ofRunner_cases e⟩

theorem fetchFault_keeps {av : AccessViolation} {s t : State} (h : fetchFault av s = .next t) :
    ∃ added, CycleKeeps s t added := by
  unfold fetchFault at h
  split at h
  · cases h
    exact ⟨[], rfl, rfl, rfl, rfl, rfl, by simp, List.prefix_refl _, .inl rfl, .inr rfl⟩
  · obtain ⟨⟨u, e⟩, hu, h⟩ := Result.andThen_eq_next h
    cases h
    obtain ⟨hc, hp, hh, ha, hi, he, hch⟩ := runScript_log_keeps hu
    exact ⟨_, hc, hp, hh, ha, hi, he, hch, .inr (.inr ⟨av, rfl⟩), ofCallback_cases e⟩

theorem advancePc_frame (s : State) (d : Word) : s.advancePc d = { s with regs := (s.advancePc d).regs } :=
  writeReg_frame s _ _

theorem cycleOnce_keeps {s t : State} (h : cycleOnce s = .next t) : ∃ added, CycleKeeps s t added := by
  unfold cycleOnce at h
  split at h
  · exact fetchFault_keeps h
  · rw [advancePc_frame] at h
    have k := dispatchWord_keeps h
    exact ⟨_, k.cfg, k.pend, k.held, k.answered, k.inbox, k.events, k.chan, k.added, k.reply⟩

theorem writeReg_keepsInv {s : State} (i : Nat) (v : Word) (h : BlockInv s) : BlockInv (s.writeReg i v) := by
  rcases writeReg_cases s i v with hw | ⟨w, x, hr, hw⟩ <;> rw [hw]
  · exact h
  · exact h.setSlot v hr

theorem BlockInv.log {s : State} (h : BlockInv s) (e : Event) : BlockInv (s.log e) :=
  ⟨h.canonical, h.inside, h.bankSize, h.slots, h.chanBound⟩

theorem BlockInv.answer {s : State} (h : BlockInv s) (r : Reply) : BlockInv (s.answer r) :=
  ⟨h.canonical, h.inside, h.bankSize, h.slots, h.chanBound⟩

theorem dispatchWord_keepsInv {w : Word} {s t : State} (h : dispatchWord w s = .next t) (hs : BlockInv s) :
    BlockInv t := by
  obtain ⟨⟨u, e⟩, hu, h⟩ := Result.andThen_eq_next h
  cases h
  exact (runScript_keepsInv hu (hs.log _)).answer _

theorem cycleOnce_keepsInv {s t : State} (h : cycleOnce s = .next t) (hs : BlockInv s) : BlockInv t := by
  unfold cycleOnce at h
  split at h
  · unfold fetchFault at h
    split at h
    · cases h; exact hs.answer _
    · obtain ⟨⟨u, e⟩, hu, h⟩ := Result.andThen_eq_next h
      cases h
      exact (runScript_keepsInv hu (hs.log _)).answer _
  · exact dispatchWord_keepsInv h (writeReg_keepsInv _ _ hs)

/-! ### The drain and the release -/

/-- The drain moves a head part of the channel, in order, to the tail of the pending list; what it leaves in the
channel it leaves because the pending list is full; and it keeps the bound (R205, R206). -/
theorem drain_cases (cap : Option Nat) (chan pend : List Action) :
    ∃ taken, chan = taken ++ (drain cap chan pend).1 ∧ (drain cap chan pend).2 = pend ++ taken ∧
      ((drain cap chan pend).1 ≠ [] → ¬ pendHasRoom cap (pend ++ taken).length) ∧
      ((∀ m ∈ cap, pend.length ≤ m) → ∀ m ∈ cap, (pend ++ taken).length ≤ m) := by
  induction chan generalizing pend with
  | nil => exact ⟨[], by simp [drain]⟩
  | cons x chan ih =>
    rw [drain]
    split
    · next hroom =>
      obtain ⟨taken, h1, h2, h3, h4⟩ := ih (pend ++ [x])
      refine ⟨x :: taken, by rw [List.cons_append, ← h1], by simpa using h2, by simpa using h3, fun _ => ?_⟩
      simpa using h4 fun m hm => by simpa using hroom m hm
    · next hroom => exact ⟨[], by simp, by simp, fun _ => by simpa using hroom, by simp⟩

/-- With PMAX = INF the drain empties the channel (R206). -/
theorem drain_none (chan pend : List Action) : drain none chan pend = ([], pend ++ chan) := by
  induction chan generalizing pend with
  | nil => simp [drain]
  | cons x chan ih => simp [drain, pendHasRoom, ih]

/-- A release takes held submissions from the head, in order, fills the channel at most, and holds one back only where it
is full (R201). -/
theorem State.release_cases (s : State) (h : s.chan.length ≤ s.cfg.chanCap) :
    ∃ released, s.held = released ++ s.release.held ∧ s.release.chan = s.chan ++ released ∧
      s.release.answered = s.answered ++ released.map (fun x => ⟨x, .ok⟩) ∧
      s.release.chan.length ≤ s.cfg.chanCap ∧ (s.release.held ≠ [] → s.release.chan.length = s.cfg.chanCap) := by
  refine ⟨s.held.take s.room, by simp, by simp, by simp, by simp [State.room]; omega, fun hne => ?_⟩
  have hlt : s.room < s.held.length := by simpa using hne
  simp [State.room] at hlt ⊢
  omega

/-! ### Firing and the traversal -/

theorem fire_keeps {x : Action} {s t : State} (h : fire x s = .next t) :
    t.cfg = s.cfg ∧ t.pend = s.pend ∧ t.held = s.held ∧ t.answered = s.answered ∧ t.inbox = s.inbox ∧
      t.events = s.events ++ [.fired x] ∧ s.chan <+: t.chan := by
  obtain ⟨⟨u, e⟩, hu, h⟩ := Result.andThen_eq_next h
  cases h
  exact runScript_log_keeps hu

theorem fire_keepsInv {x : Action} {s t : State} (h : fire x s = .next t) (hs : BlockInv s) : BlockInv t := by
  obtain ⟨⟨u, e⟩, hu, h⟩ := Result.andThen_eq_next h
  cases h
  exact runScript_keepsInv hu (hs.log _)

theorem aged_nil (k : Nat) : aged k [] = [] := rfl

theorem due_nil (k : Nat) : due k [] = [] := rfl

theorem aged_append (k : Nat) (l m : List Action) : aged k (l ++ m) = aged k l ++ aged k m := by
  simp [aged]

theorem due_append (k : Nat) (l m : List Action) : due k (l ++ m) = due k l ++ due k m := by
  simp [due]

/-- One traversal: the survivors are the list aged by one, the firings are those of delay 0 in list order, and bodies do
nothing to the scheduler but append to the channel (R207 to R209, R212). -/
theorem traverse_keeps {l survivors : List Action} {s t : State} (h : traverse l s = .next (t, survivors)) :
    survivors = aged 1 l ∧ t.events = s.events ++ due 0 l ∧ t.cfg = s.cfg ∧ t.pend = s.pend ∧ t.held = s.held ∧
      t.answered = s.answered ∧ t.inbox = s.inbox ∧ s.chan <+: t.chan := by
  induction l generalizing s survivors with
  | nil => cases h; exact ⟨rfl, by simp [due], rfl, rfl, rfl, rfl, rfl, List.prefix_refl _⟩
  | cons x xs ih =>
    rw [traverse] at h
    split at h
    · next hx =>
      obtain ⟨u, hu, h⟩ := Result.andThen_eq_next h
      obtain ⟨hs, he, hc, hp, hh, ha, hi, hch⟩ := ih h
      obtain ⟨fc, fp, fh, fa, fi, fe, fch⟩ := fire_keeps hu
      have hx' : x = { x with delay := 0#64 } := by cases x; simpa using hx
      refine ⟨?_, ?_, hc.trans fc, hp.trans fp, hh.trans fh, ha.trans fa, hi.trans fi, fch.trans hch⟩
      · rw [hs]; simp [aged, hx]
      · rw [he, fe]; simp [due, hx, ← hx']
    · next hx =>
      obtain ⟨⟨u, sv⟩, hu, h⟩ := Result.andThen_eq_next h
      cases h
      obtain ⟨hs, he, rest⟩ := ih hu
      have hn : x.delay.toNat ≠ 0 := fun h0 => hx (BitVec.eq_of_toNat_eq (by simpa using h0))
      refine ⟨?_, ?_, rest⟩
      · rw [hs]; simp [aged, hn]
      · rw [he]; simp [due, hn]

theorem traverse_keepsInv {l survivors : List Action} {s t : State} (h : traverse l s = .next (t, survivors))
    (hs : BlockInv s) : BlockInv t := by
  induction l generalizing s survivors with
  | nil => cases h; exact hs
  | cons x xs ih =>
    rw [traverse] at h
    split at h
    · obtain ⟨u, hu, h⟩ := Result.andThen_eq_next h
      exact ih h (fire_keepsInv hu hs)
    · obtain ⟨⟨u, sv⟩, hu, h⟩ := Result.andThen_eq_next h
      cases h
      exact ih hu hs

theorem aged_length_le (k : Nat) (l : List Action) : (aged k l).length ≤ l.length := List.length_filterMap_le _ _

/-- Ageing by `k` and then by one is ageing by `k + 1`. -/
theorem aged_one_aged (k : Nat) (l : List Action) : aged 1 (aged k l) = aged (k + 1) l := by
  induction l with
  | nil => rfl
  | cons x xs ih =>
    have hx := x.delay.isLt
    have split_cons : ∀ j, aged j (x :: xs) = aged j [x] ++ aged j xs := fun j => aged_append j [x] xs
    rw [split_cons k, split_cons (k + 1), aged_append, ih]
    congr 1
    by_cases hk : x.delay.toNat < k
    · simp [aged, hk]; omega
    · have hsub : (x.delay - BitVec.ofNat 64 k).toNat = x.delay.toNat - k := by
        rw [BitVec.toNat_sub, BitVec.toNat_ofNat, Nat.mod_eq_of_lt (by omega : k < 2 ^ 64)]
        omega
      by_cases hk1 : x.delay.toNat < k + 1
      · simp only [aged, List.filterMap_cons, List.filterMap_nil, hk, hk1, if_true, if_false]
        simp only [hsub]
        rw [if_pos (by omega)]
      · simp only [aged, List.filterMap_cons, List.filterMap_nil, hk, hk1, if_false]
        simp only [hsub]
        rw [if_neg (by omega)]
        simp [BitVec.sub_sub, BitVec.ofNat_add]

theorem aged_zero (l : List Action) : aged 0 l = l := by simp [aged]

/-- Ageing adds up. -/
theorem aged_aged (j k : Nat) (l : List Action) : aged j (aged k l) = aged (k + j) l := by
  induction j with
  | zero => rw [aged_zero, Nat.add_zero]
  | succ j ih => rw [← aged_one_aged j, ih, aged_one_aged]; rfl

/-- What is due after ageing by `k` is what is due after `k` traversals. -/
theorem due_zero_aged (k : Nat) (l : List Action) : due 0 (aged k l) = due k l := by
  induction l with
  | nil => rfl
  | cons x xs ih =>
    have hx := x.delay.isLt
    have split_cons : aged k (x :: xs) = aged k [x] ++ aged k xs := aged_append k [x] xs
    have split_due : due k (x :: xs) = due k [x] ++ due k xs := due_append k [x] xs
    rw [split_cons, split_due, due_append, ih]
    congr 1
    by_cases hk : x.delay.toNat < k
    · simp [aged, due, hk, show x.delay.toNat ≠ k by omega]
    · have hsub : (x.delay - BitVec.ofNat 64 k).toNat = x.delay.toNat - k := by
        rw [BitVec.toNat_sub, BitVec.toNat_ofNat, Nat.mod_eq_of_lt (by omega : k < 2 ^ 64)]
        omega
      by_cases he : x.delay.toNat = k
      · subst he
        simp [aged, due]
      · have hn : x.delay.toNat - k ≠ 0 := by omega
        simp [aged, due, hk, he, hsub, hn]

end Sys2Proof.Machine
end

