-- ==== Sys2Proof/Laws/Step.lean ====
section
/-! SUPPORT. The equations of the steps, all that an operation other than a step can do from outside, all that a
successful step can do, and where the machine's next operation comes from. -/

namespace Sys2Proof.Machine

/-- An operation invoked from outside, other than the two steps and an instruction word, when it goes on. -/
theorem exec_cases {i : Instr} {s t : State} (h : exec i s = .next t) (h1 : i ≠ .cycleStep) (h2 : i ≠ .schedStep)
    (h3 : ∀ w, i ≠ .runWord w) : OpCase false s t := by
  cases i with
  | memReadByte a => exact memReadByte_cases h
  | memWriteByte v a => exact memWriteByte_cases h
  | memReadRaw a n => exact memReadRaw_cases h
  | memWriteRaw data a => exact memWriteRaw_cases h
  | memReadU16 o a => exact loadTyped_cases h
  | memReadU32 o a => exact loadTyped_cases h
  | memReadU64 o a => exact loadTyped_cases h
  | memReadF32 o a => exact loadTyped_cases h
  | memReadF64 o a => exact loadTyped_cases h
  | memWriteU16 o a v => exact storeRaw_cases h
  | memWriteU32 o a v => exact storeRaw_cases h
  | memWriteU64 o a v => exact storeRaw_cases h
  | memWriteF32 o a v => exact storeRaw_cases h
  | memWriteF64 o a v => exact storeRaw_cases h
  | regSetInt j v => exact regWrite_cases h
  | regGetInt j => exact regRead_cases h
  | regIncInt j d => exact regWrite_cases h
  | regDecInt j d => exact regWrite_cases h
  | regSetFloat j f => exact regWrite_cases h
  | regGetFloat j => exact regRead_cases h
  | regIncFloat j d => exact floatUpdate_cases h
  | regDecFloat j d => exact floatUpdate_cases h
  | regCanWrite j => exact regRead_cases h
  | pcIncrement d => cases h; exact .register _ _
  | pcRead => cases h; exact .status _
  | cycleStep => exact absurd rfl h1
  | schedSubmit a d t => exact submit_cases h
  | schedStep => exact absurd rfl h2
  | runWord w => exact absurd rfl (h3 w)

/-- An instruction word that goes on was handed to RUN. -/
theorem dispatchWord_of_exec {w : Word} {s t : State} (h : exec (.runWord w) s = .next t) :
    dispatchWord w s = .next t := by
  simp only [exec, execRunWord] at h
  split at h
  · exact h
  · cases h

/-- A fetch out of bounds. -/
theorem cycleOnce_outOfBounds {s : State} (h : s.cfg.memSize < s.pc.toNat + s.cfg.width) :
    cycleOnce s = fetchFault (fetchViolation s) s := by
  rw [cycleOnce, readTyped_outOfBounds _ h]; rfl

theorem byteSum_congr (o : ByteOrder) (n : Nat) {f g : Nat → Byte} (h : ∀ k < n, f k = g k) :
    byteSum o n f = byteSum o n g := by
  cases o <;> (simp only [byteSum]; refine Finset.sum_congr rfl fun k hk => ?_; rw [h k (Finset.mem_range.1 hk)])

/-- The packed bytes of a read are the formula of R52 over memory. -/
theorem pack_readBytes (o : ByteOrder) (m : Memory) (a n : Nat) :
    pack o (m.readBytes a n) = byteSum o n fun k => m.read (a + k) := by
  rw [pack_eq_sum _ _ 0#8, Memory.length_readBytes]
  exact byteSum_congr o n fun k hk => Memory.getD_readBytes _ _ _ _ _ hk

/-- A fetch in bounds. -/
theorem cycleOnce_inBounds {s : State} (h : s.pc.toNat + s.cfg.width ≤ s.cfg.memSize) :
    cycleOnce s = dispatchWord
      (BitVec.ofNat 64 (byteSum s.cfg.order s.cfg.width fun k => s.mem.read (s.pc.toNat + k)))
      (s.advancePc (BitVec.ofNat 64 s.cfg.width)) := by
  rw [cycleOnce, readTyped_inBounds _ h, pack_readBytes]

theorem Inv.width_toNat {s : State} (h : Inv s) : (BitVec.ofNat 64 s.cfg.width).toNat = s.cfg.width := by
  have := h.config.2.1
  simp at this ⊢
  omega

/-- The state when RUN starts is the one whose PC has advanced. -/
theorem Inv.beforeRun_eq {s : State} (h : Inv s) (w : Word) :
    (s.advancePc (BitVec.ofNat 64 s.cfg.width)).log (.ran w) = beforeRun s w := by
  rw [h.advancePc_eq, h.width_toNat]; rfl

/-- An inner step that returned an error is the whole step (R211). -/
theorem execSchedStep_of_err {s t : State} (h : cycleOnce s = .next t) (he : t.reply.isErr = true) :
    execSchedStep s = .next t := by
  rw [execSchedStep, h, Result.andThen_next, if_pos he]

/-- After an inner step that returned OK come the drain, the traversal and the release (R204). -/
theorem execSchedStep_of_ok {s t : State} (h : cycleOnce s = .next t) (he : t.reply = .ok) :
    execSchedStep s = afterInner t := by
  rw [execSchedStep, h, Result.andThen_next, if_neg (by rw [he]; decide)]

/-- The drain moves a head part of the channel, as long as PMAX allows (R205, R206). -/
theorem drain_eq (s : State) : drain s.cfg.pendCap s.chan s.pend =
    (s.chan.drop (drainCount s), s.pend ++ s.chan.take (drainCount s)) := by
  unfold drainCount
  cases s.cfg.pendCap with
  | none => simp [drain_none]
  | some m =>
    simp only
    generalize s.chan = chan
    generalize s.pend = pend
    induction chan generalizing pend with
    | nil => simp [drain]
    | cons x xs ih =>
      rw [drain]
      by_cases h : pend.length < m
      · have hc : min (x :: xs).length (m - pend.length) = min xs.length (m - (pend ++ [x]).length) + 1 := by
          simp; omega
        rw [if_pos (by simpa [pendHasRoom] using h), ih, hc]
        simp
      · have hc : min (x :: xs).length (m - pend.length) = 0 := by omega
        rw [if_neg (by simpa [pendHasRoom] using h), hc]
        simp

theorem traversed_eq (s : State) : traversed s = s.pend ++ s.chan.take (drainCount s) := by rw [traversed, drain_eq]

/-- What follows a successful inner step, as one traversal from the drained state (R204). -/
theorem afterInner_eq (s : State) : afterInner s =
    (traverse (traversed s) { s with chan := s.chan.drop (drainCount s), pend := traversed s }).andThen
      fun (t, survivors) => .next ((t.setQueues t.chan survivors t.held).release.answer .ok) := by
  rw [afterInner, drain_eq, traversed_eq]; rfl

/-- All that a successful SCHED.STEP does to the scheduler: its inner step returned OK, one traversal of the list that
the drain left aged it by one and fired what was due, and the release followed. -/
theorem OkStep.cases {s t : State} (h : OkStep s t) : ∃ s1 s2 added, cycleOnce s = .next s1 ∧ s1.reply = .ok ∧
    CycleKeeps s s1 added ∧
    traverse (traversed s1) { s1 with chan := s1.chan.drop (drainCount s1), pend := traversed s1 } =
      .next (s2, aged 1 (traversed s1)) ∧
    t = (s2.setQueues s2.chan (aged 1 (traversed s1)) s2.held).release.answer .ok ∧
    t.events = s1.events ++ due 0 (traversed s1) := by
  obtain ⟨h, hr⟩ := h
  obtain ⟨s1, h1, h2⟩ := Result.andThen_eq_next h
  obtain ⟨added, k⟩ := cycleOnce_keeps h1
  split at h2
  · next he => cases h2; rw [hr] at he; cases he
  · next he =>
    rw [afterInner_eq] at h2
    obtain ⟨⟨s2, sv⟩, ht, h2⟩ := Result.andThen_eq_next h2
    cases h2
    obtain ⟨rfl, he2, -⟩ := traverse_keeps ht
    exact ⟨s1, s2, added, h1, k.reply.resolve_right he, k, ht, rfl, he2⟩

/-- A SCHED.STEP that goes on without OK is its inner step, which returned an error (R211). -/
theorem schedStep_faulted {s t : State} (h : exec .schedStep s = .next t) (hr : t.reply ≠ .ok) :
    cycleOnce s = .next t ∧ t.reply.isErr = true := by
  obtain ⟨u, hu, h⟩ := Result.andThen_eq_next h
  split at h
  · next he => cases h; exact ⟨hu, he⟩
  · rw [afterInner_eq] at h
    obtain ⟨⟨s2, sv⟩, -, h⟩ := Result.andThen_eq_next h
    cases h
    exact absurd rfl hr

@[simp] theorem agentRefusal_memory (c : Cfg) (i : Instr) : agentRefusal c (.host .memory) i = none := rfl

theorem agentRefusal_core (c : Cfg) (i : Instr) :
    agentRefusal c (.host .core) i = if orderAdmitted c i then none else some .orderNotOfCore := rfl

/-- Where the next operation comes from: the idle host's SCHED.STEP, or the oldest transaction, which decodes and whose
agent may invoke it. -/
theorem nextOperation_cases {s u : State} {i : Instr} (h : nextOperation s = .next (i, u)) :
    (s.inbox = [] ∧ i = .schedStep ∧ u = s) ∨
    ∃ t rest, s.inbox = t :: rest ∧ decodeOp t.op t.operands = .ok i ∧ agentRefusal s.cfg t.agent i = none ∧
      u = s.setInbox rest := by
  unfold nextOperation at h
  split at h
  · next hi => cases h; exact .inl ⟨hi, rfl, rfl⟩
  · next t rest hi =>
    split at h
    · cases h
    · next j hj =>
      split at h
      · cases h
      · next ha => cases h; exact .inr ⟨t, rest, hi, hj, ha, rfl⟩

end Sys2Proof.Machine
end

