-- ==== Sys2Proof/Tests/Slice0.lean ====
section
/-! SUPPORT. Tests: ill-formed terms that WellFormed refuses, records written out from the opcode table, one step at a
time against the vectors of 95_test_vectors.md, and for every obligation with hypotheses a witness that meets them. -/

open Sys2Proof Sys2Proof.Machine

namespace Sys2Proof.Tests

/-! ### Helpers -/

/-- The configuration of 95_test_vectors.md sections 2.1 and 2.2, with the reference FNUM. -/
def cfg : Cfg := { Config.standard with
  memSize := 16
  fnum := .ieee754
  regs := [⟨.zero, 8, 0⟩, ⟨.concrete, 8, 0⟩, ⟨.concrete, 32, 0⟩, ⟨.concrete, 64, 0⟩, ⟨.concrete, 16, 0⟩] }

def blank : State := State.ofCfg cfg

def load (a : Nat) (bs : List Byte) (s : State) : State := s.setMem (s.mem.writeBytes a bs)

def withRegs (vs : List Word) : State := { blank with regs := vs }

def after (i : Instr) (s : State) : Option State :=
  match exec i s with
  | .next t => some t
  | _ => none

def nextOf (i : Instr) (s : State) : State := (after i s).getD s

def replyOf (i : Instr) (s : State) : Option Reply := (after i s).map (·.reply)

def refusalOfExec (i : Instr) (s : State) : Option Refusal :=
  match exec i s with
  | .refused r => some r
  | _ => none

def stopped (i : Instr) (s : State) : Option Fault :=
  match exec i s with
  | .fault f => some f
  | _ => none

def decoded (op : Byte) (xs : List Operand) : Option Instr := (decodeOp op xs).toOption

theorem exec_nextOf {i : Instr} {s : State} (h : (after i s).isSome = true) : exec i s = .next (nextOf i s) := by
  unfold nextOf after at *
  cases hx : exec i s with
  | next t => rfl
  | fault f => rw [hx] at h; cases h
  | refused r => rw [hx] at h; cases h

/-- The invariant of a concrete state, from checks that decide. -/
theorem inv_of_checks {s : State} (hc : s.cfg.WellFormed) (hw : s.mem.wf) (hi : s.mem.inside s.cfg.memSize)
    (hb : s.regs.length = s.cfg.regs.length)
    (hs : ∀ i ∈ List.range s.cfg.regs.length,
      ((s.cfg.regs[i]?).map fun r => slotOk r (s.regs.getD i 0#64)) = some true)
    (hch : s.chan.length ≤ s.cfg.chanCap) (hp : ∀ m ∈ s.cfg.pendCap, s.pend.length ≤ m)
    (hh : s.held ≠ [] → s.cfg.fullPolicy = .block ∧ s.chan.length = s.cfg.chanCap) :
    Inv s := by
  refine ⟨hc, hw, hi, hb, fun i r hr => ?_, hch, hp, hh⟩
  have hlt := (List.getElem?_eq_some_iff.1 hr).1
  have := hs i (List.mem_range.2 hlt)
  rw [hr] at this
  simpa using this

/-! ### WellFormed: one ill-formed term for each check -/

theorem test_standard_wellFormed : Config.standard.WellFormed := by decide
theorem test_cfg_wellFormed : cfg.WellFormed := by decide
theorem test_refuses_memory_beyond_addresses : ¬ { cfg with memSize := 2 ^ 64 }.WellFormed := by decide
theorem test_refuses_width_three : ¬ { cfg with width := 3 }.WellFormed := by decide
theorem test_refuses_empty_bank : ¬ { cfg with regs := [] }.WellFormed := by decide
theorem test_refuses_register_width : ¬ { cfg with regs := cfg.regs ++ [(⟨.concrete, 24, 0⟩ : RegSpec)] }.WellFormed := by decide
theorem test_refuses_wide_reg_init : ¬ { cfg with regs := cfg.regs ++ [(⟨.concrete, 8, 0x100⟩ : RegSpec)] }.WellFormed := by decide
theorem test_refuses_zero_pc : ¬ { cfg with pcIndex := 0 }.WellFormed := by decide
theorem test_refuses_pc_outside_bank : ¬ { cfg with pcIndex := 5 }.WellFormed := by decide
theorem test_refuses_no_channel : ¬ { cfg with chanCap := 0 }.WellFormed := by decide
theorem test_refuses_no_pending_room : ¬ { cfg with pendCap := some 0 }.WellFormed := by decide
theorem test_refuses_unsorted_mem_init : ¬ { cfg with memInit := [(2, 1), (1, 1)] }.WellFormed := by decide
theorem test_refuses_listed_fill : ¬ { cfg with memInit := [(2, 0)] }.WellFormed := by decide
theorem test_refuses_mem_init_outside : ¬ { cfg with memInit := [(16, 1)] }.WellFormed := by decide
theorem test_refuses_wide_pattern : (Instr.regSetInt 1 0x1FF).wellFormed cfg = false := by decide
theorem test_refuses_wide_pattern_for_zero : (Instr.regIncFloat 0 0x100).wellFormed cfg = false := by decide
theorem test_refuses_index_outside_bank : (Instr.regGetInt 5).wellFormed cfg = false := by decide
theorem test_refuses_value_outside_bank : (Instr.regDecInt 5 0).wellFormed cfg = false := by decide
theorem test_refuses_wide_word : (Instr.runWord 0x10000).wellFormed cfg = false := by decide
theorem test_refuses_long_data (a : Word) (data : List Byte) (h : 2 ^ 64 ≤ data.length) :
    (Instr.memWriteRaw data a).wellFormed cfg = false := by
  simp only [Instr.wellFormed, decide_eq_false_iff_not]; omega

/-! ### Decoding: one record per row, written from 30_encoding.md R86 -/

theorem test_decodes_memReadByte : decoded 0x01 [.num 15] = some (.memReadByte 15) := by decide
theorem test_decodes_memWriteByte : decoded 0x02 [.num 0x5A, .num 3] = some (.memWriteByte 0x5A 3) := by decide
theorem test_decodes_memReadRaw : decoded 0x03 [.num 14, .num 2] = some (.memReadRaw 14 2) := by decide
theorem test_decodes_memWriteRaw : decoded 0x04 [.bytes [1, 2, 3], .num 13] = some (.memWriteRaw [1, 2, 3] 13) := by decide
theorem test_decodes_memReadU16 : decoded 0x10 [.num 0, .num 4] = some (.memReadU16 .be 4) := by decide
theorem test_decodes_memReadU32 : decoded 0x11 [.num 1, .num 0] = some (.memReadU32 .le 0) := by decide
theorem test_decodes_memReadU64 : decoded 0x12 [.num 1, .num 8] = some (.memReadU64 .le 8) := by decide
theorem test_decodes_memReadF32 : decoded 0x13 [.num 0, .num 0] = some (.memReadF32 .be 0) := by decide
theorem test_decodes_memReadF64 : decoded 0x14 [.num 1, .num 0] = some (.memReadF64 .le 0) := by decide
theorem test_decodes_memWriteU16 : decoded 0x18 [.num 1, .num 4, .num 0xBEEF] = some (.memWriteU16 .le 4 0xBEEF) := by decide
theorem test_decodes_memWriteU32 : decoded 0x19 [.num 0, .num 0, .num 0x11223344] = some (.memWriteU32 .be 0 0x11223344) := by decide
theorem test_decodes_memWriteU64 : decoded 0x1A [.num 1, .num 8, .num 0x0102030405060708] = some (.memWriteU64 .le 8 0x0102030405060708) := by decide
theorem test_decodes_memWriteF32 : decoded 0x1B [.num 1, .num 0, .num 0x3F800000] = some (.memWriteF32 .le 0 0x3F800000) := by decide
theorem test_decodes_memWriteF64 : decoded 0x1C [.num 0, .num 0, .num 0x8000000000000000] = some (.memWriteF64 .be 0 0x8000000000000000) := by decide
theorem test_decodes_regSetInt : decoded 0x20 [.num 2, .num 0xBEEF] = some (.regSetInt 2 0xBEEF) := by decide
theorem test_decodes_regGetInt : decoded 0x21 [.num 2] = some (.regGetInt 2) := by decide
theorem test_decodes_regIncInt : decoded 0x22 [.num 3, .num 1] = some (.regIncInt 3 1) := by decide
theorem test_decodes_regDecInt : decoded 0x23 [.num 3, .num 3] = some (.regDecInt 3 3) := by decide
theorem test_decodes_regSetFloat : decoded 0x24 [.num 2, .num 0x3F800000] = some (.regSetFloat 2 0x3F800000) := by decide
theorem test_decodes_regGetFloat : decoded 0x25 [.num 2] = some (.regGetFloat 2) := by decide
theorem test_decodes_regIncFloat : decoded 0x26 [.num 2, .num 0x3F800000] = some (.regIncFloat 2 0x3F800000) := by decide
theorem test_decodes_regDecFloat : decoded 0x27 [.num 3, .num 0x3FF0000000000000] = some (.regDecFloat 3 0x3FF0000000000000) := by decide
theorem test_decodes_regCanWrite : decoded 0x28 [.num 0] = some (.regCanWrite 0) := by decide
theorem test_decodes_pcIncrement : decoded 0x30 [.num 0xFFFFFFFFFFFFFFFA] = some (.pcIncrement 0xFFFFFFFFFFFFFFFA) := by decide
theorem test_decodes_pcRead : decoded 0x31 [] = some .pcRead := by decide
theorem test_decodes_cycleStep : decoded 0x40 [] = some .cycleStep := by decide
theorem test_decodes_schedSubmit : decoded 0x50 [.num 7, .num 2, .num 99] = some (.schedSubmit 7 2 99) := by decide
theorem test_decodes_schedStep : decoded 0x51 [] = some .schedStep := by decide

/-- R82: the word whose bytes are 12 34 in address order (V-C1, V-C2). -/
theorem test_decodes_word_be : (decode Config.standard (.word [0x12, 0x34])).toOption = some (.runWord 0x1234) := by decide
theorem test_decodes_word_le :
    (decode { Config.standard with order := .le } (.word [0x12, 0x34])).toOption = some (.runWord 0x3412) := by decide
theorem test_word_of_three_bytes_refused : (decode Config.standard (.word [1, 2, 3])).toOption = none := by decide
theorem test_wrong_operands_refused : decoded 0x01 [] = none ∧ decoded 0x31 [.num 0] = none := by decide
theorem test_table_words :
    decodeTableWord 8 0x23 = some (.regDecInt 0 0) ∧ decodeTableWord 16 0xABCD = some (.runWord 0xABCD) := by decide
theorem test_placed_word_runs :
    (match step (State.reset.withFetchWord 16 0x1234) with
      | .next t => some t.events
      | _ => none) = some [.ran 0x1234] := by decide

/-! ### One step: the vectors of 95_test_vectors.md -/

def word : State := load 0 [0x11, 0x22, 0x33, 0x44] blank
def upper : State := load 8 [1, 2, 3, 4, 5, 6, 7, 8] blank

/-- V-M1 -/
theorem test_readByte : replyOf (.memReadByte 15) (load 15 [0xAB] blank) = some (.okVal (.bits 8 0xAB)) := by decide
/-- V-M3 -/
theorem test_readByte_overflow : replyOf (.memReadByte 0xFFFFFFFFFFFFFFFF) blank =
    some (.err (.av ⟨0xFFFFFFFFFFFFFFFF, 1, true⟩)) := by decide
/-- R103 -/
theorem test_writeByte : (after (.memWriteByte 0x5A 3) blank).map (·.mem) = some [(3, 0x5A)] := by decide
/-- V-M4 -/
theorem test_writeByte_outside : after (.memWriteByte 0x5A 16) blank =
    some (raise ⟨16, 1, false⟩ blank) := by decide
/-- V-M5 -/
theorem test_readRaw : replyOf (.memReadRaw 14 2) (load 14 [1, 2] blank) = some (.okVal (.view [1, 2] false)) := by decide
/-- V-M7, V-M8 -/
theorem test_readRaw_empty : replyOf (.memReadRaw 16 0) blank = some (.okVal (.view [] false)) ∧
    replyOf (.memReadRaw 17 0) blank = some (.err (.av ⟨17, 0, true⟩)) := by decide
/-- V-M10 -/
theorem test_writeRaw_all_or_nothing : after (.memWriteRaw [1, 2, 3, 4] 13) blank =
    some (raise ⟨13, 4, false⟩ blank) := by decide
/-- V-M11 -/
theorem test_writeRaw : (after (.memWriteRaw [1, 2, 3] 13) blank).map (·.mem) =
    some [(13, 1), (14, 2), (15, 3)] := by decide
/-- V-M14 and R110 -/
theorem test_readU16 : replyOf (.memReadU16 .be 2) word = some (.okVal (.bits 16 0x3344)) ∧
    replyOf (.memReadU16 .le 2) word = some (.okVal (.bits 16 0x4433)) := by decide
/-- V-M19 -/
theorem test_readU16_outside : replyOf (.memReadU16 .be 15) blank = some (.err (.av ⟨15, 2, true⟩)) := by decide
/-- R111 -/
theorem test_readU32 : replyOf (.memReadU32 .be 0) word = some (.okVal (.bits 32 0x11223344)) := by decide
/-- V-M13 -/
theorem test_readU32_le : replyOf (.memReadU32 .le 0) word = some (.okVal (.bits 32 0x44332211)) := by decide
/-- V-M17 -/
theorem test_readU64 : replyOf (.memReadU64 .le 8) upper = some (.okVal (.bits 64 0x0807060504030201)) := by decide
/-- V-M18 -/
theorem test_readU64_outside : replyOf (.memReadU64 .le 9) upper = some (.err (.av ⟨9, 8, true⟩)) := by decide
/-- R113 -/
theorem test_readF32 : replyOf (.memReadF32 .be 0) (load 0 [0x3F, 0x80] blank) =
    some (.okVal (.bits 32 0x3F800000)) := by decide
/-- R114 -/
theorem test_readF64 : replyOf (.memReadF64 .le 0) (load 6 [0xF0, 0x3F] blank) =
    some (.okVal (.bits 64 0x3FF0000000000000)) := by decide
/-- V-M16 -/
theorem test_writeU16 : (after (.memWriteU16 .le 4 0xBEEF) blank).map (·.mem) = some [(4, 0xEF), (5, 0xBE)] := by decide
/-- V-M12 -/
theorem test_writeU32 : (after (.memWriteU32 .be 0 0x11223344) blank).map (·.mem) =
    some [(0, 0x11), (1, 0x22), (2, 0x33), (3, 0x44)] := by decide
/-- R117 -/
theorem test_writeU64 : (after (.memWriteU64 .le 8 0x0102030405060708) blank).map (·.mem) =
    some [(8, 8), (9, 7), (10, 6), (11, 5), (12, 4), (13, 3), (14, 2), (15, 1)] := by decide
/-- V-M20: a NaN's payload is kept. -/
theorem test_writeF32 : (after (.memWriteF32 .le 0 0x7FC00001) blank).map (·.mem) =
    some [(0, 1), (2, 0xC0), (3, 0x7F)] := by decide
/-- V-M21 -/
theorem test_writeF64 : (after (.memWriteF64 .be 8 0x8000000000000000) blank).map (·.mem) = some [(8, 0x80)] := by decide
/-- V-M22 -/
theorem test_no_memory : replyOf (.memReadRaw 0 0) (State.ofCfg { cfg with memSize := 0 }) =
    some (.okVal (.view [] false)) ∧
    replyOf (.memReadByte 0) (State.ofCfg { cfg with memSize := 0 }) = some (.err (.av ⟨0, 1, true⟩)) := by decide

/-- V-R1 -/
theorem test_setInt : (after (.regSetInt 1 0xAB) blank).map (·.regs) = some [0, 0xAB, 0, 0, 0] := by decide
/-- V-R14, V-R15 -/
theorem test_setInt_refused : refusalOfExec (.regSetInt 1 0x1FF) blank = some (.operandTooWide 8) ∧
    refusalOfExec (.regGetInt 5) blank = some (.registerOutsideBank 5) := by decide
theorem test_getInt : replyOf (.regGetInt 1) (withRegs [0, 0xAB, 0, 0, 0]) = some (.okVal (.bits 8 0xAB)) := by decide
/-- V-R8: a Zero register reads 0 whatever its slot holds. -/
theorem test_getInt_zero : replyOf (.regGetInt 0) (withRegs [5, 0, 0, 0, 0]) = some (.okVal (.bits 8 0)) := by decide
/-- V-R2 -/
theorem test_incInt_wraps : (after (.regIncInt 1 1) (withRegs [0, 0xFF, 0, 0, 0])).map (·.regs) =
    some [0, 0, 0, 0, 0] := by decide
/-- V-R5 -/
theorem test_incInt_32 : (after (.regIncInt 2 0x80000000) (withRegs [0, 0, 0x80000000, 0, 0])).map (·.regs) =
    some [0, 0, 0, 0, 0] := by decide
/-- V-R3 -/
theorem test_decInt_wraps : (after (.regDecInt 1 1) blank).map (·.regs) = some [0, 0xFF, 0, 0, 0] := by decide
/-- R144 -/
theorem test_decInt : (after (.regDecInt 2 3) (withRegs [0, 0, 10, 0, 0])).map (·.regs) = some [0, 0, 7, 0, 0] := by decide
/-- V-R6 -/
theorem test_setFloat : (after (.regSetFloat 2 0x3F800000) blank).map (·.regs) = some [0, 0, 0x3F800000, 0, 0] := by decide
/-- V-R7: a signalling NaN's pattern is kept. -/
theorem test_getFloat : replyOf (.regGetFloat 2) (withRegs [0, 0, 0x7F800001, 0, 0]) =
    some (.okVal (.bits 32 0x7F800001)) := by decide
/-- V-R12 -/
theorem test_incFloat : (after (.regIncFloat 2 0x3F800000) (withRegs [0, 0, 0x3F800000, 0, 0])).map (·.regs) =
    some [0, 0, 0x40000000, 0, 0] := by decide
/-- V-R9, V-R11 -/
theorem test_incFloat_narrow : after (.regIncFloat 0 0x3C) blank = some (blank.answer .ok) ∧
    refusalOfExec (.regIncFloat 1 0x3C) (withRegs [0, 0x3C, 0, 0, 0]) = some (.noFloatFormat 8) := by decide
/-- V-R13 -/
theorem test_decFloat : (after (.regDecFloat 3 0x3FF0000000000000)
    (withRegs [0, 0, 0, 0x4000000000000000, 0])).map (·.regs) = some [0, 0, 0, 0x3FF0000000000000, 0] := by decide +kernel
/-- V-R10 -/
theorem test_canWrite : replyOf (.regCanWrite 0) blank = some (.okVal (.bool false)) ∧
    replyOf (.regCanWrite 1) blank = some (.okVal (.bool true)) := by decide

/-- V-P1 -/
theorem test_pcIncrement : (after (.pcIncrement 4) (withRegs [0, 0, 0, 0, 0xFFFE])).map (·.pc) = some 2 := by decide
/-- V-P2 -/
theorem test_pcIncrement_negative : (after (.pcIncrement 0xFFFFFFFFFFFFFFFA) (withRegs [0, 0, 0, 0, 8])).map (·.pc) =
    some 2 := by decide
/-- V-P4 -/
theorem test_pcRead : replyOf .pcRead (withRegs [0, 0, 0, 0, 0x8004]) = some (.okVal (.bits 64 0x8004)) := by decide

/-- A block of 32 bytes with the PC at `pc` (95_test_vectors.md section 2.4). -/
def at32 (pc : Word) (c : Cfg := Config.standard) : State := { State.ofCfg c with regs := [0, 0, 0, 0, pc] }

/-- V-C1 -/
theorem test_cycleStep : (after .cycleStep (load 4 [0x12, 0x34] (at32 4))).map (fun t => (t.reply, t.pc, t.events)) =
    some (.ok, 6, [.ran 0x1234]) := by decide
/-- V-C4 -/
theorem test_cycleStep_fetchFault : after .cycleStep (at32 31) = some (raise ⟨31, 2, true⟩ (at32 31)) := by decide
/-- V-C9: what RUN wrote before its error stands, the PC too. -/
theorem test_runWord_error :
    (after (.runWord 0x1234) (at32 2 { Config.standard with
      run := .call ⟨0x20, [.num (.lit 1), .num (.lit 9)]⟩ (.ret (.payload (.lit 0xE))) })).map
      (fun t => (t.reply, t.regs, t.events)) = some (.err (.runner 0xE), [0, 9, 0, 0, 2], [.ran 0x1234]) := by decide
/-- V-C12: RUN's write of the PC overwrites the advance. -/
theorem test_runWord_jump :
    (after (.runWord 0) (at32 2 { Config.standard with
      run := .call ⟨0x20, [.num (.lit 4), .num (.lit 0x10)]⟩ (.ret .ok) })).map (·.pc) = some 0x10 := by decide

def x (delay : Word) : Action := ⟨7, delay, 99⟩
def y (delay : Word) : Action := ⟨8, delay, 98⟩

theorem test_schedSubmit : (after (.schedSubmit 7 2 99) (at32 0)).map (fun t => (t.chan, t.reply)) =
    some ([x 2], .ok) := by decide
/-- V-S7 -/
theorem test_schedSubmit_full : after (.schedSubmit 9 0 0) { at32 0 with chan := [x 0, y 0] } =
    some { at32 0 with chan := [x 0, y 0], reply := .full } := by decide
/-- V-S6: firing order is arrival order, and the others age by one. -/
theorem test_schedStep : (after .schedStep { at32 0 with pend := [x 3], chan := [y 0] }).map
    (fun t => (t.reply, t.chan, t.pend, t.events)) = some (.ok, [], [x 2], [.ran 0, .fired (y 0)]) := by decide
/-- V-S3, its bad step: the error is returned, nothing ages and nothing fires. -/
theorem test_schedStep_faulted : (after .schedStep { at32 31 with pend := [x 0], chan := [y 0] }).map
    (fun t => (t.reply, t.chan, t.pend, t.events)) =
    some (.err (.av ⟨31, 2, true⟩), [y 0], [x 0], []) := by decide

/-- A block under BLOCK with a full channel and one submission held back. -/
def blocked : State :=
  { at32 0 { Config.standard with fullPolicy := .block } with chan := [x 0, y 0], held := [x 2] }
/-- R201, BLOCK: the held submission enters once there is room, and its submitter gets OK. -/
theorem test_block_appends_and_answers : (after .schedStep blocked).map (fun t => (t.chan, t.held, t.answered)) =
    some ([x 2], [], [⟨x 2, .ok⟩]) := by decide
def stepRefusal (s : State) : Option Refusal :=
  match step s with
  | .refused r => some r
  | _ => none
/-- R53, R54: the host through the core with the other order; the block is BE. -/
theorem test_core_refuses_other_order :
    stepRefusal { blank with inbox := [⟨.host .core, 0x10, [.num 1, .num 0]⟩] } = some .orderNotOfCore ∧
    stepRefusal { blank with inbox := [⟨.host .core, 0x10, [.num 0, .num 0]⟩] } = none ∧
    stepRefusal { blank with inbox := [⟨.host .memory, 0x10, [.num 1, .num 0]⟩] } = none := by decide

/-! ### Witnesses: for every obligation with hypotheses, a state and operands that meet them all -/

theorem blank_inv : Inv blank :=
  inv_of_checks (by decide) (by decide) (by decide) (by decide) (by decide) (by decide) (by decide) (by decide)
theorem at32_inv : Inv (at32 0) :=
  inv_of_checks (by decide) (by decide) (by decide) (by decide) (by decide) (by decide) (by decide) (by decide)
/-- A well-formed configuration, and instructions with their operands at the widest. -/
theorem witness_decodeOfEncode : cfg.WellFormed ∧
    ∀ i ∈ [Instr.regSetInt 1 0xFF, .regIncFloat 3 0xFFFFFFFFFFFFFFFF, .regCanWrite 4, .runWord 0xFFFF,
      .memWriteRaw [1] 0xFFFFFFFFFFFFFFFF, .schedStep], i.wellFormed cfg = true := by decide
theorem witness_encodeOfDecode : cfg.WellFormed ∧
    decode cfg (.operation 0x51 []) = .ok .schedStep ∧ decode cfg (.word [1, 2]) = .ok (.runWord 0x0102) := by
  exact ⟨by decide, rfl, rfl⟩
/-- The ends of every range of reserved codes, and a transaction with one. -/
theorem witness_reservedSelectCodes :
    (∀ op ∈ ([0x00, 0x05, 0x0F, 0x15, 0x17, 0x1D, 0x1F, 0x29, 0x2F, 0x32, 0x3F, 0x41, 0x4F, 0x52, 0xFF] : List Byte),
      op.toNat = 0x00 ∨ (0x05 ≤ op.toNat ∧ op.toNat ≤ 0x0F) ∨ (0x15 ≤ op.toNat ∧ op.toNat ≤ 0x17) ∨
      (0x1D ≤ op.toNat ∧ op.toNat ≤ 0x1F) ∨ (0x29 ≤ op.toNat ∧ op.toNat ≤ 0x2F) ∨
      (0x32 ≤ op.toNat ∧ op.toNat ≤ 0x3F) ∨ (0x41 ≤ op.toNat ∧ op.toNat ≤ 0x4F) ∨ 0x52 ≤ op.toNat) ∧
    { blank with inbox := [⟨.host .memory, 0x05, []⟩] }.inbox = ⟨.host .memory, 0x05, []⟩ :: [] := by decide
/-- Each clause at its least too wide operand: the first, the middle and the last field of a row, the ones before it at
their widest. -/
theorem witness_wideOperands :
    blank.cfg.regs[1]? = some ⟨.concrete, 8, 0⟩ ∧ 2 ^ 8 ≤ (0x100 : Word).toNat ∧
    blank.cfg.regs[0]? = some ⟨.zero, 8, 0⟩ ∧
    2 ^ (8 * blank.cfg.width) ≤ (0x10000 : Word).toNat ∧ 2 ^ 64 ≤ 2 ^ 64 ∧
    ((0x18, [1, 64, 16]) : Byte × List Nat) ∈ fixedFields ∧
    (∀ vk ∈ [([2, 0, 0], 0), ([1, 2 ^ 64, 0], 1), ([1, 2 ^ 64 - 1, 2 ^ 16], 2)],
      vk.1.length = 3 ∧ vk.2 < 3 ∧ (∀ j, j < vk.2 → vk.1.getD j 0 < 2 ^ [1, 64, 16].getD j 0) ∧
      2 ^ [1, 64, 16].getD vk.2 0 ≤ vk.1.getD vk.2 0) := by decide
theorem witness_wideTransaction : { blank with inbox := [⟨.producer, 0x30, [.num (2 ^ 64)]⟩] }.inbox =
      ⟨.producer, 0x30, [.num (2 ^ 64)]⟩ :: [] ∧
    decodeOp 0x30 [.num (2 ^ 64)] = .error (.operandTooWide 64) := ⟨rfl, rfl⟩
theorem exists_long (n : Nat) : ∃ data : List Byte, n ≤ data.length := ⟨List.replicate n 0, by simp⟩
theorem witness_wideData : ∃ data : List Byte, 2 ^ 64 ≤ data.length := exists_long _
theorem witness_pseudoOperations : (3 ∉ [1, 2, 4, 8]) ∧ cfg.regs[2]? = some ⟨.concrete, 32, 0⟩ ∧
    oneOf cfg.fnum 32 = some 0x3F800000 ∧ cfg.regs[3]? = some ⟨.concrete, 64, 0⟩ ∧
    oneOf cfg.fnum 64 = some 0x3FF0000000000000 := by decide
theorem witness_boundsRule : (16 : Nat) ≤ 2 ^ 64 - 1 ∧ 2 ^ 64 - 1 ≤ 2 ^ 64 - 1 := by decide
theorem witness_readByte : (15 : Word).toNat < blank.cfg.memSize ∧ blank.cfg.memSize ≤ (16 : Word).toNat := by decide
theorem witness_writeByte : blank.mem.wf ∧ (15 : Word).toNat < blank.cfg.memSize ∧
    blank.cfg.memSize ≤ (16 : Word).toNat := by decide
theorem witness_readRaw : (16 : Word).toNat + (0 : Word).toNat ≤ blank.cfg.memSize ∧
    (14 : Word).toNat + (2 : Word).toNat ≤ blank.cfg.memSize ∧ 1 < (2 : Word).toNat ∧
    blank.cfg.memSize < (14 : Word).toNat + (3 : Word).toNat := by decide
theorem witness_writeRaw : blank.mem.wf ∧ ([1, 2, 3] : List Byte).length ≤ 2 ^ 64 - 1 ∧
    (13 : Word).toNat + ([1, 2, 3] : List Byte).length ≤ blank.cfg.memSize ∧
    blank.cfg.memSize < (14 : Word).toNat + ([1, 2, 3] : List Byte).length := by decide
theorem witness_typedReads : (14 : Word).toNat + 2 ≤ blank.cfg.memSize ∧ blank.cfg.memSize < (15 : Word).toNat + 2 ∧
    (12 : Word).toNat + 4 ≤ blank.cfg.memSize ∧ blank.cfg.memSize < (13 : Word).toNat + 4 ∧
    (8 : Word).toNat + 8 ≤ blank.cfg.memSize ∧ blank.cfg.memSize < (9 : Word).toNat + 8 := by decide
theorem witness_typedWrites : blank.mem.wf ∧ (14 : Word).toNat + 2 ≤ blank.cfg.memSize ∧
    blank.cfg.memSize < (15 : Word).toNat + 2 ∧ (12 : Word).toNat + 4 ≤ blank.cfg.memSize ∧
    blank.cfg.memSize < (13 : Word).toNat + 4 ∧ (8 : Word).toNat + 8 ≤ blank.cfg.memSize ∧
    blank.cfg.memSize < (9 : Word).toNat + 8 := by decide
theorem witness_writeThenRead : blank.mem.wf ∧ (14 : Word).toNat + 2 ≤ blank.cfg.memSize ∧
    (12 : Word).toNat + 4 ≤ blank.cfg.memSize ∧ (8 : Word).toNat + 8 ≤ blank.cfg.memSize := by decide
theorem witness_rawFaults :
    (blank.cfg.memSize < (14 : Word).toNat + (3 : Word).toNat ∨ 2 ^ 64 ≤ (14 : Word).toNat + (3 : Word).toNat) ∧
    blank.cfg.memSize ≤ 2 ^ 64 - 1 ∧ ([0, 0, 0] : List Byte).length = (3 : Word).toNat := by decide
theorem witness_rawFaults_overflow : ∃ data : List Byte,
    2 ^ 64 ≤ (0xFFFFFFFFFFFFFFFF : Word).toNat + (2 : Word).toNat ∧ data.length = (2 : Word).toNat :=
  ⟨[0, 0], by decide⟩
theorem witness_mixedWidth : blank.mem.wf ∧ (12 : Word).toNat + 4 ≤ blank.cfg.memSize ∧
    (14 : Word).toNat = (12 : Word).toNat + 2 := by decide
theorem witness_memoryFrame :
    (∀ i ∈ [Instr.memReadByte 15, .memReadRaw 15 1, .memReadU16 .be 15, .memReadU32 .be 15, .memReadU64 .be 15,
      .memReadF32 .be 15, .memReadF64 .be 15], exec i blank = .next (nextOf i blank)) ∧
    (∀ i ∈ [Instr.memWriteByte 1 15, .memWriteRaw [1] 15, .memWriteU16 .le 0 1, .memWriteU32 .le 0 1,
      .memWriteU64 .le 0 1, .memWriteF32 .le 0 1, .memWriteF64 .le 0 1], exec i blank = .next (nextOf i blank)) := by
  constructor <;> (intro i hi; exact exec_nextOf (by revert i; decide))
/-- A Concrete register of every width and a Zero one, each with its widest pattern. -/
theorem witness_registers : cfg.WellFormed ∧
    blank.cfg.regs[0]? = some ⟨.zero, 8, 0⟩ ∧ (0xFF : Word).toNat < 2 ^ 8 ∧
    blank.cfg.regs[1]? = some ⟨.concrete, 8, 0⟩ ∧ blank.cfg.regs[4]? = some ⟨.concrete, 16, 0⟩ ∧
    (0xFFFF : Word).toNat < 2 ^ 16 ∧ blank.cfg.regs[2]? = some ⟨.concrete, 32, 0⟩ ∧
    (0xFFFFFFFF : Word).toNat < 2 ^ 32 ∧ blank.cfg.regs[3]? = some ⟨.concrete, 64, 0⟩ ∧
    (0xFFFFFFFFFFFFFFFF : Word).toNat < 2 ^ 64 := by decide
/-- For the decrement as an increment: d = 0 with e = 0, and d = 1 with e = 0xFF. -/
theorem witness_incDec : (0 : Word).toNat = (2 ^ 8 - (0 : Word).toNat) % 2 ^ 8 ∧
    (0xFF : Word).toNat = (2 ^ 8 - (1 : Word).toNat) % 2 ^ 8 := by decide
/-- The least subnormal and the largest finite pattern of each format. -/
theorem witness_referenceAddition :
    (∀ n ∈ [1, 0x7F7FFFFF, 0x80000001], n < 2 ^ 32 ∧ binary32.magnitude n ≠ 0 ∧
      binary32.magnitude n < binary32.infinity) ∧
    (∀ n ∈ [1, 0x7FEFFFFFFFFFFFFF], n < 2 ^ 64 ∧ binary64.magnitude n ≠ 0 ∧
      binary64.magnitude n < binary64.infinity) := by decide
theorem witness_bankIsStable : exec (.regSetInt 1 5) blank = .next (nextOf (.regSetInt 1 5) blank) ∧
    blank.cfg.regs.length ≤ 5 := ⟨exec_nextOf (by decide), by decide⟩
theorem witness_registerFrame :
    (∀ i ∈ [Instr.regSetInt 2 5, .regIncInt 2 5, .regDecInt 2 5, .regSetFloat 2 5, .regIncFloat 0 5, .regDecFloat 0 5,
      .regGetInt 2, .regGetFloat 2, .regCanWrite 2, .pcRead, .pcIncrement 5],
      exec i blank = .next (nextOf i blank)) ∧ 1 ≠ 2 ∧ 1 ≠ blank.cfg.pcIndex := by
  refine ⟨fun i hi => exec_nextOf (by revert i; decide), by decide, by decide⟩
theorem witness_pc : Inv blank ∧ (0xFFFF : Word).toNat < 2 ^ pcWidth blank.cfg := ⟨blank_inv, by decide⟩

/-- A block whose PC has 8 bits and stands at 0xFE, with memory beyond it (V-C10), and one whose PC has 64 bits. -/
def narrowPc : State := State.ofCfg { cfg with memSize := 258, regs := [⟨.concrete, 8, 0xFE⟩], pcIndex := 0 }
def widePc : State := State.ofCfg { cfg with regs := [⟨.concrete, 64, 14⟩], pcIndex := 0 }
theorem witness_advanceWraps : Inv narrowPc ∧ narrowPc.pc.toNat + narrowPc.cfg.width ≤ narrowPc.cfg.memSize ∧
    pcWidth narrowPc.cfg < 64 ∧ 2 ^ pcWidth narrowPc.cfg - 1 - narrowPc.cfg.width < narrowPc.pc.toNat :=
  ⟨inv_of_checks (by decide) (by decide) (by decide) (by decide) (by decide) (by decide) (by decide) (by decide),
    by decide, by decide, by decide⟩
theorem witness_advanceNeverWraps : Inv widePc ∧ widePc.pc.toNat + widePc.cfg.width ≤ widePc.cfg.memSize ∧
    pcWidth widePc.cfg = 64 :=
  ⟨inv_of_checks (by decide) (by decide) (by decide) (by decide) (by decide) (by decide) (by decide) (by decide),
    by decide, by decide⟩

theorem witness_fetchFaultWithoutCallback :
    ((at32 31).cfg.cb = none ∧ (at32 31).cfg.memSize < (at32 31).pc.toNat + (at32 31).cfg.width) ∧
    ((at32 30).cfg.cb = none ∧ exec .cycleStep (at32 30) = .next (nextOf .cycleStep (at32 30)) ∧
      (at32 30).pc.toNat + (at32 30).cfg.width ≤ (at32 30).cfg.memSize) :=
  ⟨⟨by decide, by decide⟩, by decide, exec_nextOf (by decide), by decide⟩
/-- The same block with a runner that ends with `r`, and with a callback that does. -/
def runnerEnds (r : Ret) (pc : Word) : State := at32 pc { Config.standard with run := .ret r }
def callbackEnds (r : Ret) (pc : Word) : State := at32 pc { Config.standard with cb := some (.ret r) }
/-- The three ways to end. -/
def endings : List Ret := [.ok, .payload (.lit 1), .violation (.lit 1) (.lit 2) (.lit 1)]
theorem runnerEnds_inv {r : Ret} (hr : r ∈ endings) : Inv (runnerEnds r 30) := by
  simp only [endings, List.mem_cons, List.not_mem_nil, or_false] at hr
  rcases hr with rfl | rfl | rfl <;>
    exact inv_of_checks (by decide) (by decide) (by decide) (by decide) (by decide) (by decide) (by decide) (by decide)
theorem witness_fetchedWord : ∀ r ∈ endings, Inv (runnerEnds r 30) ∧
    (runnerEnds r 30).pc.toNat + (runnerEnds r 30).cfg.width ≤ (runnerEnds r 30).cfg.memSize ∧
    ∀ word, runScript (runnerEnds r 30).cfg.run [word] [] (beforeRun (runnerEnds r 30) word) =
      .next (beforeRun (runnerEnds r 30) word, evalRet [word] [] r) :=
  fun r hr => ⟨runnerEnds_inv hr, by revert r; decide, fun _ => rfl⟩
theorem witness_instructionWord : (0xFFFF : Word).toNat < 2 ^ (8 * (at32 0).cfg.width) ∧
    runScript (at32 0).cfg.run [0xFFFF] [] { at32 0 with events := (at32 0).events ++ [.ran 0xFFFF] } =
      .next ({ at32 0 with events := [.ran 0xFFFF] }, .ok) := ⟨by decide, rfl⟩
theorem witness_fetchFaultWithCallback : ∀ r ∈ endings,
    ((callbackEnds r 31).cfg.cb = some (.ret r) ∧
      (callbackEnds r 31).cfg.memSize < (callbackEnds r 31).pc.toNat + (callbackEnds r 31).cfg.width) ∧
    (callbackEnds r 30).pc.toNat + (callbackEnds r 30).cfg.width ≤ (callbackEnds r 30).cfg.memSize ∧
    exec .cycleStep (callbackEnds r 30) = .next (nextOf .cycleStep (callbackEnds r 30)) :=
  fun r hr => ⟨⟨rfl, by revert r; decide⟩, by revert r; decide, exec_nextOf (by revert r; decide)⟩
theorem witness_runnerError : Inv (runnerEnds (.payload (.lit 1)) 30) ∧
    (runnerEnds (.payload (.lit 1)) 30).pc.toNat + 2 ≤ 32 ∧ Ending.payload 1 ≠ .ok ∧
    ∀ word, runScript (runnerEnds (.payload (.lit 1)) 30).cfg.run [word] []
      (beforeRun (runnerEnds (.payload (.lit 1)) 30) word) =
      .next (beforeRun (runnerEnds (.payload (.lit 1)) 30) word, .payload 1) :=
  ⟨runnerEnds_inv (by decide), by decide, by decide, fun _ => rfl⟩
theorem witness_cycleStep : exec .cycleStep (at32 0) = .next (nextOf .cycleStep (at32 0)) := exec_nextOf (by decide)

/-- A fault that is suppressed and changes nothing (V-C8). -/
def suppressed : State := { callbackEnds .ok 31 with reply := .ok }
theorem witness_suppressedFault : suppressed.cfg.cb = some (.ret .ok) ∧
    suppressed.cfg.memSize < suppressed.pc.toNat + suppressed.cfg.width ∧ suppressed.inbox = [] ∧
    suppressed.chan = [] ∧ suppressed.pend = [] ∧ suppressed.held = [] ∧ suppressed.reply = .ok := by decide
theorem witness_suppressedFaultAges : exec .schedStep { suppressed with pend := [x 1, y 0] } =
      .next (nextOf .schedStep { suppressed with pend := [x 1, y 0] }) ∧
    runScript (.ret .ok) [31, 2, 1] [] { suppressed with
      pend := [x 1, y 0], events := [.calledBack ⟨31, 2, true⟩] } =
      .next ({ suppressed with pend := [x 1, y 0], events := [.calledBack ⟨31, 2, true⟩] }, .ok) :=
  ⟨exec_nextOf (by decide), rfl⟩

/-- The channel with room for one more, full under REJECT, and full under BLOCK. -/
theorem witness_submit :
    { at32 0 with chan := [x 0] }.chan.length < (at32 0).cfg.chanCap ∧
    ((at32 0).cfg.chanCap ≤ { at32 0 with chan := [x 0, y 0] }.chan.length ∧ (at32 0).cfg.fullPolicy = .reject) ∧
    { Config.standard with fullPolicy := .block }.fullPolicy = .block := by decide
theorem witness_faultedStep : exec .cycleStep { at32 31 with pend := [x 0], chan := [y 0] } =
      .next (nextOf .cycleStep { at32 31 with pend := [x 0], chan := [y 0] }) ∧
    (nextOf .cycleStep { at32 31 with pend := [x 0], chan := [y 0] }).reply.isErr = true :=
  ⟨exec_nextOf (by decide), by decide⟩

/-- Two pending actions and two in the channel, one of each due at once. -/
def busy : State := { at32 0 with pend := [x 1, y 0], chan := [x 0, y 2] }
def busy1 : State := nextOf .cycleStep busy
theorem witness_successfulStep : exec .cycleStep busy = .next busy1 ∧ busy1.reply = .ok ∧
    ∃ s2 survivors, traverse (busy1.pend ++ busy1.chan.take (drainCount busy1))
      { busy1 with
        chan := busy1.chan.drop (drainCount busy1)
        pend := busy1.pend ++ busy1.chan.take (drainCount busy1) } = .next (s2, survivors) :=
  ⟨exec_nextOf (by decide), by decide, _, _, rfl⟩
theorem witness_firing : runScript (at32 0).cfg.act [7] [] { at32 0 with events := [.fired (x 0)] } =
    .next ({ at32 0 with events := [.fired (x 0)] }, .ok) := rfl
theorem okStep_nextOf {s : State} (h : (after .schedStep s).isSome = true) (hr : (nextOf .schedStep s).reply = .ok) :
    OkStep s (nextOf .schedStep s) := ⟨exec_nextOf h, hr⟩
/-- Operation `i` from `s`, where it is not a SCHED.STEP that returns OK. -/
theorem countedRun_other {n : Nat} {s u : State} (i : Instr) (h : CountedRun n s u) (hi : (after i u).isSome = true)
    (hn : ¬ (i = .schedStep ∧ (nextOf i u).reply = .ok)) : CountedRun n s (nextOf i u) := .other i h (exec_nextOf hi) hn
/-- After one successful step the host sends the PC out of memory, a step faults, and the host puts the PC back: no
step is counted. Then two more succeed. -/
def first : State := nextOf .schedStep busy
def faulted : State := nextOf .schedStep (nextOf (.regSetInt 4 31) first)
def resumed : State := nextOf (.regSetInt 4 0) faulted
theorem witness_exactTiming : exec .cycleStep busy = .next busy1 ∧ OkStep busy first ∧ CountedRun 0 first first ∧
    CountedRun 0 first resumed ∧ faulted.reply.isErr = true ∧ OkStep resumed (nextOf .schedStep resumed) ∧
    CountedRun 1 first (nextOf .schedStep resumed) ∧
    OkStep (nextOf .schedStep resumed) (nextOf .schedStep (nextOf .schedStep resumed)) ∧
    (∃ t, exec (.regSetInt 4 31) first = .next t ∧ ¬ (Instr.regSetInt 4 31 = .schedStep ∧ t.reply = .ok)) :=
  have run : CountedRun 0 first resumed :=
    countedRun_other _ (countedRun_other _ (countedRun_other _ (.start _) (by decide) (by decide)) (by decide)
      (by decide)) (by decide) (by decide)
  have next : OkStep resumed (nextOf .schedStep resumed) := okStep_nextOf (by decide) (by decide)
  ⟨exec_nextOf (by decide), okStep_nextOf (by decide) (by decide), .start _, run, by decide, next, .counted run next,
    okStep_nextOf (by decide) (by decide), _, exec_nextOf (by decide), by decide⟩
theorem busy_inv : Inv busy :=
  inv_of_checks (by decide) (by decide) (by decide) (by decide) (by decide) (by decide) (by decide) (by decide)
theorem blocked_inv : Inv blocked :=
  inv_of_checks (by decide) (by decide) (by decide) (by decide) (by decide) (by decide) (by decide) (by decide)
theorem witness_nothingIsLost_released : Inv blocked ∧ OkStep blocked (nextOf .schedStep blocked) ∧ blocked.held ≠ [] :=
  ⟨blocked_inv, okStep_nextOf (by decide) (by decide), by decide⟩
theorem witness_nothingIsLost : Inv busy ∧ OkStep busy (nextOf .schedStep busy) ∧
    (Instr.schedSubmit 7 0 0 ≠ .schedStep ∧ exec (.schedSubmit 7 0 0) (at32 0) =
      .next (nextOf (.schedSubmit 7 0 0) (at32 0))) ∧
    exec .schedStep (at32 31) = .next (nextOf .schedStep (at32 31)) ∧ (nextOf .schedStep (at32 31)).reply ≠ .ok :=
  ⟨busy_inv, okStep_nextOf (by decide) (by decide), ⟨by decide, exec_nextOf (by decide)⟩, exec_nextOf (by decide),
    by decide⟩
/-- A successful step from a pending list with the ends of the range of delays, and one counted step of it. -/
def delayed : State := { at32 0 with pend := [x 0xFFFFFFFFFFFFFFFF, x 0, x 1] }
theorem witness_delays : OkStep delayed (nextOf .schedStep delayed) ∧ CountedRun 1 delayed (nextOf .schedStep delayed) :=
  have h : OkStep delayed (nextOf .schedStep delayed) := okStep_nextOf (by decide) (by decide)
  ⟨h, .counted (.start _) h⟩
/-- Two states that differ in a tag. -/
theorem witness_tags : SameButTags busy { busy with pend := [{ x 1 with description := 1 }, y 0] } ∧
    busy ≠ { busy with pend := [{ x 1 with description := 1 }, y 0] } := by
  unfold SameButTags; decide
theorem witness_tagsEndings : exec .schedStep busy = .next (nextOf .schedStep busy) ∧
    stopped .cycleStep (at32 0 { Config.standard with run := .hang }) = some .stepperHung ∧
    refusalOfExec (.regGetInt 5) busy = some (.registerOutsideBank 5) := ⟨exec_nextOf (by decide), by decide, by decide⟩
theorem witness_statusCodes :
    (∀ i ∈ [Instr.memReadByte 16, .memWriteByte 1 3, .memReadRaw 0 4, .memWriteRaw [1] 16, .memReadU16 .le 0,
        .memReadU32 .le 0, .memReadU64 .le 0, .memReadF32 .le 0, .memReadF64 .le 0, .memWriteU16 .le 0 1,
        .memWriteU32 .le 0 1, .memWriteU64 .le 0 1, .memWriteF32 .le 0 1, .memWriteF64 .le 0 1, .regSetInt 0 1,
        .regGetInt 0, .regIncInt 0 1, .regDecInt 0 1, .regSetFloat 0 1, .regGetFloat 0, .regIncFloat 0 1,
        .regDecFloat 0 1, .regCanWrite 0, .pcIncrement 1, .pcRead, .schedSubmit 1 2 3, .cycleStep, .schedStep, .runWord 1],
      exec i blank = .next (nextOf i blank)) ∧ blank.cfg.fullPolicy = .reject :=
  ⟨fun i hi => exec_nextOf (by revert i; decide), by decide⟩
theorem witness_producer : { blank with inbox := [⟨.producer, 0x51, []⟩] }.inbox = ⟨.producer, 0x51, []⟩ :: [] ∧
    decodeOp 0x51 [] = .ok .schedStep ∧ (0x51 : Byte) ≠ 0x50 := ⟨rfl, rfl, by decide⟩
/-- The block with one script for RUN, CB and bodies, two actions waiting of which the second is due, and the PC at
`pc`. -/
def withStepper (p : Script) (pc : Word) : State :=
  { at32 pc { Config.standard with run := p, cb := some p, act := p } with pend := [x 1, y 0] }
/-- Scripts that make a call, take a branch on its status, and then stop. -/
def afterCall (p : Script) : Script := .call ⟨0x01, [.num (.lit 0)]⟩ (.branch (.code 0) (.ret .ok) p)
def invokes (op : Byte) : Script := afterCall (.call ⟨op, []⟩ (.ret .ok))
def hangs : Script := afterCall .hang
/-- The bodies alone stop, so that the inner step succeeds. -/
def withBody (p : Script) : State := { at32 0 { Config.standard with act := p } with pend := [x 1, y 0] }
/-- Where each of the three scripts and an instruction word meets what `StopsWithItsScripts` asks: the premises of its
four clauses. -/
theorem witness_stops : ∀ pe ∈ [(invokes 0x40, Stop.refused .stepInsideStep), (invokes 0x51, .refused .stepInsideStep),
      (hangs, .fault .stepperHung)],
    (((withStepper pe.1 30).pc.toNat + 2 ≤ 32 ∧ ∀ word,
      runScript pe.1 [word] [] ((withStepper pe.1 30).advancePc 2 |>.log (.ran word)) = pe.2.result) ∧
    ((withStepper pe.1 31).cfg.cb = some pe.1 ∧ 32 < (withStepper pe.1 31).pc.toNat + 2 ∧
      runScript pe.1 [31, 2, 1] [] ((withStepper pe.1 31).log (.calledBack ⟨31, 2, true⟩)) = pe.2.result) ∧
    ((0xFFFF : Word).toNat < 2 ^ 16 ∧
      runScript pe.1 [0xFFFF] [] ((withStepper pe.1 0).log (.ran 0xFFFF)) = pe.2.result) ∧
    ∃ s1 u survivors, exec .cycleStep (withBody pe.1) = .next s1 ∧ s1.reply = .ok ∧
      traversed s1 = [x 1] ++ y 0 :: [] ∧ (y 0).delay = 0#64 ∧
      traverse [x 1] { s1 with chan := s1.chan.drop (drainCount s1), pend := traversed s1 } = .next (u, survivors) ∧
      runScript u.cfg.act [(y 0).action] [] (u.log (.fired (y 0))) = pe.2.result) := by
  intro pe hpe
  simp only [List.mem_cons, List.not_mem_nil, or_false] at hpe
  rcases hpe with rfl | rfl | rfl <;>
    exact ⟨⟨by decide, fun _ => rfl⟩, ⟨rfl, by decide, rfl⟩, ⟨by decide, rfl⟩, _, _, _, rfl, rfl, rfl, rfl, rfl, rfl⟩
/-- A stepper that calls an operation of every shape: it is admitted. -/
def worker : Script :=
  .call ⟨0x01, [.num (.arg 0)]⟩ <| .call ⟨0x02, [.num (.bin .and (.val 0) (.lit 255)), .num (.lit 3)]⟩ <|
  .call ⟨0x04, [.bytes [.val 0, .arg 0], .num (.lit 1)]⟩ <| .call ⟨0x10, [.num (.lit 0), .num (.arg 0)]⟩ <|
  .call ⟨0x18, [.num (.lit 0), .num (.arg 0), .num (.lit 0xFFFF)]⟩ <| .call ⟨0x21, [.num (.lit 4)]⟩ <|
  .call ⟨0x22, [.num (.lit 3), .num (.val 0)]⟩ <| .call ⟨0x26, [.num (.lit 3), .num (.val 0)]⟩ <|
  .call ⟨0x30, [.num (.arg 0)]⟩ <| .call ⟨0x31, []⟩ <| .call ⟨0x50, [.num (.arg 0), .num (.val 0), .num (.lit 0)]⟩ <|
  .branch (.code 0) (.ret (.payload (.val 0))) (.ret .ok)
def workshop : State := State.ofCfg { cfg with run := worker, cb := some worker, act := worker }
theorem witness_admitted : stepperAdmitted workshop.cfg = true ∧ workshop.inbox = [] ∧
    workshop.pc.toNat + workshop.cfg.width ≤ workshop.cfg.memSize ∧
    (0xFFFF : Word).toNat < 2 ^ (8 * workshop.cfg.width) := by decide
/-- Both orders, at both levels, and calls that decode to an operation, to a refused one, and to nothing. -/
theorem witness_coreAccess : ByteOrder.be = blank.cfg.order ∧ ByteOrder.le ≠ blank.cfg.order ∧
    decodeOp 0x10 [.num 0, .num 0] = .ok (.memReadU16 .be 0) ∧ decodeOp 0x10 [.num 1, .num 0] = .ok (.memReadU16 .le 0) ∧
    (∀ l xs, { blank with inbox := [⟨.host l, 0x10, xs⟩] }.inbox = ⟨.host l, 0x10, xs⟩ :: []) :=
  ⟨rfl, by decide, rfl, rfl, fun _ _ => rfl⟩
theorem witness_calls : decodeOp 0x31 [] = .ok .pcRead ∧
    innerOp .pcRead blank = .next (blank.answer (.okVal (.bits 64 0))) ∧
    decodeOp 0x21 [.num 9] = .ok (.regGetInt 9) ∧ innerOp (.regGetInt 9) blank = .refused (.registerOutsideBank 9) ∧
    decodeOp 0x05 [] = .error (.reservedSelect 5) ∧ (Reply.err (.av ⟨0, 1, true⟩)).code = some 1 :=
  ⟨rfl, rfl, rfl, rfl, rfl, rfl⟩
theorem witness_construction : cfg.WellFormed ∧ cfg.regs[1]? = some ⟨.concrete, 8, 0⟩ ∧
    cfg.regs[0]? = some ⟨.zero, 8, 0⟩ ∧ cfg.regs[cfg.pcIndex]? = some ⟨.concrete, 16, 0⟩ ∧
    ¬ { cfg with width := 3 }.WellFormed ∧ construct cfg = .next blank :=
  ⟨by decide, by decide, by decide, by decide, by decide, by rw [construct, if_pos (by decide)]; rfl⟩
theorem witness_stepKeepsInvariant : Inv busy ∧ ∃ t, step busy = .next t := ⟨busy_inv, _, rfl⟩
theorem witness_stepRuns :
    { blank with inbox := [⟨.producer, 0x50, [.num 1, .num 2, .num 3]⟩] }.inbox =
      ⟨.producer, 0x50, [.num 1, .num 2, .num 3]⟩ :: [] ∧
    decodeOp 0x50 [.num 1, .num 2, .num 3] = .ok (.schedSubmit 1 2 3) ∧ (0x50 : Byte) = 0x50 ∧ blank.inbox = [] ∧
    decodeOp 0x10 [.num 0, .num 0] = .ok (.memReadU16 .be 0) ∧
    (∀ o, orderOf? (.memReadU16 .be 0) = some o → o = blank.cfg.order) :=
  ⟨rfl, rfl, rfl, rfl, rfl, by decide⟩
theorem witness_cycleRuns : Inv (at32 0) ∧ (at32 0).pc.toNat + (at32 0).cfg.width ≤ (at32 0).cfg.memSize ∧
    decodeWord (at32 0).cfg ((at32 0).mem.readBytes (at32 0).pc.toNat (at32 0).cfg.width) = .ok (.runWord 0) :=
  ⟨at32_inv, by decide, rfl⟩

end Sys2Proof.Tests
end

section
/-! PROOFS of the family 10_state.md: what an operation from outside can do, that the register bank is stable, that
every step keeps the invariant, the wrap of the PC's advance, and construction. -/

namespace Sys2Proof.Machine

/-! ### What an operation from outside can do -/

/-- The traversal and the release of a step whose inner step returned OK, when they go on (R204). -/
theorem afterInner_eq_next {s t : State} (h : afterInner s = .next t) : ∃ u,
    traverse (traversed s) { s with chan := s.chan.drop (drainCount s), pend := traversed s } =
      .next (u, aged 1 (traversed s)) ∧
    t = (u.setQueues u.chan (aged 1 (traversed s)) u.held).release.answer .ok := by
  rw [afterInner_eq] at h
  obtain ⟨⟨u, survivors⟩, hu, h⟩ := Result.andThen_eq_next h
  cases h
  obtain ⟨rfl, -⟩ := traverse_keeps hu
  exact ⟨u, hu, rfl⟩

/-- All that an operation invoked from outside does when it goes on: it is one of `OpCase`; a cycle; RUN on an
instruction word; or a cycle and, after it, the drain, the traversal and the release. -/
inductive ExecCase (s t : State) : Prop where
  | op (h : OpCase false s t)
  | cycle (h : cycleOnce s = .next t)
  | word (w : Word) (h : dispatchWord w s = .next t)
  | scheduled (u : State) (hu : cycleOnce s = .next u) (h : afterInner u = .next t)

theorem execSchedStep_cases {s t : State} (h : execSchedStep s = .next t) : ExecCase s t := by
  obtain ⟨u, hu, h⟩ := Result.andThen_eq_next h
  split at h
  · cases h; exact .cycle hu
  · exact .scheduled u hu h

theorem exec_execCase {i : Instr} {s t : State} (h : exec i s = .next t) : ExecCase s t := by
  by_cases hc : i = .cycleStep
  · subst hc; exact .cycle h
  by_cases hs : i = .schedStep
  · subst hs; exact execSchedStep_cases h
  by_cases hw : ∃ w, i = .runWord w
  · obtain ⟨w, rfl⟩ := hw; exact .word w (dispatchWord_of_exec h)
  · exact .op (exec_cases h hc hs fun w hi => hw ⟨w, hi⟩)

/-! ### The register bank (R25) -/

/-- The same configuration, and as many registers. -/
structure SameBank (s t : State) : Prop where
  cfg  : t.cfg = s.cfg
  size : t.regs.length = s.regs.length

theorem SameBank.refl (s : State) : SameBank s s := ⟨rfl, rfl⟩

theorem SameBank.trans {s t u : State} (h : SameBank s t) (k : SameBank t u) : SameBank s u :=
  ⟨k.cfg.trans h.cfg, k.size.trans h.size⟩

theorem writeReg_sameBank (s : State) (i : Nat) (v : Word) : SameBank s (s.writeReg i v) := by
  rcases writeReg_cases s i v with h | ⟨w, x, -, h⟩ <;> rw [h]
  · exact .refl s
  · exact ⟨rfl, by simp⟩

theorem OpCase.sameBank {inside : Bool} {s t : State} (h : OpCase inside s t) : SameBank s t := by
  cases h with
  | status r => exact ⟨rfl, rfl⟩
  | store a data h => exact ⟨rfl, rfl⟩
  | register i v => exact ⟨writeReg_cfg s i v, (writeReg_sameBank s i v).size⟩
  | submitted x h => exact ⟨rfl, rfl⟩
  | heldBack x hi hp h => exact ⟨rfl, rfl⟩

theorem runScript_log_sameBank {p : Script} {args : List Word} {s t : State} {ev : Event} {e : Ending}
    (h : runScript p args [] (s.log ev) = .next (t, e)) : SameBank s t :=
  runScript_induct (P := SameBank s) (fun hu hk => hk.trans hu.sameBank) h ⟨rfl, rfl⟩

theorem dispatchWord_sameBank {w : Word} {s t : State} (h : dispatchWord w s = .next t) : SameBank s t := by
  obtain ⟨⟨u, e⟩, hu, h⟩ := Result.andThen_eq_next h
  cases h
  have k := runScript_log_sameBank hu
  exact ⟨k.cfg, k.size⟩

theorem fetchFault_sameBank {av : AccessViolation} {s t : State} (h : fetchFault av s = .next t) : SameBank s t := by
  unfold fetchFault at h
  split at h
  · cases h; exact ⟨rfl, rfl⟩
  · obtain ⟨⟨u, e⟩, hu, h⟩ := Result.andThen_eq_next h
    cases h
    have k := runScript_log_sameBank hu
    exact ⟨k.cfg, k.size⟩

theorem cycleOnce_sameBank {s t : State} (h : cycleOnce s = .next t) : SameBank s t := by
  unfold cycleOnce at h
  split at h
  · exact fetchFault_sameBank h
  · exact (writeReg_sameBank s _ _).trans (dispatchWord_sameBank h)

theorem fire_sameBank {x : Action} {s t : State} (h : fire x s = .next t) : SameBank s t := by
  obtain ⟨⟨u, e⟩, hu, h⟩ := Result.andThen_eq_next h
  cases h
  exact runScript_log_sameBank hu

theorem traverse_sameBank {l survivors : List Action} {s t : State} (h : traverse l s = .next (t, survivors)) :
    SameBank s t := by
  induction l generalizing s survivors with
  | nil => cases h; exact .refl _
  | cons x xs ih =>
    rw [traverse] at h
    split at h
    · obtain ⟨u, hu, h⟩ := Result.andThen_eq_next h
      exact (fire_sameBank hu).trans (ih h)
    · obtain ⟨⟨u, survivors'⟩, hu, h⟩ := Result.andThen_eq_next h
      cases h
      exact ih hu

theorem afterInner_sameBank {s t : State} (h : afterInner s = .next t) : SameBank s t := by
  obtain ⟨u, hu, rfl⟩ := afterInner_eq_next h
  have k := traverse_sameBank hu
  exact ⟨k.cfg, k.size⟩

theorem exec_sameBank {i : Instr} {s t : State} (h : exec i s = .next t) : SameBank s t := by
  cases exec_execCase h with
  | op h => exact h.sameBank
  | cycle h => exact cycleOnce_sameBank h
  | word w h => exact dispatchWord_sameBank h
  | scheduled u hu h => exact (cycleOnce_sameBank hu).trans (afterInner_sameBank h)

theorem withRegisterValue_none {i : Nat} {v : Word} {s : State} {k : RegSpec → Result State}
    (h : s.cfg.regs[i]? = none) : withRegisterValue i v s k = .refused (.registerOutsideBank i) :=
  withRegister_none h

/-! ### The invariant (R21 to R25, R32, R33) -/

/-- What keeps the block's invariant, the configuration, the pending list and what is held, and takes nothing from the
channel, keeps the invariant: a channel that was full still is. -/
theorem Inv.of_grown_chan {s t : State} (hs : Inv s) (ht : BlockInv t) (hcfg : t.cfg = s.cfg) (hpend : t.pend = s.pend)
    (hheld : t.held = s.held) (hchan : s.chan <+: t.chan) : Inv t where
  config := hcfg ▸ hs.config
  canonical := ht.canonical
  inside := ht.inside
  bankSize := ht.bankSize
  slots := ht.slots
  chanBound := ht.chanBound
  pendBound := by rw [hcfg, hpend]; exact hs.pendBound
  heldWaits hne := by
    rw [hheld] at hne
    obtain ⟨hblock, hfull⟩ := hs.heldWaits hne
    have hle := ht.chanBound
    have hge := hchan.length_le
    rw [hcfg] at hle ⊢
    exact ⟨hblock, by omega⟩

/-- A submission enters the channel where it has room, so nothing waits; and BLOCK holds one where it has none. -/
theorem Inv.of_opCase {s t : State} (hs : Inv s) (h : OpCase false s t) : Inv t := by
  have ht : BlockInv t := h.keepsInv hs.block
  cases h with
  | status r => exact hs.of_grown_chan ht rfl rfl rfl (List.prefix_refl _)
  | store a data h => exact hs.of_grown_chan ht rfl rfl rfl (List.prefix_refl _)
  | register i v =>
    rw [writeReg_frame] at ht ⊢
    exact hs.of_grown_chan ht rfl rfl rfl (List.prefix_refl _)
  | submitted x h => exact hs.of_grown_chan ht rfl rfl rfl (List.prefix_append _ _)
  | heldBack x hi hp h =>
    exact ⟨hs.config, ht.canonical, ht.inside, ht.bankSize, ht.slots, ht.chanBound, hs.pendBound,
      fun _ => ⟨hp, le_antisymm hs.chanBound h⟩⟩

theorem Inv.of_cycleOnce {s t : State} (hs : Inv s) (h : cycleOnce s = .next t) : Inv t := by
  obtain ⟨added, k⟩ := cycleOnce_keeps h
  exact hs.of_grown_chan (cycleOnce_keepsInv h hs.block) k.cfg k.pend k.held k.chan

theorem Inv.of_dispatchWord {w : Word} {s t : State} (hs : Inv s) (h : dispatchWord w s = .next t) : Inv t :=
  have k := dispatchWord_keeps h
  hs.of_grown_chan (dispatchWord_keepsInv h hs.block) k.cfg k.pend k.held k.chan

/-- A drain takes from the channel, so it keeps the channel's bound, whatever it leaves. -/
theorem BlockInv.drained {s : State} (h : BlockInv s) (n : Nat) (pend : List Action) :
    BlockInv { s with chan := s.chan.drop n, pend := pend } :=
  ⟨h.canonical, h.inside, h.bankSize, h.slots, (List.drop_sublist n s.chan).length_le.trans h.chanBound⟩

/-- The drain fills the pending list to PMAX at most (R33, R206). -/
theorem Inv.traversed_bound {s : State} (h : Inv s) : ∀ m ∈ s.cfg.pendCap, (traversed s).length ≤ m := by
  obtain ⟨taken, -, hpend, -, hbound⟩ := drain_cases s.cfg.pendCap s.chan s.pend
  rw [traversed, hpend]
  exact hbound h.pendBound

/-- Ageing makes no action, and the release leaves one held only where it has filled the channel. -/
theorem Inv.of_afterInner {s t : State} (hs : Inv s) (h : afterInner s = .next t) : Inv t := by
  obtain ⟨u, hu, rfl⟩ := afterInner_eq_next h
  have hb : BlockInv u := traverse_keepsInv hu (hs.block.drained _ _)
  obtain ⟨-, -, hcfg, -, hheld, -⟩ := traverse_keeps hu
  obtain ⟨released, hsplit, -, -, hbound, hfull⟩ :=
    State.release_cases (u.setQueues u.chan (aged 1 (traversed s)) u.held) hb.chanBound
  have hcfg : u.cfg = s.cfg := hcfg
  refine ⟨hcfg ▸ hs.config, hb.canonical, hb.inside, hb.bankSize, hb.slots, hbound, fun m hm => ?_, fun hne => ?_⟩
  · exact (aged_length_le 1 _).trans (hs.traversed_bound m (hcfg ▸ hm))
  · have hwaited : s.held ≠ [] := fun hnil => hne <| by
      have hnil : u.held = [] := hheld.trans hnil
      simp [hnil]
    exact ⟨hcfg ▸ (hs.heldWaits hwaited).1, hfull hne⟩

theorem Inv.of_exec {i : Instr} {s t : State} (hs : Inv s) (h : exec i s = .next t) : Inv t := by
  cases exec_execCase h with
  | op h => exact hs.of_opCase h
  | cycle h => exact hs.of_cycleOnce h
  | word w h => exact hs.of_dispatchWord h
  | scheduled u hu h => exact (hs.of_cycleOnce hu).of_afterInner h

theorem Inv.setInbox {s : State} (h : Inv s) (ts : List Txn) : Inv (s.setInbox ts) :=
  ⟨h.config, h.canonical, h.inside, h.bankSize, h.slots, h.chanBound, h.pendBound, h.heldWaits⟩

/-- Taking the next operation out of the inbox touches nothing that the invariant speaks of. -/
theorem Inv.of_nextOperation {s u : State} {i : Instr} (hs : Inv s) (h : nextOperation s = .next (i, u)) :
    Inv u := by
  rcases nextOperation_cases h with ⟨-, -, rfl⟩ | ⟨t, rest, -, -, -, rfl⟩
  · exact hs
  · exact hs.setInbox rest

/-- Settles O58: the next operation is taken out of the inbox, and every operation keeps the invariant. -/
theorem stepKeepsInvariant : Obligations.StepKeepsInvariant := by
  unfold Obligations.StepKeepsInvariant
  intro s t hs h
  obtain ⟨⟨i, u⟩, hu, h⟩ := Result.andThen_eq_next h
  exact (hs.of_nextOperation hu).of_exec h

/-- Settles O27: no operation changes the bank's shape, and the bank's lookup comes first in a register operation. -/
theorem registerBankIsStable : Obligations.RegisterBankIsStable := by
  unfold Obligations.RegisterBankIsStable
  refine ⟨fun i s t h => ⟨(exec_sameBank h).cfg, (exec_sameBank h).size⟩, fun s i v hi op hop => ?_⟩
  have hnone : s.cfg.regs[i]? = none := List.getElem?_eq_none hi
  simp only [List.mem_cons, List.not_mem_nil, or_false] at hop
  rcases hop with rfl | rfl | rfl | rfl | rfl | rfl | rfl | rfl | rfl
  · exact withRegisterValue_none hnone
  · exact withRegister_none hnone
  · exact withRegisterValue_none hnone
  · exact withRegisterValue_none hnone
  · exact withRegisterValue_none hnone
  · exact withRegister_none hnone
  · exact withRegisterValue_none hnone
  · exact withRegisterValue_none hnone
  · exact withRegister_none hnone

/-! ### The advance of the PC (R30) -/

theorem readReg_writeReg_same {s : State} {i w : Nat} {x : Word} (v : Word)
    (h : s.cfg.regs[i]? = some ⟨.concrete, w, x⟩) (hlt : i < s.regs.length) :
    (s.writeReg i v).readReg i = lowBits w v := by
  rw [writeReg_concrete v h, readReg_concrete (s := s.setSlot i _) h, State.setSlot_regs,
    List.getD_eq_getElem (hn := by simpa using hlt), List.getElem_set_self]

/-- The PC after an advance by any delta, as a number. -/
theorem Inv.pc_advancePc {s : State} (h : Inv s) (d : Word) :
    (s.advancePc d).pc.toNat = (s.pc.toNat + d.toNat) % 2 ^ pcWidth s.cfg := by
  obtain ⟨w, x, hreg, hw, hwidth, hlt, -⟩ := h.pc_register
  have hle : w ≤ 64 := by simp at hwidth; omega
  have hmod : (s.pc.toNat + d.toNat) % 2 ^ w < 2 ^ 64 :=
    (Nat.mod_lt _ (Nat.two_pow_pos w)).trans_le (Nat.pow_le_pow_right (by decide) hle)
  have hpc : (s.advancePc d).pc = lowBits w (s.pc + d) := by
    rw [State.pc, State.advancePc, writeReg_cfg, readReg_writeReg_same _ hreg hlt]
  rw [hpc, lowBits_add hle, hw, BitVec.toNat_ofNat, Nat.mod_eq_of_lt hmod]

/-- Settles O32: the advance is the sum modulo 2^W_PC, a fetch in bounds ends below 2^64, and an instruction is narrower
than any PC's range, so that a sum past the range has wrapped once. -/
theorem advanceWrapsBelowSixtyFourBits : Obligations.AdvanceWrapsBelowSixtyFourBits := by
  unfold Obligations.AdvanceWrapsBelowSixtyFourBits
  intro s h hfetch
  have hadv := h.pc_advancePc (BitVec.ofNat 64 s.cfg.width)
  rw [h.width_toNat] at hadv
  obtain ⟨hsize, hwidth, -⟩ := h.config
  obtain ⟨w, x, -, hw, hpcw, -, -, hfits⟩ := h.pc_register
  rw [hadv, hw]
  refine ⟨rfl, fun h64 => ?_, fun _ hpast => ?_⟩
  · rw [h64]
    exact Nat.mod_eq_of_lt (by omega)
  · have hnarrow : s.cfg.width < 2 ^ w :=
      calc s.cfg.width ≤ 8 := by simp at hwidth; omega
        _ < 2 ^ 8 := by decide
        _ ≤ 2 ^ w := Nat.pow_le_pow_right (by decide) (by simp at hpcw; omega)
    have honce : 2 ^ w ≤ s.pc.toNat + s.cfg.width := by omega
    rw [Nat.mod_eq_sub_mod honce, Nat.mod_eq_of_lt (by omega)]
    omega

/-! ### Construction (R40, R270) -/

theorem construct_wellFormed {c : Cfg} (h : c.WellFormed) : construct c = .next (State.ofCfg c) := if_pos h

theorem construct_illFormed {c : Cfg} (h : ¬ c.WellFormed) : construct c = .refused .illFormedConfig := if_neg h

theorem construct_eq_next {c : Cfg} {s : State} (h : construct c = .next s) : c.WellFormed ∧ s = State.ofCfg c := by
  by_cases hc : c.WellFormed
  · rw [construct_wellFormed hc] at h
    cases h
    exact ⟨hc, rfl⟩
  · rw [construct_illFormed hc] at h
    cases h

/-- A Concrete register's slot after construction. -/
theorem ofCfg_slot_concrete {c : Cfg} {i w : Nat} {x : Word} (h : c.regs[i]? = some ⟨.concrete, w, x⟩) :
    (State.ofCfg c).regs.getD i 0#64 = x := by
  simp [State.ofCfg, List.getD_eq_getElem?_getD, h]

/-- A Zero register's slot after construction. -/
theorem ofCfg_slot_zero {c : Cfg} {i w : Nat} {x : Word} (h : c.regs[i]? = some ⟨.zero, w, x⟩) :
    (State.ofCfg c).regs.getD i 0#64 = 0#64 := by
  simp [State.ofCfg, List.getD_eq_getElem?_getD, h]

theorem ofCfg_readReg_concrete {c : Cfg} {i w : Nat} {x : Word} (h : c.regs[i]? = some ⟨.concrete, w, x⟩) :
    (State.ofCfg c).readReg i = x :=
  (readReg_concrete h).trans (ofCfg_slot_concrete h)

/-- REG_INIT fits the Concrete registers, and a Zero register's slot holds 0. -/
theorem ofCfg_slotOk {c : Cfg} (hc : c.WellFormed) {i : Nat} {r : RegSpec} (h : c.regs[i]? = some r) :
    slotOk r ((State.ofCfg c).regs.getD i 0#64) = true := by
  obtain ⟨-, -, -, hregs, -⟩ := hc
  obtain ⟨k, w, x⟩ := r
  cases k with
  | concrete =>
    have hinit : fits w x := (hregs _ (List.mem_of_getElem? h)).2 rfl
    rw [ofCfg_slot_concrete h]
    simpa [slotOk] using hinit
  | zero =>
    rw [ofCfg_slot_zero h]
    simp [slotOk]

theorem ofCfg_inv {c : Cfg} (hc : c.WellFormed) : Inv (State.ofCfg c) := by
  have ⟨_, _, _, _, _, _, _, hcanonical, hinside⟩ := hc
  exact ⟨hc, hcanonical, hinside, by simp [State.ofCfg], fun i r => ofCfg_slotOk hc, Nat.zero_le _,
    fun _ _ => Nat.zero_le _, fun hne => absurd rfl hne⟩

/-- Settles O56: a well-formed configuration gives `State.ofCfg`, whose PC is a Concrete register. -/
theorem constructionGivesInitialContents : Obligations.ConstructionGivesInitialContents := by
  unfold Obligations.ConstructionGivesInitialContents
  refine fun c => ⟨fun hc => ⟨State.ofCfg c, construct_wellFormed hc, rfl, fun _ _ => rfl,
    fun i w x => ofCfg_readReg_concrete, fun i w x h => readReg_zero h, fun r hr => ?_, rfl, rfl⟩,
    construct_illFormed⟩
  obtain ⟨w, x, hpc, -⟩ := (ofCfg_inv hc).pc_register
  have hpc : c.regs[c.pcIndex]? = some ⟨.concrete, w, x⟩ := hpc
  obtain rfl : ⟨.concrete, w, x⟩ = r := Option.some.inj (hpc.symm.trans hr)
  exact ofCfg_readReg_concrete hpc

/-- Settles O57: construction from a well-formed configuration meets the invariant, and the standard one is such. -/
theorem resetMeetsInvariant : Obligations.ResetMeetsInvariant := by
  unfold Obligations.ResetMeetsInvariant
  refine ⟨fun c s h => ?_, ofCfg_inv (by decide)⟩
  obtain ⟨hc, rfl⟩ := construct_eq_next h
  exact ofCfg_inv hc

end Sys2Proof.Machine
end

section
/-! PROOFS of the family 20_memory.md: a narrower read inside a wider write, and what a typed access and a script's call
are at the Memory level, through the core and inside a step. -/

namespace Sys2Proof.Machine

/-! ### A narrower read inside a wider write (R52, R55) -/

/-- How many bytes of an `n`-byte value are less significant than the `m` bytes that lie at offset `j` in it. -/
def bytesBelow (o : ByteOrder) (n m j : Nat) : Nat :=
  match o with
  | .le => j
  | .be => n - m - j

/-- The bytes at offset `j` in a value are the bytes of the value shifted down by those that are less significant. -/
theorem byteOf_offset (o : ByteOrder) {n m j k : Nat} (v : Nat) (hj : j + m ≤ n) (hk : k < m) :
    byteOf o n v (j + k) = byteOf o m (v / 2 ^ (8 * bytesBelow o n m j)) k := by
  cases o with
  | le => simp only [byteOf, bytesBelow, Nat.div_div_eq_div_mul, ← pow_add, ← Nat.mul_add]
  | be =>
    have hplace : n - 1 - (j + k) = n - m - j + (m - 1 - k) := by omega
    simp only [byteOf, bytesBelow, Nat.div_div_eq_div_mul, ← pow_add, ← Nat.mul_add, hplace]

/-- The formulas of R52 are inverse: the bytes of a value sum to its low bits. -/
theorem byteSum_byteOf (o : ByteOrder) (n v : Nat) : byteSum o n (byteOf o n v) = v % 2 ^ (8 * n) := by
  have h := pack_eq_sum o (unpack o n v) 0
  rw [length_unpack, byteSum_congr o n fun k hk => getD_unpack o n v k 0 hk] at h
  rw [← h, pack_unpack]

/-- A typed read in bounds answers the formula of R52 over whatever bytes lie there. -/
theorem loadTyped_of_bytes {s : State} {start : Word} {n : Nat} (o : ByteOrder) {b : Nat → Byte}
    (h : start.toNat + n ≤ s.cfg.memSize) (hb : ∀ k < n, s.mem.read (start.toNat + k) = b k) :
    loadTyped o n start s = .next (s.answer (.okVal (.bits (8 * n) (BitVec.ofNat 64 (byteSum o n b))))) := by
  rw [loadTyped_inBounds o h, pack_readBytes, byteSum_congr o n hb]

/-- After a typed write of `n` bytes, a read of `m` of them in the same order answers the part of the value that the
order puts there (R55). -/
theorem loadTyped_within_storeTyped {s : State} {start : Word} (o : ByteOrder) (n v : Nat) (hw : s.mem.wf)
    (h : start.toNat + n ≤ s.cfg.memSize) : ∃ t, storeTyped o n start v s = .next t ∧
      ∀ (m j : Nat) (a : Word), a.toNat = start.toNat + j → j + m ≤ n →
        loadTyped o m a t = .next (t.answer
          (.okVal (.bits (8 * m) (BitVec.ofNat 64 (v / 2 ^ (8 * bytesBelow o n m j) % 2 ^ (8 * m)))))) := by
  obtain ⟨t, hstore, hframe, -, hbytes, -⟩ := storeTyped_effect o n v hw h
  refine ⟨t, hstore, fun m j a ha hj => ?_⟩
  have hcfg : t.cfg = s.cfg := by rw [hframe]
  have hpart : ∀ k < m, t.mem.read (a.toNat + k) = byteOf o m (v / 2 ^ (8 * bytesBelow o n m j)) k := fun k hk => by
    rw [ha, Nat.add_assoc, hbytes (j + k) (by omega), byteOf_offset o v hj hk]
  rw [loadTyped_of_bytes o (by rw [hcfg]; omega) hpart, byteSum_byteOf]

/-- A field of a value, as a word: the bits from `i` up, `len` of them. -/
theorem ofNat_field {w : Nat} (v : BitVec w) (i len : Nat) :
    BitVec.ofNat 64 (v.toNat / 2 ^ i % 2 ^ len) = (v.extractLsb' i len).setWidth 64 := by
  apply BitVec.eq_of_toNat_eq
  rw [BitVec.toNat_ofNat, BitVec.toNat_setWidth, BitVec.extractLsb'_toNat, Nat.shiftRight_eq_div_pow]

/-- Settles O17: each half is two bytes of the value, shifted down by the bytes that the order puts below them. -/
theorem mixedWidthReadSeesBytes : Obligations.MixedWidthReadSeesBytes := by
  unfold Obligations.MixedWidthReadSeesBytes
  intro s start mid v hw hsize hmid
  obtain ⟨t, ht, hbe⟩ := loadTyped_within_storeTyped .be 4 v.toNat hw hsize
  obtain ⟨u, hu, hle⟩ := loadTyped_within_storeTyped .le 4 v.toNat hw hsize
  simp only [← ofNat_field]
  exact ⟨t, u, ht, hu, hbe 2 2 mid hmid (by decide), hbe 2 0 start rfl (by decide), hle 2 2 mid hmid (by decide),
    hle 2 0 start rfl (by decide)⟩

/-! ### Typed accesses at the Memory level and through the core (R53, R54) -/

theorem loadTyped_completes (o : ByteOrder) (n : Nat) (a : Word) (s : State) : ∃ t, loadTyped o n a s = .next t := by
  by_cases hb : a.toNat + n ≤ s.cfg.memSize
  · exact ⟨_, loadTyped_inBounds o hb⟩
  · exact ⟨_, loadTyped_outOfBounds o (by omega)⟩

theorem storeRaw_completes (a : Word) (data : List Byte) (s : State) : ∃ t, storeRaw a data s = .next t := by
  by_cases hb : a.toNat + data.length ≤ s.cfg.memSize
  · exact ⟨_, storeRaw_inBounds hb⟩
  · exact ⟨_, storeRaw_outOfBounds (by omega)⟩

/-- An operation with an order is a typed access: inside a step it is the same operation made through the core, and at
the Memory level it always completes. -/
theorem innerOp_exec_of_typed {i : Instr} {o : ByteOrder} (h : orderOf? i = some o) (s : State) :
    innerOp i s = throughCore o s (exec i s) ∧ ∃ t, exec i s = .next t := by
  cases i with
  | memReadU16 _ a => cases h; exact ⟨rfl, loadTyped_completes _ _ _ s⟩
  | memReadU32 _ a => cases h; exact ⟨rfl, loadTyped_completes _ _ _ s⟩
  | memReadU64 _ a => cases h; exact ⟨rfl, loadTyped_completes _ _ _ s⟩
  | memReadF32 _ a => cases h; exact ⟨rfl, loadTyped_completes _ _ _ s⟩
  | memReadF64 _ a => cases h; exact ⟨rfl, loadTyped_completes _ _ _ s⟩
  | memWriteU16 _ a v => cases h; exact ⟨rfl, storeRaw_completes _ _ s⟩
  | memWriteU32 _ a v => cases h; exact ⟨rfl, storeRaw_completes _ _ s⟩
  | memWriteU64 _ a v => cases h; exact ⟨rfl, storeRaw_completes _ _ s⟩
  | memWriteF32 _ a f => cases h; exact ⟨rfl, storeRaw_completes _ _ s⟩
  | memWriteF64 _ a f => cases h; exact ⟨rfl, storeRaw_completes _ _ s⟩
  | _ => cases h

theorem throughCore_order {o : ByteOrder} {s : State} (r : Result State) (h : o = s.cfg.order) :
    throughCore o s r = r := if_pos h

theorem throughCore_otherOrder {o : ByteOrder} {s : State} (r : Result State) (h : o ≠ s.cfg.order) :
    throughCore o s r = .refused .orderNotOfCore := if_neg h

theorem orderAdmitted_typed {i : Instr} {o : ByteOrder} (c : Cfg) (h : orderOf? i = some o) :
    orderAdmitted c i ↔ o = c.order := by
  simp [orderAdmitted, h]

/-! ### The oldest transaction (R85, R88) -/

section
variable {s : State} {who : Agent} {op : Byte} {xs : List Operand} {rest : List Txn} {i : Instr}

/-- The oldest transaction, when its agent may invoke its operation, is that operation. -/
theorem step_of_txn (hin : s.inbox = ⟨who, op, xs⟩ :: rest) (hop : decodeOp op xs = .ok i)
    (ha : agentRefusal s.cfg who i = none) : step s = exec i (s.setInbox rest) := by
  simp only [step, nextOperation, hin, hop, ha, Result.andThen_next]

theorem step_of_refused_txn {r : Refusal} (hin : s.inbox = ⟨who, op, xs⟩ :: rest) (hop : decodeOp op xs = .ok i)
    (ha : agentRefusal s.cfg who i = some r) : step s = .refused r := by
  simp only [step, nextOperation, hin, hop, ha, Result.andThen]

end

/-! ### A script's call (R88, R243) -/

section
variable {c : Call} {k : Script} {args : List Word} {answers : List Reply} {s : State}

theorem invoke_of_error {e : DecodeError} (h : decodeOp c.op (c.args.map (evalArg args answers)) = .error e) :
    invoke c args answers s = .refused (refusalOf e) := by
  rw [invoke, h]

theorem invoke_of_ok {i : Instr} (h : decodeOp c.op (c.args.map (evalArg args answers)) = .ok i) :
    invoke c args answers s = innerOp i s := by
  rw [invoke, h]

/-- A call that goes on hands its status to the rest of the script. -/
theorem runScript_call_next {t : State} (h : invoke c args answers s = .next t) :
    runScript (.call c k) args answers s = runScript k args (t.reply :: answers) t := by
  rw [runScript, h, Result.andThen_next]

/-- A refused call refuses its script (log 15). -/
theorem runScript_call_refused {r : Refusal} (h : invoke c args answers s = .refused r) :
    runScript (.call c k) args answers s = .refused r := by
  rw [runScript, h, Result.andThen]

end

/-- Settles O55: a typed access is made through the core wherever an agent has the core alone, every other arm of
`innerOp` is that of `exec`, and a script's call is `innerOp` of its record. -/
theorem coreAccessesPassByteOrder : Obligations.CoreAccessesPassByteOrder := by
  unfold Obligations.CoreAccessesPassByteOrder
  refine ⟨fun s o a v16 v32 v64 i hi => ?_, fun s a n v b data j i hi => ?_, fun c k args answers s => ?_,
    fun args answers r code w v bs f j => ?_⟩
  · have ho : orderOf? i = some o := by
      simp only [List.mem_cons, List.not_mem_nil, or_false] at hi
      rcases hi with rfl | rfl | rfl | rfl | rfl | rfl | rfl | rfl | rfl | rfl <;> rfl
    obtain ⟨hinner, hcompletes⟩ := innerOp_exec_of_typed ho s
    refine ⟨fun h => hinner.trans (throughCore_order _ h), fun h => hinner.trans (throughCore_otherOrder _ h),
      hcompletes, fun op xs rest hop => ⟨fun hin => step_of_txn hin hop rfl, fun hin => ⟨fun h => ?_, fun h => ?_⟩⟩⟩
    · exact step_of_txn hin hop (if_pos ((orderAdmitted_typed _ ho).2 h))
    · exact step_of_refused_txn hin hop (if_neg (mt (orderAdmitted_typed _ ho).1 h))
  · simp only [List.mem_cons, List.not_mem_nil, or_false] at hi
    rcases hi with rfl | rfl | rfl | rfl | rfl | rfl | rfl | rfl | rfl | rfl | rfl | rfl | rfl | rfl | rfl <;> rfl
  · exact ⟨fun e he => runScript_call_refused (invoke_of_error he),
      fun i t hi ht => runScript_call_next ((invoke_of_ok hi).trans ht),
      fun i r hi hr => runScript_call_refused ((invoke_of_ok hi).trans hr)⟩
  · exact ⟨fun h => by simp [evalExpr, Reply.codeWord, h], rfl, rfl⟩

end Sys2Proof.Machine
end

section
/-! PROOFS of the family 30_encoding.md: the decoder and the encoder are inverse, what the decoder refuses, what a stop
of a script does to the step that runs it, and the word and the operation that a step performs. -/

namespace Sys2Proof

open Machine

/-! ### Fields of an operation record (R85, R87) -/

/-- A number that fits its field is the field's value. -/
@[simp] theorem numOperand_toNat {w : Nat} (v : BitVec w) : numOperand w v.toNat = .ok v := by
  rw [numOperand, if_pos v.isLt, BitVec.ofNat_toNat, BitVec.setWidth_eq]

theorem numOperand_wide {w v : Nat} (h : 2 ^ w ≤ v) : numOperand w v = .error (.operandTooWide w) :=
  if_neg (Nat.not_lt.2 h)

/-- A number of `w` bits is one value's pattern. -/
theorem exists_toNat_eq {w v : Nat} (h : v < 2 ^ w) : ∃ x : BitVec w, v = x.toNat :=
  ⟨BitVec.ofNat w v, (BitVec.toNat_ofNat v w ▸ Nat.mod_eq_of_lt h).symm⟩

theorem numOperand_eq_ok {w n : Nat} {v : BitVec w} : numOperand w n = .ok v ↔ n = v.toNat := by
  constructor
  · intro h
    by_cases hn : n < 2 ^ w
    · obtain ⟨x, rfl⟩ := exists_toNat_eq hn
      rw [numOperand_toNat] at h
      cases h
      rfl
    · rw [numOperand_wide (Nat.not_lt.1 hn)] at h
      cases h
  · rintro rfl
    exact numOperand_toNat v

@[simp] theorem orderOperand_orderCode (o : ByteOrder) : orderOperand (orderCode o) = .ok o := by
  cases o <;> rfl

theorem orderOperand_wide {v : Nat} (h : 2 ^ 1 ≤ v) : orderOperand v = .error (.operandTooWide 1) := by
  rw [orderOperand, if_neg (by omega), if_neg (by omega)]

/-- A one-bit number is the code of an order. -/
theorem exists_orderCode_eq {v : Nat} (h : v < 2 ^ 1) : ∃ o, v = orderCode o := by
  obtain rfl | rfl : v = 0 ∨ v = 1 := by omega
  · exact ⟨.be, rfl⟩
  · exact ⟨.le, rfl⟩

theorem orderOperand_eq_ok {n : Nat} {o : ByteOrder} : orderOperand n = .ok o ↔ n = orderCode o := by
  constructor
  · intro h
    by_cases hn : n < 2 ^ 1
    · obtain ⟨x, rfl⟩ := exists_orderCode_eq hn
      rw [orderOperand_orderCode] at h
      cases h
      rfl
    · rw [orderOperand_wide (Nat.not_lt.1 hn)] at h
      cases h
  · rintro rfl
    exact orderOperand_orderCode o

/-- One field. -/
theorem map_eq_ok {ε α β : Type} {x : Except ε α} {k : α → β} {b : β} :
    x.map k = .ok b ↔ ∃ a, x = .ok a ∧ k a = b := by
  cases x <;> simp [Except.map]

/-- Two fields, read one after the other. -/
theorem bind₂_eq_ok {ε α β γ : Type} {x : Except ε α} {y : Except ε β} {k : α → β → γ} {c : γ} :
    (do return k (← x) (← y)) = Except.ok c ↔ ∃ a b, x = .ok a ∧ y = .ok b ∧ k a b = c := by
  cases x with
  | error e => simp [bind, Except.bind]
  | ok a => cases y <;> simp [bind, Except.bind, pure, Except.pure]

/-- Three fields, read one after the other. -/
theorem bind₃_eq_ok {ε α β γ δ : Type} {x : Except ε α} {y : Except ε β} {z : Except ε γ} {k : α → β → γ → δ}
    {d : δ} : (do return k (← x) (← y) (← z)) = Except.ok d ↔
      ∃ a b c, x = .ok a ∧ y = .ok b ∧ z = .ok c ∧ k a b c = d := by
  cases x with
  | error e => simp [bind, Except.bind]
  | ok a => cases y with
    | error e => simp [bind, Except.bind]
    | ok b => cases z <;> simp [bind, Except.bind, pure, Except.pure]

/-! ### Records by the shape of their operands (R86) -/

/-- Operands of an operation that takes two numbers, of `w` and of `w'` bits. -/
def twoNums (w w' : Nat) (op : Byte) (xs : List Operand) (k : BitVec w → BitVec w' → Instr) :
    Except DecodeError Instr :=
  match xs with
  | [.num a, .num b] => do return k (← numOperand w a) (← numOperand w' b)
  | _ => .error (.wrongOperands op)

/-- Operands of an operation that takes three words. -/
def threeWords (op : Byte) (xs : List Operand) (k : Word → Word → Word → Instr) : Except DecodeError Instr :=
  match xs with
  | [.num a, .num b, .num c] => do return k (← numOperand 64 a) (← numOperand 64 b) (← numOperand 64 c)
  | _ => .error (.wrongOperands op)

theorem decodeOp_memWriteByte (xs : List Operand) : decodeOp 0x02 xs = twoNums 8 64 0x02 xs .memWriteByte := rfl

theorem decodeOp_memReadRaw (xs : List Operand) : decodeOp 0x03 xs = twoNums 64 64 0x03 xs .memReadRaw := rfl

theorem decodeOp_schedSubmit (xs : List Operand) : decodeOp 0x50 xs = threeWords 0x50 xs .schedSubmit := rfl

theorem decodeOp_memWriteRaw (data : List Byte) (a : Nat) : decodeOp 0x04 [.bytes data, .num a] =
    if data.length < 2 ^ 64 then (numOperand 64 a).map (.memWriteRaw data) else .error (.operandTooWide 64) := rfl

section
variable {w : Nat} {op : Byte} {xs : List Operand} {i : Instr}

theorem oneNum_eq_ok {k : BitVec w → Instr} : oneNum w op xs k = .ok i ↔ ∃ a, xs = [.num a.toNat] ∧ k a = i := by
  unfold oneNum
  split
  · rw [map_eq_ok]; simp [numOperand_eq_ok]
  · next hne => simpa using fun a ha => absurd ha (hne _)

theorem readOperands_eq_ok {k : ByteOrder → Word → Instr} :
    readOperands op xs k = .ok i ↔ ∃ o a, xs = [.num (orderCode o), .num a.toNat] ∧ k o a = i := by
  unfold readOperands
  split
  · rw [bind₂_eq_ok]; simp [orderOperand_eq_ok, numOperand_eq_ok, and_assoc]
  · next hne => simpa using fun o a ha => absurd ha (hne _ _)

theorem writeOperands_eq_ok {k : ByteOrder → Word → BitVec w → Instr} :
    writeOperands w op xs k = .ok i ↔
      ∃ o a v, xs = [.num (orderCode o), .num a.toNat, .num v.toNat] ∧ k o a v = i := by
  unfold writeOperands
  split
  · rw [bind₃_eq_ok]; simp [orderOperand_eq_ok, numOperand_eq_ok, and_assoc]
  · next hne => simpa using fun o a v ha => absurd ha (hne _ _ _)

theorem regOperand_eq_ok {k : Nat → Instr} : regOperand op xs k = .ok i ↔ ∃ j, xs = [.num j] ∧ k j = i := by
  unfold regOperand
  split
  · simp
  · next hne => simpa using fun j hj => absurd hj (hne _)

theorem regValueOperands_eq_ok {k : Nat → Word → Instr} :
    regValueOperands op xs k = .ok i ↔ ∃ j v, xs = [.num j, .num v.toNat] ∧ k j v = i := by
  unfold regValueOperands
  split
  · rw [map_eq_ok]; simp [numOperand_eq_ok, and_assoc]
  · next hne => simpa using fun j v hj => absurd hj (hne _ _)

theorem noOperands_eq_ok {i' : Instr} : noOperands op xs i = .ok i' ↔ xs = [] ∧ i = i' := by
  unfold noOperands
  split
  · simp
  · next hne => simpa using fun hxs => absurd hxs hne

theorem twoNums_eq_ok {w' : Nat} {k : BitVec w → BitVec w' → Instr} :
    twoNums w w' op xs k = .ok i ↔ ∃ a b, xs = [.num a.toNat, .num b.toNat] ∧ k a b = i := by
  unfold twoNums
  split
  · rw [bind₂_eq_ok]; simp [numOperand_eq_ok, and_assoc]
  · next hne => simpa using fun a b hab => absurd hab (hne _ _)

theorem threeWords_eq_ok {k : Word → Word → Word → Instr} :
    threeWords op xs k = .ok i ↔ ∃ a b c, xs = [.num a.toNat, .num b.toNat, .num c.toNat] ∧ k a b c = i := by
  unfold threeWords
  split
  · rw [bind₃_eq_ok]; simp [numOperand_eq_ok, and_assoc]
  · next hne => simpa using fun a b c habc => absurd habc (hne _ _ _)

theorem decodeOp_memWriteRaw_eq_ok : decodeOp 0x04 xs = .ok i ↔
    ∃ data a, data.length < 2 ^ 64 ∧ xs = [.bytes data, .num a.toNat] ∧ .memWriteRaw data a = i := by
  constructor
  · intro h
    match xs with
    | [.bytes data, .num a] =>
      rw [decodeOp_memWriteRaw] at h
      split at h
      · next hlen =>
        obtain ⟨v, hv, hi⟩ := map_eq_ok.1 h
        obtain rfl := numOperand_eq_ok.1 hv
        exact ⟨data, v, hlen, rfl, hi⟩
      · cases h
  · rintro ⟨data, a, hlen, rfl, rfl⟩
    rw [decodeOp_memWriteRaw, if_pos hlen, numOperand_toNat]
    rfl

end

/-! ### The select codes (R86, R87) -/

/-- The select codes of the table of R86. -/
def selectCodes : List Byte :=
  [0x01, 0x02, 0x03, 0x04, 0x10, 0x11, 0x12, 0x13, 0x14, 0x18, 0x19, 0x1A, 0x1B, 0x1C, 0x20, 0x21, 0x22, 0x23, 0x24,
    0x25, 0x26, 0x27, 0x28, 0x30, 0x31, 0x40, 0x50, 0x51]

/-- A code outside the table is refused whatever its operands. -/
theorem decodeOp_reserved {op : Byte} (h : op ∉ selectCodes) (xs : List Operand) :
    decodeOp op xs = .error (.reservedSelect op) := by
  simp only [selectCodes, List.mem_cons, List.not_mem_nil, or_false, not_or] at h
  unfold decodeOp
  split
  case h_29 => rfl
  all_goals bv_omega

theorem mem_selectCodes_of_decodeOp {op : Byte} {xs : List Operand} {i : Instr} (h : decodeOp op xs = .ok i) :
    op ∈ selectCodes := by
  by_contra hop
  rw [decodeOp_reserved hop] at h
  cases h

/-- A record that decodes is the one that the encoder writes: the operands of the record are the numbers of the
instruction's own. -/
theorem encode_of_decodeOp {op : Byte} {xs : List Operand} {i : Instr} (c : Cfg) (h : decodeOp op xs = .ok i) :
    encode c i = .operation op xs := by
  have hop := mem_selectCodes_of_decodeOp h
  simp only [selectCodes, List.mem_cons, List.not_mem_nil, or_false] at hop
  rcases hop with rfl | rfl | rfl | rfl | rfl | rfl | rfl | rfl | rfl | rfl | rfl | rfl | rfl | rfl | rfl | rfl | rfl |
    rfl | rfl | rfl | rfl | rfl | rfl | rfl | rfl | rfl | rfl | rfl
  · obtain ⟨a, rfl, rfl⟩ := oneNum_eq_ok.1 h; rfl
  · rw [decodeOp_memWriteByte] at h
    obtain ⟨v, a, rfl, rfl⟩ := twoNums_eq_ok.1 h; rfl
  · rw [decodeOp_memReadRaw] at h
    obtain ⟨a, n, rfl, rfl⟩ := twoNums_eq_ok.1 h; rfl
  · obtain ⟨data, a, -, rfl, rfl⟩ := decodeOp_memWriteRaw_eq_ok.1 h; rfl
  · obtain ⟨o, a, rfl, rfl⟩ := readOperands_eq_ok.1 h; rfl
  · obtain ⟨o, a, rfl, rfl⟩ := readOperands_eq_ok.1 h; rfl
  · obtain ⟨o, a, rfl, rfl⟩ := readOperands_eq_ok.1 h; rfl
  · obtain ⟨o, a, rfl, rfl⟩ := readOperands_eq_ok.1 h; rfl
  · obtain ⟨o, a, rfl, rfl⟩ := readOperands_eq_ok.1 h; rfl
  · obtain ⟨o, a, v, rfl, rfl⟩ := writeOperands_eq_ok.1 h; rfl
  · obtain ⟨o, a, v, rfl, rfl⟩ := writeOperands_eq_ok.1 h; rfl
  · obtain ⟨o, a, v, rfl, rfl⟩ := writeOperands_eq_ok.1 h; rfl
  · obtain ⟨o, a, v, rfl, rfl⟩ := writeOperands_eq_ok.1 h; rfl
  · obtain ⟨o, a, v, rfl, rfl⟩ := writeOperands_eq_ok.1 h; rfl
  · obtain ⟨j, v, rfl, rfl⟩ := regValueOperands_eq_ok.1 h; rfl
  · obtain ⟨j, rfl, rfl⟩ := regOperand_eq_ok.1 h; rfl
  · obtain ⟨j, v, rfl, rfl⟩ := regValueOperands_eq_ok.1 h; rfl
  · obtain ⟨j, v, rfl, rfl⟩ := regValueOperands_eq_ok.1 h; rfl
  · obtain ⟨j, v, rfl, rfl⟩ := regValueOperands_eq_ok.1 h; rfl
  · obtain ⟨j, rfl, rfl⟩ := regOperand_eq_ok.1 h; rfl
  · obtain ⟨j, v, rfl, rfl⟩ := regValueOperands_eq_ok.1 h; rfl
  · obtain ⟨j, v, rfl, rfl⟩ := regValueOperands_eq_ok.1 h; rfl
  · obtain ⟨j, rfl, rfl⟩ := regOperand_eq_ok.1 h; rfl
  · obtain ⟨a, rfl, rfl⟩ := oneNum_eq_ok.1 h; rfl
  · obtain ⟨rfl, rfl⟩ := noOperands_eq_ok.1 h; rfl
  · obtain ⟨rfl, rfl⟩ := noOperands_eq_ok.1 h; rfl
  · rw [decodeOp_schedSubmit] at h
    obtain ⟨a, d, t, rfl, rfl⟩ := threeWords_eq_ok.1 h; rfl
  · obtain ⟨rfl, rfl⟩ := noOperands_eq_ok.1 h; rfl

/-! ### Instruction words (R81 to R84) -/

theorem decodeWord_eq_ok {c : Cfg} {bytes : List Byte} {i : Instr} : decodeWord c bytes = .ok i ↔
    bytes.length = c.width ∧ .runWord (BitVec.ofNat 64 (pack c.order bytes)) = i := by
  unfold decodeWord
  split <;> simp [*]

/-- The word of at most eight bytes is what they pack to. -/
theorem toNat_packed {c : Cfg} {bytes : List Byte} (hc : c.WellFormed) (h : bytes.length = c.width) :
    (BitVec.ofNat 64 (pack c.order bytes)).toNat = pack c.order bytes := by
  have hwidth : bytes.length ≤ 8 := by
    obtain ⟨-, hw, -⟩ := hc
    simp at hw
    omega
  rw [BitVec.toNat_ofNat]
  exact Nat.mod_eq_of_lt ((pack_lt c.order bytes).trans_le (Nat.pow_le_pow_right (by decide) (by omega)))

theorem encode_of_decodeWord {c : Cfg} {bytes : List Byte} {i : Instr} (hc : c.WellFormed)
    (h : decodeWord c bytes = .ok i) : encode c i = .word bytes := by
  obtain ⟨hlen, rfl⟩ := decodeWord_eq_ok.1 h
  rw [encode, toNat_packed hc hlen, ← hlen, unpack_pack]

/-- The record of a well-formed instruction, and the word's bytes, decode to it. -/
theorem decode_encode {c : Cfg} {i : Instr} (hi : i.wellFormed c = true) : decode c (encode c i) = .ok i := by
  cases i with
  | memReadByte a => exact (oneNum_eq_ok (op := 0x01)).2 ⟨a, rfl, rfl⟩
  | memWriteByte v a => exact (decodeOp_memWriteByte _).trans (twoNums_eq_ok.2 ⟨v, a, rfl, rfl⟩)
  | memReadRaw a n => exact (decodeOp_memReadRaw _).trans (twoNums_eq_ok.2 ⟨a, n, rfl, rfl⟩)
  | memWriteRaw data a => exact decodeOp_memWriteRaw_eq_ok.2 ⟨data, a, of_decide_eq_true hi, rfl, rfl⟩
  | memReadU16 o a => exact (readOperands_eq_ok (op := 0x10)).2 ⟨o, a, rfl, rfl⟩
  | memReadU32 o a => exact (readOperands_eq_ok (op := 0x11)).2 ⟨o, a, rfl, rfl⟩
  | memReadU64 o a => exact (readOperands_eq_ok (op := 0x12)).2 ⟨o, a, rfl, rfl⟩
  | memReadF32 o a => exact (readOperands_eq_ok (op := 0x13)).2 ⟨o, a, rfl, rfl⟩
  | memReadF64 o a => exact (readOperands_eq_ok (op := 0x14)).2 ⟨o, a, rfl, rfl⟩
  | memWriteU16 o a v => exact (writeOperands_eq_ok (op := 0x18)).2 ⟨o, a, v, rfl, rfl⟩
  | memWriteU32 o a v => exact (writeOperands_eq_ok (op := 0x19)).2 ⟨o, a, v, rfl, rfl⟩
  | memWriteU64 o a v => exact (writeOperands_eq_ok (op := 0x1A)).2 ⟨o, a, v, rfl, rfl⟩
  | memWriteF32 o a f => exact (writeOperands_eq_ok (op := 0x1B)).2 ⟨o, a, f, rfl, rfl⟩
  | memWriteF64 o a f => exact (writeOperands_eq_ok (op := 0x1C)).2 ⟨o, a, f, rfl, rfl⟩
  | regSetInt j v => exact (regValueOperands_eq_ok (op := 0x20)).2 ⟨j, v, rfl, rfl⟩
  | regGetInt j => exact (regOperand_eq_ok (op := 0x21)).2 ⟨j, rfl, rfl⟩
  | regIncInt j d => exact (regValueOperands_eq_ok (op := 0x22)).2 ⟨j, d, rfl, rfl⟩
  | regDecInt j d => exact (regValueOperands_eq_ok (op := 0x23)).2 ⟨j, d, rfl, rfl⟩
  | regSetFloat j f => exact (regValueOperands_eq_ok (op := 0x24)).2 ⟨j, f, rfl, rfl⟩
  | regGetFloat j => exact (regOperand_eq_ok (op := 0x25)).2 ⟨j, rfl, rfl⟩
  | regIncFloat j d => exact (regValueOperands_eq_ok (op := 0x26)).2 ⟨j, d, rfl, rfl⟩
  | regDecFloat j d => exact (regValueOperands_eq_ok (op := 0x27)).2 ⟨j, d, rfl, rfl⟩
  | regCanWrite j => exact (regOperand_eq_ok (op := 0x28)).2 ⟨j, rfl, rfl⟩
  | pcIncrement d => exact (oneNum_eq_ok (op := 0x30)).2 ⟨d, rfl, rfl⟩
  | pcRead => rfl
  | cycleStep => rfl
  | schedSubmit a d t => exact (decodeOp_schedSubmit _).trans (threeWords_eq_ok.2 ⟨a, d, t, rfl, rfl⟩)
  | schedStep => rfl
  | runWord word =>
    have hw : word.toNat % 2 ^ (8 * c.width) = word.toNat := Nat.mod_eq_of_lt (of_decide_eq_true hi)
    refine decodeWord_eq_ok.2 ⟨length_unpack _ _ _, ?_⟩
    rw [pack_unpack, hw, BitVec.ofNat_toNat, BitVec.setWidth_eq]

/-- Settles O1: every shape of record, and the bytes of a word that fits, give their values back. -/
theorem decodeOfEncode : Obligations.DecodeOfEncode := by
  unfold Obligations.DecodeOfEncode
  exact fun c i _ hi => decode_encode hi

/-- Settles O2: a record's operands are the numbers of what it decodes to, and so are a word's bytes. -/
theorem encodeOfDecode : Obligations.EncodeOfDecode := by
  unfold Obligations.EncodeOfDecode
  intro c e i hc h
  cases e with
  | operation op xs => exact encode_of_decodeOp c h
  | word bytes => exact encode_of_decodeWord hc h

/-- Settles O5: one record of each family, and a word in both orders, evaluated. -/
theorem tableRecordsDecode : Obligations.TableRecordsDecode := by
  unfold Obligations.TableRecordsDecode
  exact ⟨rfl, rfl, rfl, rfl, rfl, rfl, rfl, rfl, rfl, rfl, rfl, rfl, rfl⟩

/-! ### Pseudo-operations (R90, R91) -/

theorem expand_readTyped_otherWidth (c : Cfg) (o : ByteOrder) (a : Word) {n : Nat} (h : n ∉ [1, 2, 4, 8]) :
    Pseudo.expand c (.readTyped o n a) = none := by
  unfold Pseudo.expand
  split
  case h_5 => rfl
  all_goals
    rename_i heq
    cases heq <;> exact absurd (by decide) h

theorem floatDelta_of_one {c : Cfg} {r : RegSpec} {one : Word} (h : oneOf c.fnum r.width = some one) :
    floatDelta c r = some one := by
  rw [floatDelta, h]

/-- Settles O6: the widths of MEM.READ_TYPED by cases, and ONE_W as the delta of a register that has a float format. -/
theorem pseudoOperationsExpand : Obligations.PseudoOperationsExpand := by
  unfold Obligations.PseudoOperationsExpand
  refine fun c o a i => ⟨rfl, rfl, rfl, rfl, fun n => expand_readTyped_otherWidth c o a, rfl, rfl,
    fun r one hr hone => ?_⟩
  simp [Pseudo.expand, hr, floatDelta_of_one hone]

/-! ### Operands that do not fit (R87) -/

/-- Of the fields of widths `ws`, the first that its number in `vs` does not fit has width `w`. -/
inductive FirstWide : List Nat → List Nat → Nat → Prop where
  | here {w v : Nat} {ws vs : List Nat} (h : 2 ^ w ≤ v) : FirstWide (w :: ws) (v :: vs) w
  | later {w v u : Nat} {ws vs : List Nat} (h : v < 2 ^ w) (ht : FirstWide ws vs u) : FirstWide (w :: ws) (v :: vs) u

theorem FirstWide.of_getD {ws vs : List Nat} {k : Nat} (hlen : vs.length = ws.length) (hk : k < ws.length)
    (hbefore : ∀ j, j < k → vs.getD j 0 < 2 ^ ws.getD j 0) (hwide : 2 ^ ws.getD k 0 ≤ vs.getD k 0) :
    FirstWide ws vs (ws.getD k 0) := by
  induction ws generalizing vs k with
  | nil => cases hk
  | cons w ws ih =>
    match vs, k with
    | v :: vs, 0 => exact .here hwide
    | v :: vs, k + 1 =>
      exact .later (hbefore 0 k.succ_pos) (ih (Nat.succ.inj hlen) (Nat.lt_of_succ_lt_succ hk)
        (fun j hj => hbefore (j + 1) (Nat.succ_lt_succ hj)) hwide)

section
variable {w w' u : Nat} {op : Byte} {vs : List Nat}

theorem oneNum_wide {k : BitVec w → Instr} (hlen : vs.length = 1) (h : FirstWide [w] vs u) :
    oneNum w op (vs.map .num) k = .error (.operandTooWide u) := by
  obtain ⟨a, rfl⟩ := List.length_eq_one_iff.1 hlen
  cases h with
  | here ha => simp [oneNum, numOperand_wide ha, Except.map]
  | later _ h => cases h

theorem twoNums_wide {k : BitVec w → BitVec w' → Instr} (hlen : vs.length = 2) (h : FirstWide [w, w'] vs u) :
    twoNums w w' op (vs.map .num) k = .error (.operandTooWide u) := by
  obtain ⟨a, b, rfl⟩ := List.length_eq_two.1 hlen
  cases h with
  | here ha => simp [twoNums, numOperand_wide ha, bind, Except.bind]
  | later ha h =>
    obtain ⟨x, rfl⟩ := exists_toNat_eq ha
    cases h with
    | here hb => simp [twoNums, numOperand_wide hb, bind, Except.bind]
    | later _ h => cases h

theorem threeWords_wide {k : Word → Word → Word → Instr} (hlen : vs.length = 3)
    (h : FirstWide [64, 64, 64] vs u) : threeWords op (vs.map .num) k = .error (.operandTooWide u) := by
  obtain ⟨a, b, c, rfl⟩ := List.length_eq_three.1 hlen
  cases h with
  | here ha => simp [threeWords, numOperand_wide ha, bind, Except.bind]
  | later ha h =>
    obtain ⟨x, rfl⟩ := exists_toNat_eq ha
    cases h with
    | here hb => simp [threeWords, numOperand_wide hb, bind, Except.bind]
    | later hb h =>
      obtain ⟨y, rfl⟩ := exists_toNat_eq hb
      cases h with
      | here hc => simp [threeWords, numOperand_wide hc, bind, Except.bind]
      | later _ h => cases h

theorem readOperands_wide {k : ByteOrder → Word → Instr} (hlen : vs.length = 2) (h : FirstWide [1, 64] vs u) :
    readOperands op (vs.map .num) k = .error (.operandTooWide u) := by
  obtain ⟨o, a, rfl⟩ := List.length_eq_two.1 hlen
  cases h with
  | here ho => simp [readOperands, orderOperand_wide ho, bind, Except.bind]
  | later ho h =>
    obtain ⟨x, rfl⟩ := exists_orderCode_eq ho
    cases h with
    | here ha => simp [readOperands, numOperand_wide ha, bind, Except.bind]
    | later _ h => cases h

theorem writeOperands_wide {k : ByteOrder → Word → BitVec w → Instr} (hlen : vs.length = 3)
    (h : FirstWide [1, 64, w] vs u) : writeOperands w op (vs.map .num) k = .error (.operandTooWide u) := by
  obtain ⟨o, a, v, rfl⟩ := List.length_eq_three.1 hlen
  cases h with
  | here ho => simp [writeOperands, orderOperand_wide ho, bind, Except.bind]
  | later ho h =>
    obtain ⟨x, rfl⟩ := exists_orderCode_eq ho
    cases h with
    | here ha => simp [writeOperands, numOperand_wide ha, bind, Except.bind]
    | later ha h =>
      obtain ⟨y, rfl⟩ := exists_toNat_eq ha
      cases h with
      | here hv => simp [writeOperands, numOperand_wide hv, bind, Except.bind]
      | later _ h => cases h

end

/-- A record of a row of fixed widths is refused by the width of its first field that does not fit. -/
theorem decodeOp_fixedFields_wide {row : Byte × List Nat} (hrow : row ∈ fixedFields) {vs : List Nat} {u : Nat}
    (hlen : vs.length = row.2.length) (h : FirstWide row.2 vs u) :
    decodeOp row.1 (vs.map .num) = .error (.operandTooWide u) := by
  simp only [fixedFields, List.cons_append, List.nil_append, List.mem_cons, List.not_mem_nil, or_false] at hrow
  rcases hrow with rfl | rfl | rfl | rfl | rfl | rfl | rfl | rfl | rfl | rfl | rfl | rfl | rfl | rfl | rfl
  · exact oneNum_wide hlen h
  · exact (decodeOp_memWriteByte _).trans (twoNums_wide hlen h)
  · exact (decodeOp_memReadRaw _).trans (twoNums_wide hlen h)
  · exact readOperands_wide hlen h
  · exact readOperands_wide hlen h
  · exact readOperands_wide hlen h
  · exact readOperands_wide hlen h
  · exact readOperands_wide hlen h
  · exact writeOperands_wide hlen h
  · exact writeOperands_wide hlen h
  · exact writeOperands_wide hlen h
  · exact writeOperands_wide hlen h
  · exact writeOperands_wide hlen h
  · exact oneNum_wide hlen h
  · exact (decodeOp_schedSubmit _).trans (threeWords_wide hlen h)

theorem regValueOperands_wide (op : Byte) {k : Nat → Word → Instr} (i : Nat) {v : Nat} (h : 2 ^ 64 ≤ v) :
    regValueOperands op [.num i, .num v] k = .error (.operandTooWide 64) := by
  simp [regValueOperands, numOperand_wide h, Except.map]

theorem decodeOp_memWriteRaw_wide {data : List Byte} {a : Nat} (h : 2 ^ 64 ≤ data.length ∨ 2 ^ 64 ≤ a) :
    decodeOp 0x04 [.bytes data, .num a] = .error (.operandTooWide 64) := by
  rw [decodeOp_memWriteRaw]
  split
  · next hlen => rw [numOperand_wide (h.resolve_left (Nat.not_le.2 hlen))]; rfl
  · rfl

end Sys2Proof

namespace Sys2Proof.Machine

/-- A transaction whose record does not decode has no result (R87). -/
theorem step_of_undecoded_txn {s : State} {t : Txn} {rest : List Txn} {e : DecodeError} (hin : s.inbox = t :: rest)
    (h : decodeOp t.op t.operands = .error e) : step s = .refused (refusalOf e) := by
  simp only [step, nextOperation, hin, h, Result.andThen]

/-- Settles O3: a reserved code is none of the table's, so no record or call with it decodes. -/
theorem reservedSelectCodesAreRefused : Obligations.ReservedSelectCodesAreRefused := by
  unfold Obligations.ReservedSelectCodesAreRefused
  intro op hop
  have hcode : op ∉ selectCodes := by
    simp only [selectCodes, List.mem_cons, List.not_mem_nil, or_false, not_or]
    bv_omega
  have hdecode := decodeOp_reserved hcode
  exact ⟨hdecode, fun s who xs rest hin => step_of_undecoded_txn hin (hdecode xs),
    fun xs k args answers s => runScript_call_refused (invoke_of_error (e := .reservedSelect op) (hdecode _))⟩

/-- Settles O4: each field's own test, in the order in which the record's fields are read. -/
theorem wideOperandsAreRefused : Obligations.WideOperandsAreRefused := by
  unfold Obligations.WideOperandsAreRefused
  refine ⟨fun s i r v hr hv => ?_, fun op hop i v hv => ?_, fun s data a hlen => if_neg (Nat.not_lt.2 hlen),
    fun data a => decodeOp_memWriteRaw_wide, fun s word hw => if_neg (Nat.not_lt.2 hw),
    fun row hrow vs k hlen hk hbefore hwide => ?_, fun s t rest w hin h => step_of_undecoded_txn hin h⟩
  · have hwide : ¬ fits r.width v := Nat.not_lt.2 hv
    exact ⟨withRegisterValue_wide hr hwide, withRegisterValue_wide hr hwide, withRegisterValue_wide hr hwide,
      withRegisterValue_wide hr hwide, withRegisterValue_wide hr hwide, withRegisterValue_wide hr hwide⟩
  · simp only [List.mem_cons, List.not_mem_nil, or_false] at hop
    rcases hop with rfl | rfl | rfl | rfl | rfl | rfl
    · exact regValueOperands_wide 0x20 i hv
    · exact regValueOperands_wide 0x22 i hv
    · exact regValueOperands_wide 0x23 i hv
    · exact regValueOperands_wide 0x24 i hv
    · exact regValueOperands_wide 0x26 i hv
    · exact regValueOperands_wide 0x27 i hv
  · exact decodeOp_fixedFields_wide hrow hlen (.of_getD hlen hk hbefore hwide)

/-! ### Stops inside a step (R88, R192, R282) -/

@[simp] theorem Stop.result_andThen {α β : Type} (e : Stop) (f : α → Result β) :
    (e.result : Result α).andThen f = e.result := by
  cases e <;> rfl

section
variable {e : Stop}

theorem dispatchWord_stops {w : Word} {s : State}
    (h : runScript s.cfg.run [w] [] (s.log (.ran w)) = e.result) : dispatchWord w s = e.result := by
  rw [dispatchWord, h, Stop.result_andThen]

theorem fetchFault_stops {cb : Script} {av : AccessViolation} {s : State} (hcb : s.cfg.cb = some cb)
    (h : runScript cb [av.location, av.numBytes, if av.wasRead then 1#64 else 0#64] [] (s.log (.calledBack av)) =
      e.result) : fetchFault av s = e.result := by
  simp only [fetchFault, hcb]
  rw [h, Stop.result_andThen]

theorem fire_stops {x : Action} {s : State} (h : runScript s.cfg.act [x.action] [] (s.log (.fired x)) = e.result) :
    fire x s = e.result := by
  rw [fire, h, Stop.result_andThen]

/-- An inner step that stops is the stop of the whole step. -/
theorem execSchedStep_of_cycle_stops {s : State} (h : cycleOnce s = e.result) : execSchedStep s = e.result := by
  rw [execSchedStep, h, Stop.result_andThen]

/-- A body that stops, whatever its place in the list, stops the traversal. -/
theorem traverse_stops {before after survivors : List Action} {x : Action} {s u : State}
    (hbefore : traverse before s = .next (u, survivors)) (hx : x.delay = 0#64) (h : fire x u = e.result) :
    traverse (before ++ x :: after) s = e.result := by
  induction before generalizing s survivors with
  | nil =>
    cases hbefore
    rw [List.nil_append, traverse, if_pos hx, h, Stop.result_andThen]
  | cons y ys ih =>
    rw [traverse] at hbefore
    rw [List.cons_append, traverse]
    split at hbefore
    · next hy =>
      obtain ⟨v, hv, hbefore⟩ := Result.andThen_eq_next hbefore
      rw [if_pos hy, hv, Result.andThen_next, ih hbefore]
    · next hy =>
      obtain ⟨⟨v, survivors'⟩, hv, hbefore⟩ := Result.andThen_eq_next hbefore
      cases hbefore
      rw [if_neg hy, ih hv, Stop.result_andThen]

end

/-- A fetch in bounds, with the word by its name. -/
theorem cycleOnce_fetchedWord {s : State} (h : s.pc.toNat + s.cfg.width ≤ s.cfg.memSize) :
    cycleOnce s = dispatchWord (fetchedWord s) (s.advancePc (BitVec.ofNat 64 s.cfg.width)) := cycleOnce_inBounds h

@[simp] theorem advancePc_cfg (s : State) (d : Word) : (s.advancePc d).cfg = s.cfg := writeReg_cfg s _ _

theorem exec_runWord_of_fits {word : Word} {s : State} (h : fits (8 * s.cfg.width) word) :
    exec (.runWord word) s = dispatchWord word s := if_pos h

/-- Every stop of RUN, CB or a body is the stop of the step that runs it. -/
theorem stopsWithItsScripts (s : State) (e : Stop) : StopsWithItsScripts s e where
  ofRun hfetch h := by
    have hcycle : cycleOnce s = e.result := by
      rw [cycleOnce_fetchedWord hfetch]
      exact dispatchWord_stops (by rw [advancePc_cfg]; exact h)
    exact ⟨hcycle, execSchedStep_of_cycle_stops hcycle⟩
  ofCallback cb hcb hfetch h := by
    have hcycle : cycleOnce s = e.result := by
      rw [cycleOnce_outOfBounds hfetch]
      exact fetchFault_stops hcb h
    exact ⟨hcycle, execSchedStep_of_cycle_stops hcycle⟩
  ofWord word hfits h := (exec_runWord_of_fits hfits).trans (dispatchWord_stops h)
  ofBody s1 u before after survivors x hcycle hok hlist hx hbefore h := by
    have hafter : execSchedStep s = afterInner s1 := execSchedStep_of_ok hcycle hok
    have hstop := traverse_stops (after := after) hbefore hx (fire_stops h)
    rw [← hlist] at hstop
    exact hafter.trans (by rw [afterInner_eq, hstop, Stop.result_andThen])

/-- Settles O51: no operation inside a step is a step, and a script's refusal is the step's. -/
theorem stepsInsideStepsAreRefused : Obligations.StepsInsideStepsAreRefused := by
  unfold Obligations.StepsInsideStepsAreRefused
  refine ⟨fun s => ⟨rfl, rfl⟩, fun op hop k args answers s => ?_, fun s r => stopsWithItsScripts s (.refused r)⟩
  simp only [List.mem_cons, List.not_mem_nil, or_false] at hop
  rcases hop with rfl | rfl
  · exact runScript_call_refused (invoke_of_ok (i := .cycleStep) rfl)
  · exact runScript_call_refused (invoke_of_ok (i := .schedStep) rfl)

/-! ### The word and the operation that a step performs (R82 to R85, R88) -/

/-- Settles O35: an instruction word that fits is dispatched, and dispatch is RUN on the word, whose return is the
status. -/
theorem instructionWordRunsRun : Obligations.InstructionWordRunsRun := by
  unfold Obligations.InstructionWordRunsRun
  intro s t word e hfits hrun
  have hrun : runScript s.cfg.run [word] [] (s.log (.ran word)) = .next (t, e) := hrun
  obtain ⟨-, -, -, -, -, hevents, -⟩ := runScript_log_keeps hrun
  refine ⟨?_, hevents⟩
  rw [exec_runWord_of_fits hfits, dispatchWord, hrun]
  rfl

/-- The records of SCHED.SUBMIT are those of its select code. -/
theorem decodeOp_schedSubmit_code {op : Byte} {xs : List Operand} {a d t : Word}
    (h : decodeOp op xs = .ok (.schedSubmit a d t)) : op = 0x50 := by
  have henc := encode_of_decodeOp Config.standard h
  cases henc
  rfl

theorem agentRefusal_producer (c : Cfg) {i : Instr} (h : ∀ a d t, i ≠ .schedSubmit a d t) :
    agentRefusal c .producer i = some .producerOutsideChannel := by
  cases i with
  | schedSubmit a d t => exact absurd rfl (h a d t)
  | _ => rfl

/-- Settles O50: a record of another select code is no submission, and a producer may only submit. -/
theorem producersMayOnlySubmit : Obligations.ProducersMayOnlySubmit := by
  unfold Obligations.ProducersMayOnlySubmit
  intro s op xs rest i hin hop hne
  refine step_of_refused_txn hin hop (agentRefusal_producer _ ?_)
  rintro a d t rfl
  exact hne (decodeOp_schedSubmit_code hop)

/-- Settles O59: the agent may invoke the operation, so the step is that operation; the idle host's is SCHED.STEP. -/
theorem stepRunsDecodedOperation : Obligations.StepRunsDecodedOperation := by
  unfold Obligations.StepRunsDecodedOperation
  refine ⟨fun s who op xs rest i hin hop hproducer hcore => step_of_txn hin hop ?_, fun s hin => ?_⟩
  · match who with
    | .host .memory => rfl
    | .host .core => exact if_pos (hcore rfl)
    | .producer =>
      obtain rfl := hproducer rfl
      rw [decodeOp_schedSubmit] at hop
      obtain ⟨a, d, t, -, rfl⟩ := threeWords_eq_ok.1 hop
      rfl
  · simp only [step, nextOperation, hin, Result.andThen_next]

/-- Settles O60: the bytes at the PC pack to a word that fits, and both sides dispatch it on the advanced state. -/
theorem cycleRunsDecodedWord : Obligations.CycleRunsDecodedWord := by
  unfold Obligations.CycleRunsDecodedWord
  intro s i hs hfetch hi
  obtain ⟨hlen, rfl⟩ := decodeWord_eq_ok.1 hi
  have hfits : fits (8 * s.cfg.width) (fetchedWord s) := by
    have hlt := pack_lt s.cfg.order (s.mem.readBytes s.pc.toNat s.cfg.width)
    rw [hlen] at hlt
    rwa [fits, fetchedWord, ← pack_readBytes, toNat_packed hs.config hlen]
  rw [pack_readBytes]
  refine ⟨decide_eq_true hfits, ?_⟩
  exact (cycleOnce_fetchedWord hfetch).trans (exec_runWord_of_fits (by rwa [advancePc_cfg])).symm

end Sys2Proof.Machine
end

section
/-! PROOFS of the family 41_memory_ops.md: the bounds rule as an adder, the select codes of the memory operations, what
each of them answers and changes in and out of bounds, that a typed read undoes a typed write, and the frame. -/

namespace Sys2Proof.Machine

/-! ### The bounds rule (R101) -/

/-- The carry out of a 65-bit sum is its top bit. -/
theorem getLsbD_64_eq_decide (x : BitVec 65) : x.getLsbD 64 = decide (2 ^ 64 ≤ x.toNat) :=
  (BitVec.msb_eq_getLsbD_last x).symm.trans (BitVec.msb_eq_decide x)

/-- A 65-bit adder of two words loses nothing. -/
theorem toNat_sum65 (a b : Word) : (a.setWidth 65 + b.setWidth 65).toNat = a.toNat + b.toNat := by
  simp only [BitVec.toNat_add, BitVec.toNat_setWidth]
  omega

/-- Settles O7: without a carry the low 64 bits are the sum, and with one the sum is above every N. -/
theorem boundsRuleIsTheAdders : Obligations.BoundsRuleIsTheAdders := by
  unfold Obligations.BoundsRuleIsTheAdders
  intro n start len hn
  simp only [inBoundsAdder, getLsbD_64_eq_decide, BitVec.toNat_setWidth, toNat_sum65, Bool.not_eq_true',
    Bool.or_eq_false_iff, decide_eq_false_iff_not]
  omega

/-! ### Select codes (R86) -/

/-- A record decodes alike under every configuration, so the standard one tells an instruction's select code. -/
theorem hasCode_of_standard {op : Byte} {xs : List Operand} {i : Instr} (hi : i.wellFormed Config.standard = true)
    (h : encode Config.standard i = .operation op xs) : hasCode op i := by
  have hdec : decodeOp op xs = .ok i := by
    have := decode_encode hi
    rwa [h] at this
  exact ⟨xs, fun c => encode_of_decodeOp c hdec, hdec⟩

/-! ### Reads (R102, R104, R110 to R114) -/

section
variable {s t : State} {start : Word}

theorem memReadByte_inBounds (h : start.toNat < s.cfg.memSize) : execMemReadByte start s =
    .next (s.answer (.okVal (.bits 8 ((s.mem.read start.toNat).setWidth 64)))) := by
  rw [execMemReadByte, accessFault_inBounds true h]

theorem memReadByte_outOfBounds (h : s.cfg.memSize ≤ start.toNat) :
    execMemReadByte start s = .next (s.answer (.err (.av ⟨start, 1, true⟩))) := by
  rw [execMemReadByte, accessFault_outOfBounds true (Nat.lt_succ_of_le h)]
  rfl

theorem memReadRaw_inBounds {n : Word} (h : start.toNat + n.toNat ≤ s.cfg.memSize) : execMemReadRaw start n s =
    .next (s.answer (.okVal (.view (s.mem.readBytes start.toNat n.toNat) false))) := by
  rw [execMemReadRaw, readRaw_inBounds h]

theorem memReadRaw_outOfBounds {n : Word} (h : s.cfg.memSize < start.toNat + n.toNat) :
    execMemReadRaw start n s = .next (s.answer (.err (.av ⟨start, n, true⟩))) := by
  rw [execMemReadRaw, readRaw_outOfBounds h, BitVec.ofNat_toNat, BitVec.setWidth_eq]
  rfl

theorem Memory.getElem?_readBytes (m : Memory) (a : Nat) {n k : Nat} (hk : k < n) :
    (m.readBytes a n)[k]? = some (m.read (a + k)) := by
  have hlen : k < (m.readBytes a n).length := by rwa [Memory.length_readBytes]
  rw [List.getElem?_eq_getElem hlen, ← List.getD_eq_getElem _ memFill hlen, Memory.getD_readBytes _ _ _ _ _ hk]

/-- What an operation that is a typed read answers: the value of R52's formulas, or the violation. -/
theorem typedRead_result {i : Instr} {o : ByteOrder} {n : Nat} (hexec : exec i s = loadTyped o n start s) :
    (start.toNat + n ≤ s.cfg.memSize → exec i s = .next { s with
      reply := .okVal (.bits (8 * n) (BitVec.ofNat 64 (byteSum o n fun k => s.mem.read (start.toNat + k)))) }) ∧
    (s.cfg.memSize < start.toNat + n → exec i s =
      .next { s with reply := .err (.av ⟨start, BitVec.ofNat 64 n, true⟩) }) :=
  ⟨fun h => hexec.trans (loadTyped_of_bytes o h fun _ _ => rfl), fun h => hexec.trans (loadTyped_outOfBounds o h)⟩

/-- Settles O8: the bounds rule for one byte is `index < N`. -/
theorem readByteResult : Obligations.ReadByteResult := by
  unfold Obligations.ReadByteResult
  exact fun s index => ⟨hasCode_of_standard rfl rfl, memReadByte_inBounds, memReadByte_outOfBounds⟩

/-- Settles O10: byte `k` of the view is the byte at `start + k`. -/
theorem readRawResult : Obligations.ReadRawResult := by
  unfold Obligations.ReadRawResult
  exact fun s start n => ⟨hasCode_of_standard rfl rfl,
    fun h => ⟨s.mem.readBytes start.toNat n.toNat, memReadRaw_inBounds h, Memory.length_readBytes _ _ _,
      fun _ hk => Memory.getElem?_readBytes _ _ hk⟩,
    memReadRaw_outOfBounds⟩

/-- Settles O12: each of the five is the typed read of its width. -/
theorem typedReadsResult : Obligations.TypedReadsResult := by
  unfold Obligations.TypedReadsResult
  intro s o start
  exact ⟨⟨hasCode_of_standard rfl rfl, typedRead_result rfl⟩, ⟨hasCode_of_standard rfl rfl, typedRead_result rfl⟩,
    ⟨hasCode_of_standard rfl rfl, typedRead_result rfl⟩, ⟨hasCode_of_standard rfl rfl, typedRead_result rfl⟩,
    ⟨hasCode_of_standard rfl rfl, typedRead_result rfl⟩⟩

/-! ### Writes (R103, R106, R115 to R119) -/

/-- A byte write is the raw write of a sequence of one byte. -/
theorem memWriteByte_eq_storeRaw (value : Byte) (index : Word) (s : State) :
    execMemWriteByte value index s = storeRaw index [value] s := by
  rw [execMemWriteByte, storeRaw, writeRaw, List.length_singleton]
  cases accessFault s index 1 false <;> rfl

theorem memWriteRaw_eq_storeRaw {data : List Byte} (h : data.length < 2 ^ 64) :
    execMemWriteRaw data start s = storeRaw start data s := if_pos h

theorem Memory.writeBytes_idem {m : Memory} (hw : m.wf) (a : Nat) (bs : List Byte) :
    (m.writeBytes a bs).writeBytes a bs = m.writeBytes a bs := by
  have hw' := Memory.writeBytes_wf a bs hw
  refine Memory.eq_of_read_eq (Memory.writeBytes_wf a bs hw') hw' fun b => ?_
  rw [Memory.read_writeBytes hw', Memory.read_writeBytes hw]
  split <;> rfl

/-- The same raw write again changes nothing, the status included. -/
theorem storeRaw_again {data : List Byte} (hw : s.mem.wf) (hb : start.toNat + data.length ≤ s.cfg.memSize)
    (h : storeRaw start data s = .next t) : storeRaw start data t = .next t := by
  rw [storeRaw_inBounds hb] at h
  cases h
  rw [storeRaw_inBounds (by simpa using hb), State.answer_mem, State.setMem_mem, Memory.writeBytes_idem hw]
  rfl

theorem storeTyped_outOfBounds (o : ByteOrder) {n : Nat} (v : Nat) (h : s.cfg.memSize < start.toNat + n) :
    storeTyped o n start v s = .next (s.answer (.err (.av ⟨start, BitVec.ofNat 64 n, false⟩))) := by
  rw [storeTyped, storeRaw_outOfBounds (by rwa [length_unpack]), length_unpack]

/-- What an operation that is a typed write does: the bytes of R52's formulas and no other, or the violation. -/
theorem typedWrite_result {i : Instr} {o : ByteOrder} {n v : Nat} (hw : s.mem.wf)
    (hexec : exec i s = storeTyped o n start v s) :
    (start.toNat + n ≤ s.cfg.memSize → ∃ t, exec i s = .next t ∧
      t = { s with mem := t.mem, reply := .ok } ∧
      (∀ k, k < n → t.mem.read (start.toNat + k) = byteOf o n v k) ∧
      (∀ b, b < start.toNat ∨ start.toNat + n ≤ b → t.mem.read b = s.mem.read b)) ∧
    (s.cfg.memSize < start.toNat + n → exec i s =
      .next { s with reply := .err (.av ⟨start, BitVec.ofNat 64 n, false⟩) }) := by
  refine ⟨fun h => ?_, fun h => hexec.trans (storeTyped_outOfBounds o v h)⟩
  obtain ⟨t, hstore, hframe, -, hbytes, hother⟩ := storeTyped_effect o n v hw h
  exact ⟨t, hexec.trans hstore, hframe, hbytes, hother⟩

end

/-- Settles O9: the byte write is a raw write of one byte, and a raw write made again changes nothing. -/
theorem writeByteResult : Obligations.WriteByteResult := by
  unfold Obligations.WriteByteResult
  intro s value index hw
  have hexec (u : State) : exec (.memWriteByte value index) u = storeRaw index [value] u :=
    memWriteByte_eq_storeRaw value index u
  refine ⟨hasCode_of_standard rfl rfl, fun h => ?_,
    fun h => (hexec s).trans (storeRaw_outOfBounds (Nat.lt_succ_of_le h))⟩
  obtain ⟨t, hstore, hframe, -, hbyte, hother⟩ := storeRaw_effect (data := [value]) hw h
  refine ⟨t, (hexec s).trans hstore, hframe, hbyte 0 Nat.one_pos, fun b hb => hother b ?_,
    (hexec t).trans (storeRaw_again hw h hstore)⟩
  rw [List.length_singleton]
  omega

/-- Settles O11: data that has a 64-bit length is written by the raw write. -/
theorem writeRawResult : Obligations.WriteRawResult := by
  unfold Obligations.WriteRawResult
  intro s data start hw hlen
  have hfits : data.length < 2 ^ 64 := by omega
  have hexec : exec (.memWriteRaw data start) s = storeRaw start data s := memWriteRaw_eq_storeRaw hfits
  refine ⟨hasCode_of_standard (decide_eq_true hfits) rfl, fun h => ?_,
    fun h => hexec.trans (storeRaw_outOfBounds h)⟩
  obtain ⟨t, hstore, hframe, -, hbytes, hother⟩ := storeRaw_effect hw h
  refine ⟨t, hexec.trans hstore, hframe, fun k hk => ?_, hother⟩
  rw [hbytes k hk, List.getD_eq_getElem _ _ hk, List.getElem?_eq_getElem hk]

/-- Settles O13: each of the five is the typed write of its width. -/
theorem typedWritesResult : Obligations.TypedWritesResult := by
  unfold Obligations.TypedWritesResult
  intro s o start v16 v32 v64 hw
  exact ⟨⟨hasCode_of_standard rfl rfl, typedWrite_result hw rfl⟩,
    ⟨hasCode_of_standard rfl rfl, typedWrite_result hw rfl⟩, ⟨hasCode_of_standard rfl rfl, typedWrite_result hw rfl⟩,
    ⟨hasCode_of_standard rfl rfl, typedWrite_result hw rfl⟩, ⟨hasCode_of_standard rfl rfl, typedWrite_result hw rfl⟩⟩

/-! ### A write and then a read, faults, and float patterns (R108, R120, R121) -/

/-- The read of a place returns the value that the write of its width has put there. -/
theorem typedRead_after_typedWrite {s : State} {o : ByteOrder} {start : Word} {n : Nat} {write read : Instr}
    (v : BitVec (8 * n)) (hw : s.mem.wf) (hwrite : exec write s = storeTyped o n start v.toNat s)
    (hread : ∀ t, exec read t = loadTyped o n start t) (h : start.toNat + n ≤ s.cfg.memSize) :
    ∃ t, exec write s = .next t ∧ t.reply = .ok ∧
      exec read t = .next { t with reply := .okVal (.bits (8 * n) (v.setWidth 64)) } := by
  obtain ⟨t, hstore, hok, hload⟩ := loadTyped_storeTyped o n v.toNat hw h
  rw [Nat.mod_eq_of_lt v.isLt, BitVec.ofNat_toNat] at hload
  exact ⟨t, hwrite.trans hstore, hok, (hread t).trans hload⟩

/-- Settles O14: each pair is the typed write and the typed read of one width. -/
theorem writeThenReadReturnsValue : Obligations.WriteThenReadReturnsValue := by
  unfold Obligations.WriteThenReadReturnsValue
  intro s o start v16 v32 v64 hw
  refine ⟨typedRead_after_typedWrite (n := 2) v16 hw rfl fun _ => rfl,
    typedRead_after_typedWrite (n := 4) v32 hw rfl fun _ => rfl, ?_,
    typedRead_after_typedWrite (n := 4) v32 hw rfl fun _ => rfl, ?_⟩
  · simpa only [BitVec.setWidth_eq] using typedRead_after_typedWrite (n := 8) v64 hw rfl fun _ => rfl
  · simpa only [BitVec.setWidth_eq] using typedRead_after_typedWrite (n := 8) v64 hw rfl fun _ => rfl

/-- Settles O15: a sum that overflows is above N too, so one case of the bounds rule serves both operations. -/
theorem rawFaultsAgree : Obligations.RawFaultsAgree := by
  unfold Obligations.RawFaultsAgree
  intro s start len data hfail hsize hlen
  have hout : s.cfg.memSize < start.toNat + len.toNat := by omega
  have hwrite : exec (.memWriteRaw data start) s = storeRaw start data s :=
    memWriteRaw_eq_storeRaw (hlen ▸ len.isLt)
  refine ⟨memReadRaw_outOfBounds hout, ?_⟩
  rw [hwrite, storeRaw_outOfBounds (hlen ▸ hout), hlen, BitVec.ofNat_toNat, BitVec.setWidth_eq]
  rfl

/-- Settles O16: a float helper is the typed access of its width, as the integer helper is. -/
theorem floatHelpersMovePatterns : Obligations.FloatHelpersMovePatterns := by
  unfold Obligations.FloatHelpersMovePatterns
  exact fun _ _ _ _ _ => ⟨rfl, rfl, rfl, rfl⟩

/-! ### The frame of the memory operations (R59) -/

section
variable {s t : State} {start : Word}

theorem memReadByte_frame (h : execMemReadByte start s = .next t) : t = { s with reply := t.reply } := by
  by_cases hb : start.toNat < s.cfg.memSize
  · rw [memReadByte_inBounds hb] at h; cases h; rfl
  · rw [memReadByte_outOfBounds (by omega)] at h; cases h; rfl

theorem memReadRaw_frame {n : Word} (h : execMemReadRaw start n s = .next t) : t = { s with reply := t.reply } := by
  by_cases hb : start.toNat + n.toNat ≤ s.cfg.memSize
  · rw [memReadRaw_inBounds hb] at h; cases h; rfl
  · rw [memReadRaw_outOfBounds (by omega)] at h; cases h; rfl

theorem loadTyped_frame {o : ByteOrder} {n : Nat} (h : loadTyped o n start s = .next t) :
    t = { s with reply := t.reply } := by
  by_cases hb : start.toNat + n ≤ s.cfg.memSize
  · rw [loadTyped_inBounds o hb] at h; cases h; rfl
  · rw [loadTyped_outOfBounds o (by omega)] at h; cases h; rfl

theorem storeRaw_frame {data : List Byte} (h : storeRaw start data s = .next t) :
    t = { s with mem := t.mem, reply := t.reply } := by
  by_cases hb : start.toNat + data.length ≤ s.cfg.memSize
  · rw [storeRaw_inBounds hb] at h; cases h; rfl
  · rw [storeRaw_outOfBounds (by omega)] at h; cases h; rfl

theorem memWriteByte_frame {value : Byte} (h : execMemWriteByte value start s = .next t) :
    t = { s with mem := t.mem, reply := t.reply } :=
  storeRaw_frame ((memWriteByte_eq_storeRaw value start s).symm.trans h)

theorem memWriteRaw_frame {data : List Byte} (h : execMemWriteRaw data start s = .next t) :
    t = { s with mem := t.mem, reply := t.reply } := by
  unfold execMemWriteRaw at h
  split at h
  · exact storeRaw_frame h
  · cases h

end

/-- Settles O18: the frame of the byte, the raw and the typed access that each operation is. -/
theorem memoryOperationsFrame : Obligations.MemoryOperationsFrame := by
  unfold Obligations.MemoryOperationsFrame
  intro s t o a n b data v16 v32 v64
  simp only [List.forall_mem_cons, List.not_mem_nil, false_imp_iff, implies_true, and_true]
  exact ⟨⟨memReadByte_frame, memReadRaw_frame, loadTyped_frame, loadTyped_frame, loadTyped_frame, loadTyped_frame,
      loadTyped_frame⟩,
    memWriteByte_frame, memWriteRaw_frame, storeRaw_frame, storeRaw_frame, storeRaw_frame, storeRaw_frame,
    storeRaw_frame⟩

end Sys2Proof.Machine
end

section
/-! PROOFS of the family 42_register_ops.md: the select codes of the register operations, what each of them answers and
writes by the kind of its register, the patterns of float arithmetic, the frame, and the PC as a register. -/

namespace Sys2Proof.Machine

/-! ### Select codes (R86) -/

theorem hasCode_of_decodeOp {op : Byte} {xs : List Operand} {i : Instr} (h : decodeOp op xs = .ok i) :
    hasCode op i := ⟨xs, fun c => encode_of_decodeOp c h, h⟩

/-- An operation on a register and a pattern, whatever the index. -/
theorem hasCode_regValue {op : Byte} {k : Nat → Word → Instr} (i : Nat) (v : Word)
    (h : ∀ xs, decodeOp op xs = regValueOperands op xs k) : hasCode op (k i v) :=
  hasCode_of_decodeOp ((h _).trans (regValueOperands_eq_ok.2 ⟨i, v, rfl, rfl⟩))

/-- An operation on a register alone, whatever the index. -/
theorem hasCode_reg {op : Byte} {k : Nat → Instr} (i : Nat) (h : ∀ xs, decodeOp op xs = regOperand op xs k) :
    hasCode op (k i) :=
  hasCode_of_decodeOp ((h _).trans (regOperand_eq_ok.2 ⟨i, rfl, rfl⟩))

/-! ### Setters, getters and integer arithmetic (R141 to R146, R149) -/

/-- The register that an index names, spelt out by its kind. -/
theorem regs_getElem?_of_kind {c : Cfg} {i : Nat} {r : RegSpec} {k : RegKind} (hr : c.regs[i]? = some r)
    (hk : r.kind = k) : c.regs[i]? = some ⟨k, r.width, r.init⟩ := by
  subst hk
  exact hr

section
variable {s : State} {i : Nat} {r : RegSpec} {v x : Word} (hr : s.cfg.regs[i]? = some r)
include hr

theorem exec_regGetInt : exec (.regGetInt i) s = .next (s.answer (.okVal (.bits r.width (s.readReg i)))) :=
  withRegister_some hr

theorem exec_regGetFloat : exec (.regGetFloat i) s = .next (s.answer (.okVal (.bits r.width (s.readReg i)))) :=
  withRegister_some hr

theorem exec_regCanWrite :
    exec (.regCanWrite i) s = .next (s.answer (.okVal (.bool (decide (r.kind = .concrete))))) :=
  withRegister_some hr

variable (hv : fits r.width v)
include hv

theorem exec_regSetInt : exec (.regSetInt i v) s = .next ((s.writeReg i v).answer .ok) :=
  withRegisterValue_some hr hv

theorem exec_regSetFloat : exec (.regSetFloat i v) s = .next ((s.writeReg i v).answer .ok) :=
  withRegisterValue_some hr hv

theorem exec_regIncInt : exec (.regIncInt i v) s = .next ((s.writeReg i (s.readReg i + v)).answer .ok) :=
  withRegisterValue_some hr hv

theorem exec_regDecInt : exec (.regDecInt i v) s = .next ((s.writeReg i (s.readReg i - v)).answer .ok) :=
  withRegisterValue_some hr hv

variable {arith : Fnum → Nat → Word → Word → Option Word}

theorem floatUpdate_zero (hk : r.kind = .zero) : floatUpdate arith i v s = .next (s.answer .ok) := by
  rw [floatUpdate, withRegisterValue_some hr hv, hk]

theorem floatUpdate_some (hk : r.kind = .concrete) (hx : arith s.cfg.fnum r.width (s.readReg i) v = some x) :
    floatUpdate arith i v s = .next ((s.writeReg i x).answer .ok) := by
  rw [floatUpdate, withRegisterValue_some hr hv, hk, hx]

theorem floatUpdate_none (hk : r.kind = .concrete) (hx : arith s.cfg.fnum r.width (s.readReg i) v = none) :
    floatUpdate arith i v s = .refused (.noFloatFormat r.width) := by
  rw [floatUpdate, withRegisterValue_some hr hv, hk, hx]

end

/-- Settles O19: both setters are one write of the pattern, which keeps all of it. -/
theorem settersStorePattern : Obligations.SettersStorePattern := by
  unfold Obligations.SettersStorePattern
  intro s i r v hr hv
  refine ⟨hasCode_regValue i v fun _ => rfl, hasCode_regValue i v fun _ => rfl, fun op hop => ?_⟩
  have hexec : exec op s = .next ((s.writeReg i v).answer .ok) := by
    simp only [List.mem_cons, List.not_mem_nil, or_false] at hop
    rcases hop with rfl | rfl
    · exact exec_regSetInt hr hv
    · exact exec_regSetFloat hr hv
  rw [hexec]
  refine ⟨fun hk => ?_, fun hk => ?_⟩
  · rw [writeReg_concrete v (regs_getElem?_of_kind hr hk), lowBits_of_fits hv]
    rfl
  · rw [writeReg_zero v (regs_getElem?_of_kind hr hk)]
    rfl

/-- Settles O20: both getters answer what the register reads as. -/
theorem gettersReturnPattern : Obligations.GettersReturnPattern := by
  unfold Obligations.GettersReturnPattern
  intro s i r hr
  refine ⟨hasCode_reg i fun _ => rfl, hasCode_reg i fun _ => rfl, fun op hop => ?_⟩
  have hexec : exec op s = .next (s.answer (.okVal (.bits r.width (s.readReg i)))) := by
    simp only [List.mem_cons, List.not_mem_nil, or_false] at hop
    rcases hop with rfl | rfl
    · exact exec_regGetInt hr
    · exact exec_regGetFloat hr
  rw [hexec]
  refine ⟨fun hk => ?_, fun hk => ?_⟩
  · rw [readReg_concrete (regs_getElem?_of_kind hr hk)]
    rfl
  · rw [readReg_zero (regs_getElem?_of_kind hr hk)]
    rfl

/-- Settles O24: the answer is computed from the register's kind. -/
theorem canWriteReportsKind : Obligations.CanWriteReportsKind := by
  unfold Obligations.CanWriteReportsKind
  exact fun s i r hr => ⟨hasCode_reg i fun _ => rfl, exec_regCanWrite hr⟩

/-- Settles O25: a getter of either view reads the slot that a setter of the other has written. -/
theorem reinterpretationIsInvolutive : Obligations.ReinterpretationIsInvolutive := by
  unfold Obligations.ReinterpretationIsInvolutive
  intro s i r f hs hr hk hf
  have hlt : i < s.regs.length := hs.bankSize ▸ (List.getElem?_eq_some_iff.1 hr).1
  have hread : ((s.writeReg i f).answer .ok).readReg i = f :=
    (readReg_writeReg_same f (regs_getElem?_of_kind hr hk) hlt).trans (lowBits_of_fits hf)
  have hr' : ((s.writeReg i f).answer .ok).cfg.regs[i]? = some r := by
    rw [State.answer_cfg, writeReg_cfg, hr]
  refine ⟨⟨_, exec_regSetFloat hr hf, rfl, ?_⟩, ⟨_, exec_regSetInt hr hf, rfl, ?_⟩⟩
  · rw [exec_regGetInt hr', hread]
    rfl
  · rw [exec_regGetFloat hr', hread]
    rfl

/-! ### The Zero-register law (R23, R151) -/

/-- The operations that write a register: setters, increments and decrements. -/
def registerWriters (i : Nat) (v : Word) : List Instr :=
  [.regSetInt i v, .regIncInt i v, .regDecInt i v, .regSetFloat i v, .regIncFloat i v, .regDecFloat i v]

/-- A Zero register drops what is written to it, and float arithmetic as well. -/
theorem exec_registerWriter_zero {s : State} {i : Nat} {r : RegSpec} {v : Word} (hr : s.cfg.regs[i]? = some r)
    (hk : r.kind = .zero) (hv : fits r.width v) : ∀ op ∈ registerWriters i v, exec op s = .next (s.answer .ok) := by
  have hdrop (x : Word) : s.writeReg i x = s := writeReg_zero x (regs_getElem?_of_kind hr hk)
  simp only [registerWriters, List.forall_mem_cons, exec_regSetInt hr hv, exec_regIncInt hr hv, exec_regDecInt hr hv,
    exec_regSetFloat hr hv, hdrop, List.not_mem_nil, false_imp_iff, implies_true, and_true, true_and]
  exact ⟨floatUpdate_zero hr hv hk, floatUpdate_zero hr hv hk⟩

/-- Settles O26: writers drop their result, and a Zero register reads as 0. -/
theorem zeroRegisterLaw : Obligations.ZeroRegisterLaw := by
  unfold Obligations.ZeroRegisterLaw
  intro s i r v hr hk hv
  obtain ⟨-, -, hget⟩ := gettersReturnPattern s i r hr
  exact ⟨exec_registerWriter_zero hr hk hv, fun op hop => (hget op hop).2 hk⟩

/-! ### Integer arithmetic modulo 2^W (R143, R144) -/

/-- The complement of a W-bit number, added, is the number subtracted, modulo 2^W. -/
theorem lowBits_add_complement {w : Nat} (hw : w ≤ 64) (a : Word) {d e : Word} (hd : fits w d)
    (he : e.toNat = (2 ^ w - d.toNat) % 2 ^ w) : lowBits w (a + e) = lowBits w (a - d) := by
  have hcong : ((a.toNat : Int) - d.toNat) % 2 ^ w = ((a.toNat + e.toNat : Nat) : Int) % 2 ^ w := by
    rw [he]
    push_cast [hd.le]
    rw [Int.add_emod_emod, show (a.toNat : Int) + (2 ^ w - d.toNat) = a.toNat - d.toNat + 2 ^ w by ring,
      Int.add_emod_right]
  rw [lowBits_add hw, lowBits_sub hw, hcong, ← BitVec.ofInt_natCast]
  push_cast
  rfl

/-- Settles O21: the sum and the difference modulo 2^64 have the same low W bits as the exact ones. -/
theorem integerIncrementAndDecrement : Obligations.IntegerIncrementAndDecrement := by
  unfold Obligations.IntegerIncrementAndDecrement
  intro s i r d e hc hr hd he
  have hw : r.width ≤ 64 := by
    obtain ⟨-, -, -, hregs, -⟩ := hc
    have := (hregs r (List.mem_of_getElem? hr)).1
    simp at this
    omega
  have hfits : fits r.width e := he.trans_lt (Nat.mod_lt _ (Nat.two_pow_pos _))
  have hzero (hk : r.kind = .zero) := exec_registerWriter_zero hr hk hd
  refine ⟨hasCode_regValue i d fun _ => rfl, hasCode_regValue i d fun _ => rfl, fun hk => ?_,
    fun hk => ⟨hzero hk _ (by simp [registerWriters]), hzero hk _ (by simp [registerWriters])⟩, ?_⟩
  · have hreg := regs_getElem?_of_kind hr hk
    rw [exec_regIncInt hr hd, exec_regDecInt hr hd, writeReg_concrete _ hreg, writeReg_concrete _ hreg,
      lowBits_add hw, lowBits_sub hw, readReg_concrete hreg]
    exact ⟨rfl, rfl⟩
  · rw [exec_regDecInt hr hd, exec_regIncInt hr hfits]
    cases hk : r.kind with
    | concrete =>
      have hreg := regs_getElem?_of_kind hr hk
      rw [writeReg_concrete _ hreg, writeReg_concrete _ hreg, lowBits_add_complement hw _ hd he]
    | zero =>
      have hreg := regs_getElem?_of_kind hr hk
      rw [writeReg_zero _ hreg, writeReg_zero _ hreg]

/-! ### The patterns of float arithmetic (R17, D11) -/

section
variable (f : FloatFormat)

/-- The NaNs are the magnitudes above infinity, one for each fraction but 0. -/
theorem FloatFormat.infinity_add : f.infinity + 2 ^ f.mb = 2 ^ (f.eb + f.mb) := by
  rw [infinity, ← Nat.succ_mul, Nat.succ_eq_add_one, Nat.sub_add_cancel Nat.one_le_two_pow, pow_add]

theorem FloatFormat.infinity_lt : f.infinity < 2 ^ (f.eb + f.mb) :=
  f.infinity_add ▸ Nat.lt_add_of_pos_right (Nat.two_pow_pos _)

theorem FloatFormat.magnitude_lt (x : Nat) : f.magnitude x < 2 ^ (f.eb + f.mb) :=
  Nat.mod_lt _ (Nat.two_pow_pos _)

theorem FloatFormat.signed_lt (neg : Bool) {m : Nat} (hm : m < 2 ^ (f.eb + f.mb)) :
    f.signed neg m < 2 ^ (f.eb + f.mb + 1) := by
  rw [signed, pow_succ]
  split <;> omega

theorem FloatFormat.round_lt (heb : 1 ≤ f.eb) (n : Nat) : f.round n < 2 ^ (f.eb + f.mb) := by
  unfold round
  split
  · next hn => exact hn.trans_le (Nat.pow_le_pow_right (by decide) (by omega))
  · exact (Nat.min_le_right _ _).trans_lt f.infinity_lt

theorem FloatFormat.quietNaN_lt (hmb : 1 ≤ f.mb) (free : Nat) : f.quietNaN free < 2 ^ (f.eb + f.mb + 1) := by
  refine f.signed_lt _ ?_
  have hhalf : 2 ^ f.mb = 2 ^ (f.mb - 1) + 2 ^ (f.mb - 1) := by
    rw [← Nat.two_mul, ← pow_succ', Nat.sub_add_cancel hmb]
  rw [← f.infinity_add, hhalf, Nat.add_assoc]
  have hfree := Nat.mod_lt free (Nat.two_pow_pos (f.mb - 1))
  omega

/-- A sum is a pattern of the format, whatever the operands are: in each case a sign and a magnitude. -/
theorem FloatFormat.add_lt (heb : 1 ≤ f.eb) (hmb : 1 ≤ f.mb) (free x y : Nat) :
    f.add free x y < 2 ^ (f.eb + f.mb + 1) := by
  simp only [add]
  split
  · exact f.quietNaN_lt hmb free
  split
  · split
    · exact f.quietNaN_lt hmb free
    · exact f.signed_lt _ (f.magnitude_lt x)
  split
  · exact f.signed_lt _ (f.magnitude_lt y)
  split
  · exact f.signed_lt _ (Nat.two_pow_pos _)
  · exact f.signed_lt _ (f.round_lt heb _)

theorem FloatFormat.sub_lt (heb : 1 ≤ f.eb) (hmb : 1 ≤ f.mb) (free x y : Nat) :
    f.sub free x y < 2 ^ (f.eb + f.mb + 1) :=
  f.add_lt heb hmb free x (f.negate y)

end

theorem fits_setWidth {w : Nat} (v : BitVec w) : fits w (v.setWidth 64) := by
  rw [fits, BitVec.toNat_setWidth]
  exact (Nat.mod_le _ _).trans_lt v.isLt

theorem fits_ofNat {w n : Nat} (h : n < 2 ^ w) : fits w (BitVec.ofNat 64 n) :=
  (BitVec.toNat_ofNat n 64 ▸ Nat.mod_le _ _).trans_lt h

/-- FNUM's sum is a pattern of the width (R17). -/
theorem fnumAdd_fits (n : Fnum) {w : Nat} (a b : Word) (hw : w = 32 ∨ w = 64) :
    ∃ x, fnumAdd n w a b = some x ∧ fits w x := by
  rcases hw with rfl | rfl
  · cases n with
    | external id => exact ⟨_, rfl, fits_setWidth _⟩
    | ieee754 => exact ⟨_, rfl, fits_ofNat (binary32.add_lt (by decide) (by decide) _ _ _)⟩
  · cases n <;> exact ⟨_, rfl, BitVec.isLt _⟩

/-- FNUM's difference is a pattern of the width (R17). -/
theorem fnumSub_fits (n : Fnum) {w : Nat} (a b : Word) (hw : w = 32 ∨ w = 64) :
    ∃ x, fnumSub n w a b = some x ∧ fits w x := by
  rcases hw with rfl | rfl
  · cases n with
    | external id => exact ⟨_, rfl, fits_setWidth _⟩
    | ieee754 => exact ⟨_, rfl, fits_ofNat (binary32.sub_lt (by decide) (by decide) _ _ _)⟩
  · cases n <;> exact ⟨_, rfl, BitVec.isLt _⟩

theorem fnumAdd_none (n : Fnum) {w : Nat} (a b : Word) (hw : w = 8 ∨ w = 16) : fnumAdd n w a b = none := by
  rcases hw with rfl | rfl <;> cases n <;> rfl

theorem fnumSub_none (n : Fnum) {w : Nat} (a b : Word) (hw : w = 8 ∨ w = 16) : fnumSub n w a b = none := by
  rcases hw with rfl | rfl <;> cases n <;> rfl

/-! ### Float arithmetic on a register (R147, R148) -/

/-- Arithmetic whose result is a pattern of the register's width: the register holds all of it. -/
theorem floatUpdate_stores {s : State} {i : Nat} {r : RegSpec} {d : Word}
    {arith : Fnum → Nat → Word → Word → Option Word} (hr : s.cfg.regs[i]? = some r) (hd : fits r.width d)
    (hk : r.kind = .concrete)
    (hfits : ∃ x, arith s.cfg.fnum r.width (s.regs.getD i 0#64) d = some x ∧ fits r.width x) :
    ∃ x, arith s.cfg.fnum r.width (s.regs.getD i 0#64) d = some x ∧
      floatUpdate arith i d s = .next { s with regs := s.regs.set i x, reply := .ok } := by
  obtain ⟨x, hx, hxfits⟩ := hfits
  have hreg := regs_getElem?_of_kind hr hk
  refine ⟨x, hx, ?_⟩
  rw [floatUpdate_some hr hd hk (x := x) (by rw [readReg_concrete hreg, hx]), writeReg_concrete _ hreg,
    lowBits_of_fits hxfits]
  rfl

/-- Settles O22: FNUM answers a pattern of 32 or 64 bits, which the register keeps, and none of 8 or 16. -/
theorem floatIncrementAndDecrement : Obligations.FloatIncrementAndDecrement := by
  unfold Obligations.FloatIncrementAndDecrement
  intro s i r d hr hd
  exact ⟨hasCode_regValue i d fun _ => rfl, hasCode_regValue i d fun _ => rfl,
    fun hk hw => ⟨floatUpdate_stores hr hd hk (fnumAdd_fits _ _ _ hw),
      floatUpdate_stores hr hd hk (fnumSub_fits _ _ _ hw)⟩,
    fun hk hw => ⟨floatUpdate_none hr hd hk (fnumAdd_none _ _ _ hw),
      floatUpdate_none hr hd hk (fnumSub_none _ _ _ hw)⟩,
    fun hk => ⟨floatUpdate_zero hr hd hk, floatUpdate_zero hr hd hk⟩⟩

/-! ### The frame of the register and PC operations -/

theorem readReg_writeReg_other (s : State) {i j : Nat} (v : Word) (h : j ≠ i) :
    (s.writeReg i v).readReg j = s.readReg j := by
  rcases writeReg_cases s i v with hw | ⟨w, x, -, hw⟩
  · rw [hw]
  · rw [hw]
    simp only [State.readReg, State.setSlot_cfg, State.setSlot_regs, List.getD_eq_getElem?_getD,
      List.getElem?_set_ne h.symm]

/-- A register write that answers OK changes the status and no register but the one it names. -/
theorem writeReg_answer_frame {s t : State} {i : Nat} {v : Word} (h : t = (s.writeReg i v).answer .ok) :
    t = { s with regs := t.regs, reply := .ok } ∧ ∀ j, j ≠ i → t.readReg j = s.readReg j := by
  subst h
  refine ⟨?_, fun j hj => readReg_writeReg_other s v hj⟩
  rw [writeReg_frame]
  rfl

section
variable {s t : State} {i : Nat} {v : Word}

theorem regWrite_eq_next {x : Word}
    (h : (withRegisterValue i v s fun _ => .next ((s.writeReg i x).answer .ok)) = .next t) :
    t = (s.writeReg i x).answer .ok := by
  obtain ⟨-, -, -, h⟩ := withRegisterValue_eq_next h
  cases h
  rfl

theorem floatUpdate_eq_next {arith : Fnum → Nat → Word → Word → Option Word}
    (h : floatUpdate arith i v s = .next t) : ∃ x, t = (s.writeReg i x).answer .ok := by
  obtain ⟨r, hr, -, h⟩ := withRegisterValue_eq_next h
  split at h
  · next hk =>
    cases h
    exact ⟨0#64, by rw [writeReg_zero _ (regs_getElem?_of_kind hr hk)]⟩
  · split at h
    · next x _ => cases h; exact ⟨x, rfl⟩
    · cases h

/-- All that a writer does when it goes on: one write of the register it names, which a Zero register drops. -/
theorem exec_registerWriter_eq_next {op : Instr} (hop : op ∈ registerWriters i v) (h : exec op s = .next t) :
    ∃ x, t = (s.writeReg i x).answer .ok := by
  simp only [registerWriters, List.mem_cons, List.not_mem_nil, or_false] at hop
  rcases hop with rfl | rfl | rfl | rfl | rfl | rfl
  · exact ⟨_, regWrite_eq_next h⟩
  · exact ⟨_, regWrite_eq_next h⟩
  · exact ⟨_, regWrite_eq_next h⟩
  · exact ⟨_, regWrite_eq_next h⟩
  · exact floatUpdate_eq_next h
  · exact floatUpdate_eq_next h

theorem regRead_frame {f : RegSpec → Reply} (h : (withRegister i s fun r => .next (s.answer (f r))) = .next t) :
    t = { s with reply := t.reply } := by
  obtain ⟨r, -, h⟩ := withRegister_eq_next h
  cases h
  rfl

end

theorem exec_pcIncrement (d : Word) (s : State) : exec (.pcIncrement d) s = .next ((s.advancePc d).answer .ok) := rfl

theorem exec_pcRead (s : State) : exec .pcRead s = .next (s.answer (.okVal (.bits 64 s.pc))) := rfl

/-- Settles O28: a writer and PC.INCREMENT are one register write, and the others answer alone. -/
theorem registerOperationsFrame : Obligations.RegisterOperationsFrame := by
  unfold Obligations.RegisterOperationsFrame
  refine fun s t i v => ⟨fun op hop h => ?_, fun op hop h => ?_, fun h => ?_⟩
  · obtain ⟨x, ht⟩ := exec_registerWriter_eq_next hop h
    exact writeReg_answer_frame ht
  · simp only [List.mem_cons, List.not_mem_nil, or_false] at hop
    rcases hop with rfl | rfl | rfl | rfl
    · exact regRead_frame h
    · exact regRead_frame h
    · exact regRead_frame h
    · cases h; rfl
  · rw [exec_pcIncrement] at h
    cases h
    exact writeReg_answer_frame rfl

/-! ### The PC (R160 to R162) -/

/-- An advance by nothing: the PC's slot gets the bits that it holds. -/
theorem Inv.advancePc_zero {s : State} (h : Inv s) : s.advancePc 0 = s := by
  obtain ⟨w, x, hreg, -, -, hlt, hpc, hfits⟩ := h.pc_register
  have hsame : s.regs.set s.cfg.pcIndex s.pc = s.regs := by
    rw [hpc, List.getD_eq_getElem _ _ hlt, List.set_getElem_self]
  rw [State.advancePc, add_zero, writeReg_concrete _ hreg, lowBits_of_fits hfits, State.setSlot, hsame]

/-- An advance by the pattern of a negative number (R160). -/
theorem Inv.advancePc_neg {s : State} (h : Inv s) (d : Word) :
    s.advancePc (-d) = { s with
      regs := s.regs.set s.cfg.pcIndex
        (BitVec.ofInt 64 (((s.pc.toNat : Int) - d.toNat) % 2 ^ pcWidth s.cfg)) } := by
  obtain ⟨w, x, hreg, hw, hwidth, -⟩ := h.pc_register
  have hle : w ≤ 64 := by simp at hwidth; omega
  rw [State.advancePc, ← BitVec.sub_eq_add_neg, writeReg_concrete _ hreg, lowBits_sub hle, hw]
  rfl

/-- Settles O29: the advance by the delta, by the pattern of its negative, and by nothing. -/
theorem pcIncrementWrapsAtItsWidth : Obligations.PcIncrementWrapsAtItsWidth := by
  unfold Obligations.PcIncrementWrapsAtItsWidth
  intro s delta h
  rw [exec_pcIncrement, exec_pcIncrement, exec_pcIncrement, h.advancePc_eq, h.advancePc_neg, h.advancePc_zero]
  exact ⟨hasCode_of_standard rfl rfl, rfl, rfl, rfl⟩

/-- Settles O30: the PC is a Concrete register, whose slot holds a pattern of its width. -/
theorem pcReadZeroExtends : Obligations.PcReadZeroExtends := by
  unfold Obligations.PcReadZeroExtends
  intro s h
  obtain ⟨w, x, -, hw, -, -, hpc, hfits⟩ := h.pc_register
  rw [exec_pcRead, ← hpc, hw]
  exact ⟨hasCode_of_standard rfl rfl, rfl, hfits⟩

/-- Settles O31: both sides write the PC's register, and `pc` is what that register reads as. -/
theorem pcIsAnOrdinaryRegister : Obligations.PcIsAnOrdinaryRegister := by
  unfold Obligations.PcIsAnOrdinaryRegister
  intro s v h hv
  obtain ⟨w, x, hreg, hw, -, hlt, -⟩ := h.pc_register
  rw [hw] at hv ⊢
  have hset : ((s.writeReg s.cfg.pcIndex v).answer .ok).pc = v := by
    rw [State.pc, State.answer_cfg, writeReg_cfg]
    exact (readReg_writeReg_same v hreg hlt).trans (lowBits_of_fits hv)
  refine ⟨(exec_regIncInt hreg hv).symm, exec_regGetInt hreg, _, exec_regSetInt hreg hv, hset, ?_⟩
  rw [exec_pcRead, hset]
  rfl

end Sys2Proof.Machine
end

section
/-! PROOFS of the family 43_cycle.md: what a cycle does where its fetch fails and where it is in bounds, and that steps
complete where their scripts return and make admitted calls. -/

namespace Sys2Proof.Machine

/-! ### One cycle, from what its script does (R181 to R185) -/

section
variable {s t : State} {e : Ending}

/-- RUN's return is the status, on the state that RUN left (R182, R185). -/
theorem dispatchWord_of_run {w : Word} (h : runScript s.cfg.run [w] [] (s.log (.ran w)) = .next (t, e)) :
    dispatchWord w s = .next (t.answer e.ofRunner) := by
  rw [dispatchWord, h, Result.andThen_next]

/-- Without a callback the raw violation is the status (R181). -/
theorem fetchFault_of_noCallback {av : AccessViolation} (hcb : s.cfg.cb = none) :
    fetchFault av s = .next (raise av s) := by
  rw [fetchFault, hcb]

/-- CB's return is the status, on the state that CB left (R183, R184). -/
theorem fetchFault_of_callback {av : AccessViolation} {cb : Script} (hcb : s.cfg.cb = some cb)
    (h : runScript cb [av.location, av.numBytes, if av.wasRead then 1#64 else 0#64] [] (s.log (.calledBack av)) =
      .next (t, e)) : fetchFault av s = .next (t.answer e.ofCallback) := by
  simp only [fetchFault, hcb, h, Result.andThen_next]

/-- A cycle whose fetch is in bounds is RUN from the state whose PC has advanced (R182). -/
theorem Inv.cycleOnce_of_run (hs : Inv s) (hfetch : s.pc.toNat + s.cfg.width ≤ s.cfg.memSize)
    (h : runScript s.cfg.run [fetchedWord s] [] (beforeRun s (fetchedWord s)) = .next (t, e)) :
    cycleOnce s = .next (t.answer e.ofRunner) := by
  rw [cycleOnce_fetchedWord hfetch]
  exact dispatchWord_of_run (by rwa [hs.beforeRun_eq, advancePc_cfg])

/-- What a cycle adds to the history where its fetch is in bounds: the word at the PC, given to RUN, and no call of CB
(R182, R183). -/
theorem cycleOnce_inBounds_events (hfetch : s.pc.toNat + s.cfg.width ≤ s.cfg.memSize) (h : cycleOnce s = .next t) :
    t.events = s.events ++ [.ran (fetchedWord s)] := by
  rw [cycleOnce_fetchedWord hfetch, advancePc_frame] at h
  exact (dispatchWord_keeps h).events

end

theorem ofRunner_isErr {e : Ending} (h : e ≠ .ok) : e.ofRunner.isErr = true := by
  cases e with
  | ok => exact absurd rfl h
  | payload p => rfl
  | violation av => rfl

/-- Settles O33: a failed fetch raises the violation, and a fetch in bounds leaves its word in the history. -/
theorem fetchFaultWithoutCallback : Obligations.FetchFaultWithoutCallback := by
  unfold Obligations.FetchFaultWithoutCallback
  refine fun s hcb => ⟨fun hfetch => ?_, fun hfetch t h => cycleOnce_inBounds_events hfetch h⟩
  exact (cycleOnce_outOfBounds hfetch).trans (fetchFault_of_noCallback hcb)

/-- Settles O34: the state when RUN starts is the advanced one, and the cycle is RUN from there. -/
theorem fetchedWordGoesToRun : Obligations.FetchedWordGoesToRun := by
  unfold Obligations.FetchedWordGoesToRun
  intro s t e hs hfetch word hrun
  have hcycle : exec .cycleStep s = .next (t.answer e.ofRunner) := hs.cycleOnce_of_run hfetch hrun
  have hpc : (beforeRun s word).pc = (s.advancePc (BitVec.ofNat 64 s.cfg.width)).pc := by
    rw [← hs.beforeRun_eq]
    rfl
  refine ⟨?_, cycleOnce_inBounds_events (t := t.answer e.ofRunner) hfetch hcycle, ?_, ?_, ?_⟩
  · rw [hpc, hs.pc_advancePc, hs.width_toNat]
  · rintro rfl
    exact hcycle
  · rintro p rfl
    exact hcycle
  · rintro av rfl
    exact hcycle

/-- Settles O36: a failed fetch is the call of CB, and a fetch in bounds leaves its word in the history. -/
theorem fetchFaultWithCallback : Obligations.FetchFaultWithCallback := by
  unfold Obligations.FetchFaultWithCallback
  refine fun s cb hcb => ⟨fun hfetch t e hrun => ?_, fun hfetch t h => ⟨_, cycleOnce_inBounds_events hfetch h⟩⟩
  have hcycle : exec .cycleStep s = .next (t.answer e.ofCallback) :=
    (cycleOnce_outOfBounds hfetch).trans (fetchFault_of_callback hcb hrun)
  refine ⟨(runScript_keeps hrun).events, ?_, ?_, ?_⟩
  · rintro rfl
    exact hcycle
  · rintro p rfl
    exact hcycle
  · rintro av rfl
    exact hcycle

/-- Settles O37: the cycle is RUN, whose error is the status, and such a cycle is the whole of SCHED.STEP. -/
theorem runnerErrorLeavesEffects : Obligations.RunnerErrorLeavesEffects := by
  unfold Obligations.RunnerErrorLeavesEffects
  intro s t e hs hfetch he word hrun
  have hcycle : cycleOnce s = .next (t.answer e.ofRunner) := hs.cycleOnce_of_run hfetch hrun
  exact ⟨hcycle, execSchedStep_of_err hcycle (ofRunner_isErr he)⟩

/-! ### The operands of admitted calls (R25, R54, R87) -/

section
variable {c : Cfg} {w : Nat} {p : RegSpec → Bool} {e : Expr} {xs : List Arg} (args : List Word) (answers : List Reply)

theorem exprWithin_fits (h : exprWithin w e = true) : fits w (evalExpr args answers e) := by
  unfold exprWithin at h
  split at h
  · exact of_decide_eq_true h
  · next a m =>
    have hmask : fits w m := of_decide_eq_true h
    have hand : (evalExpr args answers a &&& m).toNat ≤ m.toNat := by
      rw [BitVec.toNat_and]
      exact Nat.and_le_right
    exact hand.trans_lt hmask
  · have hw : 64 ≤ w := of_decide_eq_true h
    exact (BitVec.isLt _).trans_le (Nat.pow_le_pow_right (by decide) hw)

theorem orderOfCore_toNat (h : orderOfCore c e = true) : (evalExpr args answers e).toNat = orderCode c.order := by
  unfold orderOfCore at h
  split at h
  · exact of_decide_eq_true h
  · cases h

theorem registerWith_register (h : registerWith c p e = true) :
    ∃ r, c.regs[(evalExpr args answers e).toNat]? = some r ∧ p r = true := by
  unfold registerWith at h
  split at h
  · next v =>
    rw [evalExpr]
    rcases hr : c.regs[v.toNat]? with _ | r
    · simp [hr] at h
    · exact ⟨r, rfl, by simpa [hr] using h⟩
  · cases h

theorem readAdmitted_operands (h : readAdmitted c xs = true) :
    ∃ a : Word, xs.map (evalArg args answers) = [.num (orderCode c.order), .num a.toNat] := by
  unfold readAdmitted at h
  split at h
  · next o a =>
    rw [← orderOfCore_toNat args answers h]
    exact ⟨_, rfl⟩
  · cases h

theorem writeAdmitted_operands (h : writeAdmitted c w xs = true) : ∃ (a : Word) (v : BitVec w),
    xs.map (evalArg args answers) = [.num (orderCode c.order), .num a.toNat, .num v.toNat] := by
  unfold writeAdmitted at h
  split at h
  · next o a v =>
    obtain ⟨ho, hv⟩ := Bool.and_eq_true_iff.1 h
    obtain ⟨x, hx⟩ := exists_toNat_eq (exprWithin_fits args answers hv)
    rw [← orderOfCore_toNat args answers ho]
    exact ⟨_, x, by rw [← hx]; rfl⟩
  · cases h

theorem registerAdmitted_operands (h : registerAdmitted c xs = true) :
    ∃ i r, xs.map (evalArg args answers) = [.num i] ∧ c.regs[i]? = some r := by
  unfold registerAdmitted at h
  split at h
  · obtain ⟨r, hr, -⟩ := registerWith_register args answers h
    exact ⟨_, r, rfl, hr⟩
  · cases h

theorem registerValueAdmitted_operands (h : registerValueAdmitted c p xs = true) : ∃ i r, ∃ v : Word,
    xs.map (evalArg args answers) = [.num i, .num v.toNat] ∧ c.regs[i]? = some r ∧ fits r.width v ∧ p r = true := by
  unfold registerValueAdmitted at h
  split at h
  · obtain ⟨r, hr, h⟩ := registerWith_register args answers h
    obtain ⟨hv, hp⟩ := Bool.and_eq_true_iff.1 h
    exact ⟨_, r, _, rfl, hr, exprWithin_fits args answers hv, hp⟩
  · cases h

end

/-! ### Operations that complete -/

theorem memReadByte_completes (a : Word) (s : State) : ∃ t, execMemReadByte a s = .next t := by
  by_cases hb : a.toNat < s.cfg.memSize
  · exact ⟨_, memReadByte_inBounds hb⟩
  · exact ⟨_, memReadByte_outOfBounds (by omega)⟩

theorem memWriteByte_completes (v : Byte) (a : Word) (s : State) : ∃ t, execMemWriteByte v a s = .next t := by
  rw [memWriteByte_eq_storeRaw]
  exact storeRaw_completes a [v] s

theorem memReadRaw_completes (a n : Word) (s : State) : ∃ t, execMemReadRaw a n s = .next t := by
  by_cases hb : a.toNat + n.toNat ≤ s.cfg.memSize
  · exact ⟨_, memReadRaw_inBounds hb⟩
  · exact ⟨_, memReadRaw_outOfBounds (by omega)⟩

theorem memWriteRaw_completes {data : List Byte} (h : data.length < 2 ^ 64) (a : Word) (s : State) :
    ∃ t, execMemWriteRaw data a s = .next t := by
  rw [memWriteRaw_eq_storeRaw h]
  exact storeRaw_completes a data s

/-- A typed access in the core's order completes inside a step (R54). -/
theorem innerOp_typed_completes {i : Instr} {s : State} (h : orderOf? i = some s.cfg.order) :
    ∃ t, innerOp i s = .next t := by
  obtain ⟨hinner, t, ht⟩ := innerOp_exec_of_typed h s
  exact ⟨t, by rw [hinner, throughCore_order _ rfl, ht]⟩

/-- REJECT answers a submission to a full channel (R201). -/
theorem submit_reject_completes {s : State} (h : s.cfg.fullPolicy = .reject) (inside : Bool) (x : Action) :
    ∃ t, submit inside x s = .next t := by
  unfold submit
  split
  · exact ⟨_, rfl⟩
  · rw [h]
    exact ⟨_, rfl⟩

/-- Float arithmetic completes on a register for which it has a meaning (R147, R148). -/
theorem floatUpdate_completes {arith : Fnum → Nat → Word → Word → Option Word} {s : State} {i : Nat} {r : RegSpec}
    {d : Word} (harith : ∀ n w a b, w = 32 ∨ w = 64 → ∃ x, arith n w a b = some x ∧ fits w x)
    (hr : s.cfg.regs[i]? = some r) (hd : fits r.width d) (hfloat : floatRegister r = true) :
    ∃ t, floatUpdate arith i d s = .next t := by
  have hformat : r.kind = .zero ∨ r.width = 32 ∨ r.width = 64 := of_decide_eq_true hfloat
  cases hk : r.kind with
  | zero => exact ⟨_, floatUpdate_zero hr hd hk⟩
  | concrete =>
    obtain ⟨x, hx, -⟩ := harith s.cfg.fnum r.width (s.readReg i) d (hformat.resolve_left (by simp [hk]))
    exact ⟨_, floatUpdate_some hr hd hk hx⟩

/-! ### Admitted calls complete (R86, R88) -/

section
variable {s : State} {op : Byte} {xs : List Arg} (args : List Word) (answers : List Reply)

/-- A call completes when its record decodes to an operation that does. -/
theorem invoke_completes_of_decode {i : Instr} (hdecode : decodeOp op (xs.map (evalArg args answers)) = .ok i)
    (hinner : ∃ t, innerOp i s = .next t) : ∃ t, invoke ⟨op, xs⟩ args answers s = .next t := by
  rwa [invoke_of_ok hdecode]

theorem invoke_read_completes {k : ByteOrder → Word → Instr} (hop : ∀ ys, decodeOp op ys = readOperands op ys k)
    (hk : ∀ o a, orderOf? (k o a) = some o) (h : readAdmitted s.cfg xs = true) :
    ∃ t, invoke ⟨op, xs⟩ args answers s = .next t := by
  obtain ⟨a, hxs⟩ := readAdmitted_operands args answers h
  exact invoke_completes_of_decode args answers ((hop _).trans (readOperands_eq_ok.2 ⟨_, a, hxs, rfl⟩))
    (innerOp_typed_completes (hk _ a))

theorem invoke_write_completes {w : Nat} {k : ByteOrder → Word → BitVec w → Instr}
    (hop : ∀ ys, decodeOp op ys = writeOperands w op ys k) (hk : ∀ o a v, orderOf? (k o a v) = some o)
    (h : writeAdmitted s.cfg w xs = true) : ∃ t, invoke ⟨op, xs⟩ args answers s = .next t := by
  obtain ⟨a, v, hxs⟩ := writeAdmitted_operands args answers h
  exact invoke_completes_of_decode args answers ((hop _).trans (writeOperands_eq_ok.2 ⟨_, a, v, hxs, rfl⟩))
    (innerOp_typed_completes (hk _ a v))

theorem invoke_register_completes {k : Nat → Instr} (hop : ∀ ys, decodeOp op ys = regOperand op ys k)
    (hk : ∀ i r, s.cfg.regs[i]? = some r → ∃ t, innerOp (k i) s = .next t) (h : registerAdmitted s.cfg xs = true) :
    ∃ t, invoke ⟨op, xs⟩ args answers s = .next t := by
  obtain ⟨i, r, hxs, hr⟩ := registerAdmitted_operands args answers h
  exact invoke_completes_of_decode args answers ((hop _).trans (regOperand_eq_ok.2 ⟨i, hxs, rfl⟩)) (hk i r hr)

theorem invoke_registerValue_completes {k : Nat → Word → Instr} {p : RegSpec → Bool}
    (hop : ∀ ys, decodeOp op ys = regValueOperands op ys k)
    (hk : ∀ i r v, s.cfg.regs[i]? = some r → fits r.width v → p r = true → ∃ t, innerOp (k i v) s = .next t)
    (h : registerValueAdmitted s.cfg p xs = true) : ∃ t, invoke ⟨op, xs⟩ args answers s = .next t := by
  obtain ⟨i, r, v, hxs, hr, hv, hp⟩ := registerValueAdmitted_operands args answers h
  exact invoke_completes_of_decode args answers ((hop _).trans (regValueOperands_eq_ok.2 ⟨i, v, hxs, rfl⟩))
    (hk i r v hr hv hp)

theorem invoke_memReadByte_completes (h : callAdmitted s.cfg ⟨0x01, xs⟩ = true) :
    ∃ t, invoke ⟨0x01, xs⟩ args answers s = .next t := by
  simp only [callAdmitted, BitVec.reduceToNat] at h
  split at h
  · exact invoke_completes_of_decode args answers ((oneNum_eq_ok (op := 0x01)).2 ⟨_, rfl, rfl⟩)
      (memReadByte_completes _ s)
  · cases h

theorem invoke_memWriteByte_completes (h : callAdmitted s.cfg ⟨0x02, xs⟩ = true) :
    ∃ t, invoke ⟨0x02, xs⟩ args answers s = .next t := by
  simp only [callAdmitted, BitVec.reduceToNat] at h
  split at h
  · obtain ⟨v, hv⟩ := exists_toNat_eq (exprWithin_fits args answers h)
    exact invoke_completes_of_decode args answers
      ((decodeOp_memWriteByte _).trans (twoNums_eq_ok.2 ⟨v, _, by rw [← hv]; rfl, rfl⟩)) (memWriteByte_completes v _ s)
  · cases h

theorem invoke_memReadRaw_completes (h : callAdmitted s.cfg ⟨0x03, xs⟩ = true) :
    ∃ t, invoke ⟨0x03, xs⟩ args answers s = .next t := by
  simp only [callAdmitted, BitVec.reduceToNat] at h
  split at h
  · exact invoke_completes_of_decode args answers
      ((decodeOp_memReadRaw _).trans (twoNums_eq_ok.2 ⟨_, _, rfl, rfl⟩)) (memReadRaw_completes _ _ s)
  · cases h

theorem invoke_memWriteRaw_completes (h : callAdmitted s.cfg ⟨0x04, xs⟩ = true) :
    ∃ t, invoke ⟨0x04, xs⟩ args answers s = .next t := by
  simp only [callAdmitted, BitVec.reduceToNat] at h
  split at h
  · next es a =>
    have hlen : (es.map fun e => (evalExpr args answers e).setWidth 8).length < 2 ^ 64 := by
      rw [List.length_map]
      exact of_decide_eq_true h
    exact invoke_completes_of_decode args answers (decodeOp_memWriteRaw_eq_ok.2 ⟨_, _, hlen, rfl, rfl⟩)
      (memWriteRaw_completes hlen _ s)
  · cases h

theorem invoke_pcIncrement_completes (h : callAdmitted s.cfg ⟨0x30, xs⟩ = true) :
    ∃ t, invoke ⟨0x30, xs⟩ args answers s = .next t := by
  simp only [callAdmitted, BitVec.reduceToNat] at h
  split at h
  · exact invoke_completes_of_decode args answers ((oneNum_eq_ok (op := 0x30)).2 ⟨_, rfl, rfl⟩)
      ⟨_, exec_pcIncrement _ s⟩
  · cases h

theorem invoke_pcRead_completes (h : callAdmitted s.cfg ⟨0x31, xs⟩ = true) :
    ∃ t, invoke ⟨0x31, xs⟩ args answers s = .next t := by
  obtain rfl : xs = [] := List.isEmpty_iff.1 h
  exact invoke_completes_of_decode args answers (i := .pcRead) rfl ⟨_, exec_pcRead s⟩

theorem invoke_schedSubmit_completes (h : callAdmitted s.cfg ⟨0x50, xs⟩ = true) :
    ∃ t, invoke ⟨0x50, xs⟩ args answers s = .next t := by
  simp only [callAdmitted, BitVec.reduceToNat] at h
  split at h
  · exact invoke_completes_of_decode args answers
      ((decodeOp_schedSubmit _).trans (threeWords_eq_ok.2 ⟨_, _, _, rfl, rfl⟩))
      (submit_reject_completes (of_decide_eq_true h) true _)
  · cases h

end

/-- No call is admitted whose select code is not in the table (R87). -/
theorem mem_selectCodes_of_callAdmitted {c : Cfg} {k : Call} (h : callAdmitted c k = true) : k.op ∈ selectCodes := by
  by_contra hop
  simp only [selectCodes, List.mem_cons, List.not_mem_nil, or_false, not_or] at hop
  unfold callAdmitted at h
  split at h
  case h_27 => cases h
  all_goals bv_omega

/-- Every admitted call completes, whatever the script has learnt before it; a step is not admitted. -/
theorem invoke_admitted_completes {s : State} {k : Call} (args : List Word) (answers : List Reply)
    (h : callAdmitted s.cfg k = true) : ∃ t, invoke k args answers s = .next t := by
  have hop := mem_selectCodes_of_callAdmitted h
  obtain ⟨op, xs⟩ := k
  simp only [selectCodes, List.mem_cons, List.not_mem_nil, or_false] at hop
  rcases hop with rfl | rfl | rfl | rfl | rfl | rfl | rfl | rfl | rfl | rfl | rfl | rfl | rfl | rfl | rfl | rfl | rfl |
    rfl | rfl | rfl | rfl | rfl | rfl | rfl | rfl | rfl | rfl | rfl
  · exact invoke_memReadByte_completes args answers h
  · exact invoke_memWriteByte_completes args answers h
  · exact invoke_memReadRaw_completes args answers h
  · exact invoke_memWriteRaw_completes args answers h
  · exact invoke_read_completes args answers (fun _ => rfl) (fun _ _ => rfl) h
  · exact invoke_read_completes args answers (fun _ => rfl) (fun _ _ => rfl) h
  · exact invoke_read_completes args answers (fun _ => rfl) (fun _ _ => rfl) h
  · exact invoke_read_completes args answers (fun _ => rfl) (fun _ _ => rfl) h
  · exact invoke_read_completes args answers (fun _ => rfl) (fun _ _ => rfl) h
  · exact invoke_write_completes args answers (fun _ => rfl) (fun _ _ _ => rfl) h
  · exact invoke_write_completes args answers (fun _ => rfl) (fun _ _ _ => rfl) h
  · exact invoke_write_completes args answers (fun _ => rfl) (fun _ _ _ => rfl) h
  · exact invoke_write_completes args answers (fun _ => rfl) (fun _ _ _ => rfl) h
  · exact invoke_write_completes args answers (fun _ => rfl) (fun _ _ _ => rfl) h
  · exact invoke_registerValue_completes args answers (fun _ => rfl) (fun _ _ _ hr hv _ => ⟨_, exec_regSetInt hr hv⟩) h
  · exact invoke_register_completes args answers (fun _ => rfl) (fun _ _ hr => ⟨_, exec_regGetInt hr⟩) h
  · exact invoke_registerValue_completes args answers (fun _ => rfl) (fun _ _ _ hr hv _ => ⟨_, exec_regIncInt hr hv⟩) h
  · exact invoke_registerValue_completes args answers (fun _ => rfl) (fun _ _ _ hr hv _ => ⟨_, exec_regDecInt hr hv⟩) h
  · exact invoke_registerValue_completes args answers (fun _ => rfl)
      (fun _ _ _ hr hv _ => ⟨_, exec_regSetFloat hr hv⟩) h
  · exact invoke_register_completes args answers (fun _ => rfl) (fun _ _ hr => ⟨_, exec_regGetFloat hr⟩) h
  · exact invoke_registerValue_completes args answers (fun _ => rfl) (fun _ _ _ => floatUpdate_completes fnumAdd_fits) h
  · exact invoke_registerValue_completes args answers (fun _ => rfl) (fun _ _ _ => floatUpdate_completes fnumSub_fits) h
  · exact invoke_register_completes args answers (fun _ => rfl) (fun _ _ hr => ⟨_, exec_regCanWrite hr⟩) h
  · exact invoke_pcIncrement_completes args answers h
  · exact invoke_pcRead_completes args answers h
  · cases h
  · exact invoke_schedSubmit_completes args answers h
  · cases h

/-! ### Admitted scripts return, and the steps complete (R180, R204) -/

/-- A script that returns and makes admitted calls alone runs to its return: a call leaves the configuration, so the
calls after it are admitted too. -/
theorem runScript_admitted_completes {p : Script} (args : List Word) (answers : List Reply) {s : State}
    (h : scriptAdmitted s.cfg p = true) : ∃ t e, runScript p args answers s = .next (t, e) := by
  induction p generalizing answers s with
  | ret r => exact ⟨s, _, rfl⟩
  | hang => cases h
  | call k next ih =>
    obtain ⟨hk, hnext⟩ := Bool.and_eq_true_iff.1 h
    obtain ⟨u, hu⟩ := invoke_admitted_completes args answers hk
    rw [runScript_call_next hu]
    exact ih _ (by rwa [(invoke_cases hu).keeps.cfg])
  | branch e y n ihy ihn =>
    obtain ⟨hy, hn⟩ := Bool.and_eq_true_iff.1 h
    rw [runScript]
    split
    · exact ihy answers hy
    · exact ihn answers hn

theorem stepperAdmitted_iff {c : Cfg} : stepperAdmitted c = true ↔
    scriptAdmitted c c.run = true ∧ (∀ cb, c.cb = some cb → scriptAdmitted c cb = true) ∧
      scriptAdmitted c c.act = true := by
  rw [stepperAdmitted, Bool.and_eq_true, Bool.and_eq_true, and_assoc]
  cases c.cb <;> simp

section
variable {s : State} (h : stepperAdmitted s.cfg = true)
include h

theorem dispatchWord_completes (w : Word) : ∃ t, dispatchWord w s = .next t := by
  obtain ⟨hrun, -⟩ := stepperAdmitted_iff.1 h
  obtain ⟨t, e, ht⟩ := runScript_admitted_completes [w] [] (s := s.log (.ran w)) hrun
  exact ⟨_, dispatchWord_of_run ht⟩

theorem fetchFault_completes (av : AccessViolation) : ∃ t, fetchFault av s = .next t := by
  obtain ⟨-, hcb, -⟩ := stepperAdmitted_iff.1 h
  rcases hsome : s.cfg.cb with _ | cb
  · exact ⟨_, fetchFault_of_noCallback hsome⟩
  · obtain ⟨t, e, ht⟩ := runScript_admitted_completes _ [] (s := s.log (.calledBack av)) (hcb cb hsome)
    exact ⟨_, fetchFault_of_callback hsome ht⟩

theorem cycleOnce_completes : ∃ t, cycleOnce s = .next t := by
  by_cases hfetch : s.pc.toNat + s.cfg.width ≤ s.cfg.memSize
  · rw [cycleOnce_fetchedWord hfetch]
    exact dispatchWord_completes (by rwa [advancePc_cfg]) _
  · rw [cycleOnce_outOfBounds (by omega)]
    exact fetchFault_completes h _

theorem fire_completes (x : Action) : ∃ t, fire x s = .next t := by
  obtain ⟨-, -, hact⟩ := stepperAdmitted_iff.1 h
  obtain ⟨t, e, ht⟩ := runScript_admitted_completes [x.action] [] (s := s.log (.fired x)) hact
  exact ⟨t, by rw [fire, ht, Result.andThen_next]⟩

/-- A body leaves the configuration, so the bodies after it are admitted too. -/
theorem traverse_completes (l : List Action) : ∃ t survivors, traverse l s = .next (t, survivors) := by
  induction l generalizing s with
  | nil => exact ⟨s, [], rfl⟩
  | cons x xs ih =>
    rw [traverse]
    split
    · obtain ⟨u, hu⟩ := fire_completes h x
      obtain ⟨hcfg, -⟩ := fire_keeps hu
      rw [hu, Result.andThen_next]
      exact ih (by rwa [hcfg])
    · obtain ⟨u, survivors, hu⟩ := ih h
      exact ⟨u, _, by rw [hu, Result.andThen_next]⟩

theorem afterInner_completes : ∃ t, afterInner s = .next t := by
  obtain ⟨u, survivors, hu⟩ :=
    traverse_completes (s := { s with chan := s.chan.drop (drainCount s), pend := traversed s }) h (traversed s)
  exact ⟨_, by rw [afterInner_eq, hu, Result.andThen_next]⟩

theorem execSchedStep_completes : ∃ t, execSchedStep s = .next t := by
  obtain ⟨u, hu⟩ := cycleOnce_completes h
  obtain ⟨added, hkeeps⟩ := cycleOnce_keeps hu
  rcases hkeeps.reply with hok | herr
  · rw [execSchedStep_of_ok hu hok]
    exact afterInner_completes (by rwa [hkeeps.cfg])
  · exact ⟨u, execSchedStep_of_err hu herr⟩

end

/-- A SCHED.STEP that goes on answers OK or an error (R209, R211). -/
theorem schedStep_reply {s t : State} (h : exec .schedStep s = .next t) : t.reply = .ok ∨ t.reply.isErr = true :=
  or_iff_not_imp_left.2 fun hok => (schedStep_faulted h hok).2

/-- Settles O52: RUN, CB and the bodies return, call by call, and every step is made of them. -/
theorem admittedStepsComplete : Obligations.AdmittedStepsComplete := by
  unfold Obligations.AdmittedStepsComplete
  refine fun s h => ⟨?_, ?_, fun word hfits => ?_⟩
  · obtain ⟨t, ht⟩ := cycleOnce_completes h
    obtain ⟨added, hkeeps⟩ := cycleOnce_keeps ht
    exact ⟨t, ht, hkeeps.reply, fun hfetch => cycleOnce_inBounds_events hfetch ht⟩
  · obtain ⟨t, ht⟩ := execSchedStep_completes h
    exact ⟨t, ht, schedStep_reply ht⟩
  · obtain ⟨t, ht⟩ := dispatchWord_completes h word
    have hkeeps := dispatchWord_keeps ht
    exact ⟨t, (exec_runWord_of_fits hfits).trans ht, hkeeps.reply, hkeeps.events⟩

end Sys2Proof.Machine
end

section
/-! PROOFS of the family 44_scheduler.md: what a successful SCHED.STEP and every other operation do to the lists of the
scheduler and to the history, what counted runs leave pending, submissions, and that tags have no effect. -/

namespace Sys2Proof.Machine

/-! ### One successful step (R204 to R209) -/

/-- No cycle fires an action (R187, R216). -/
theorem CycleKeeps.fired_notMem {s t : State} {added : List Event} (k : CycleKeeps s t added) (x : Action) :
    Event.fired x ∉ added := by
  rcases k.added with rfl | ⟨w, rfl⟩ | ⟨av, rfl⟩ <;> simp

theorem CycleKeeps.length_le_one {s t : State} {added : List Event} (k : CycleKeeps s t added) :
    added.length ≤ 1 := by
  rcases k.added with rfl | ⟨w, rfl⟩ | ⟨av, rfl⟩ <;> simp

/-- What a successful step does to the pending list and to the history, from the state its inner step left. -/
theorem OkStep.pend_events {s t : State} (h : OkStep s t) : ∃ s1 inner, exec .cycleStep s = .next s1 ∧
    CycleKeeps s s1 inner ∧ t.pend = aged 1 (traversed s1) ∧ t.events = s1.events ++ due 0 (traversed s1) := by
  obtain ⟨s1, s2, inner, hcycle, -, k, -, rfl, hevents⟩ := h.cases
  exact ⟨s1, inner, hcycle, k, rfl, hevents⟩

/-- The inner step leaves the pending list, so what was pending heads the traversed list (R205). -/
theorem CycleKeeps.traversed_eq_append {s t : State} {added : List Event} (k : CycleKeeps s t added) :
    traversed t = s.pend ++ t.chan.take (drainCount t) := by
  rw [traversed_eq, k.pend]

/-! ### Operations that are no successful step (R211, R216) -/

/-- What an operation that is no successful step keeps: the pending list, and in order what the channel and the waiting
list held; and it fires nothing. -/
structure Unscheduled (s t : State) : Prop where
  pend   : t.pend = s.pend
  chan   : s.chan <+: t.chan
  held   : s.held <+: t.held
  events : ∃ added, t.events = s.events ++ added ∧ ∀ x, Event.fired x ∉ added

theorem CycleKeeps.unscheduled {s t : State} {added : List Event} (k : CycleKeeps s t added) : Unscheduled s t :=
  ⟨k.pend, k.chan, by rw [k.held], added, k.events, k.fired_notMem⟩

theorem OpCase.unscheduled {inside : Bool} {s t : State} (h : OpCase inside s t) : Unscheduled s t := by
  have nothing : ∃ added, s.events = s.events ++ added ∧ ∀ x, Event.fired x ∉ added := ⟨[], by simp, by simp⟩
  cases h with
  | status r => exact ⟨rfl, List.prefix_refl _, List.prefix_refl _, nothing⟩
  | store a data h => exact ⟨rfl, List.prefix_refl _, List.prefix_refl _, nothing⟩
  | register i v =>
    rw [writeReg_frame]
    exact ⟨rfl, List.prefix_refl _, List.prefix_refl _, nothing⟩
  | submitted x h => exact ⟨rfl, List.prefix_append _ _, List.prefix_refl _, nothing⟩
  | heldBack x hi hp h => exact ⟨rfl, List.prefix_refl _, List.prefix_append _ _, nothing⟩

theorem exec_unscheduled {i : Instr} {s t : State} (h : exec i s = .next t)
    (hno : ¬ (i = .schedStep ∧ t.reply = .ok)) : Unscheduled s t := by
  by_cases hs : i = .schedStep
  · subst hs
    obtain ⟨hcycle, -⟩ := schedStep_faulted h fun hok => hno ⟨rfl, hok⟩
    obtain ⟨added, k⟩ := cycleOnce_keeps hcycle
    exact k.unscheduled
  by_cases hc : i = .cycleStep
  · subst hc
    obtain ⟨added, k⟩ := cycleOnce_keeps h
    exact k.unscheduled
  by_cases hw : ∃ w, i = .runWord w
  · obtain ⟨w, rfl⟩ := hw
    exact (dispatchWord_keeps (dispatchWord_of_exec h)).unscheduled
  · exact (exec_cases h hc hs fun w hi => hw ⟨w, hi⟩).unscheduled

/-! ### Counted runs (R207, R210, R213) -/

/-- Each counted step ages the pending list by one and appends behind it; whatever stands between leaves it. -/
theorem CountedRun.pend_eq {n : Nat} {s t : State} (h : CountedRun n s t) :
    ∃ behind, t.pend = aged n s.pend ++ behind := by
  induction h with
  | start s => exact ⟨[], by rw [aged_zero, List.append_nil]⟩
  | @counted n s u t _ hstep ih =>
    obtain ⟨behind, hu⟩ := ih
    obtain ⟨u1, inner, -, k, ht, -⟩ := hstep.pend_events
    refine ⟨aged 1 (behind ++ u1.chan.take (drainCount u1)), ?_⟩
    rw [ht, k.traversed_eq_append, hu, List.append_assoc, aged_append, aged_one_aged]
  | other i _ hi hno ih =>
    obtain ⟨behind, hu⟩ := ih
    exact ⟨behind, by rw [(exec_unscheduled hi hno).pend, hu]⟩

/-- A successful step from a state whose pending list starts with a list aged by `k`: it fires that list's actions of
delay `k`, then what is due behind them, and ages the rest (R207, R208). -/
theorem OkStep.of_aged_pend {s t : State} {k : Nat} {l behind : List Action} (h : OkStep s t)
    (hpend : s.pend = aged k l ++ behind) : ∃ s1 inner behind', exec .cycleStep s = .next s1 ∧
    s1.events = s.events ++ inner ∧ (∀ x, Event.fired x ∉ inner) ∧ traversed s1 = aged k l ++ behind' ∧
    t.pend = aged (k + 1) l ++ aged 1 behind' ∧ t.events = s1.events ++ due k l ++ due 0 behind' := by
  obtain ⟨s1, inner, hcycle, hk, htpend, htevents⟩ := h.pend_events
  have hlist : traversed s1 = aged k l ++ (behind ++ s1.chan.take (drainCount s1)) := by
    rw [hk.traversed_eq_append, hpend, List.append_assoc]
  refine ⟨s1, inner, _, hcycle, hk.events, hk.fired_notMem, hlist, ?_, ?_⟩
  · rw [htpend, hlist, aged_append, aged_one_aged]
  · rw [htevents, hlist, due_append, due_zero_aged, List.append_assoc]

/-- Settles O44: an invariant of the pending list indexed by the number of counted steps, from which the next successful
step fires what is due. -/
theorem actionFiresOnExactStep : Obligations.ActionFiresOnExactStep := by
  unfold Obligations.ActionFiresOnExactStep
  intro s s1 first hcycle hfirst l
  obtain ⟨s1', inner, hcycle', hk, hpend, hevents⟩ := hfirst.pend_events
  obtain rfl : s1 = s1' := Host.Outcome.next.inj (hcycle.symm.trans hcycle')
  refine ⟨⟨hpend, hevents, inner, hk.events, hk.fired_notMem⟩, fun k u hrun => ?_⟩
  have hu : ∃ behind, u.pend = aged (k + 1) l ++ behind := by
    obtain ⟨behind, hu⟩ := hrun.pend_eq
    exact ⟨behind, by rw [hu, hpend, aged_aged, Nat.add_comm 1 k]⟩
  obtain ⟨behind, hbehind⟩ := hu
  exact ⟨⟨behind, hbehind⟩, fun i t hi hno => (exec_unscheduled hi hno).events, fun t ht => ht.of_aged_pend hbehind⟩

/-! ### Ageing as numbers (R207, R217) -/

theorem aged_cons_of_lt {k : Nat} {x : Action} (xs : List Action) (h : x.delay.toNat < k) :
    aged k (x :: xs) = aged k xs := List.filterMap_cons_none (if_pos h)

theorem aged_cons_of_le {k : Nat} {x : Action} (xs : List Action) (h : k ≤ x.delay.toNat) :
    aged k (x :: xs) = { x with delay := x.delay - BitVec.ofNat 64 k } :: aged k xs :=
  List.filterMap_cons_some (if_neg (Nat.not_lt.2 h))

/-- The actions of delay `n` or more, each delay less `n` as a number. -/
theorem aged_eq_map_filter (n : Nat) (l : List Action) : aged n l = (l.filter fun x => n ≤ x.delay.toNat).map
    fun x => { x with delay := BitVec.ofNat 64 (x.delay.toNat - n) } := by
  induction l with
  | nil => rfl
  | cons x xs ih =>
    by_cases hx : n ≤ x.delay.toNat
    · have hsub : x.delay - BitVec.ofNat 64 n = BitVec.ofNat 64 (x.delay.toNat - n) := by
        have hlt := x.delay.isLt
        bv_omega
      rw [aged_cons_of_le xs hx, ih, hsub, List.filter_cons_of_pos (by simpa using hx), List.map_cons]
    · rw [aged_cons_of_lt xs (Nat.not_le.1 hx), ih, List.filter_cons_of_neg (by simpa using hx)]

/-- What fires at delay 0 is the action itself. -/
theorem due_zero_eq (l : List Action) : due 0 l = (l.filter fun x => x.delay.toNat = 0).map .fired := by
  refine List.map_congr_left fun x hx => ?_
  have hzero : x.delay = 0#64 := BitVec.eq_of_toNat_eq (by simpa using (List.mem_filter.1 hx).2)
  rw [← hzero]

/-- Every action of a list survives a traversal or fires in it. -/
theorem aged_length_add_due_length (l : List Action) : (aged 1 l).length + (due 0 l).length = l.length := by
  have hsplit := List.length_eq_length_filter_add (l := l) fun x => decide (1 ≤ x.delay.toNat)
  have hzero : (l.filter fun x => !decide (1 ≤ x.delay.toNat)) = l.filter fun x => x.delay.toNat = 0 :=
    List.filter_congr fun x _ => by rw [← decide_not, decide_eq_decide]; omega
  rw [hzero] at hsplit
  rw [aged_eq_map_filter, due_zero_eq, List.length_map, List.length_map, ← hsplit]

/-- Settles O47: one successful step ages the traversed list by one, and n counted ones age the pending list by n. -/
theorem delaysNeverWrap : Obligations.DelaysNeverWrap := by
  unfold Obligations.DelaysNeverWrap
  refine ⟨fun s t h => ?_, fun n s t h => ?_⟩
  · obtain ⟨s1, inner, hcycle, hk, hpend, hevents⟩ := h.pend_events
    rw [hk.traversed_eq_append] at hpend hevents
    exact ⟨s1, hcycle, hpend.trans (aged_eq_map_filter 1 _), by rw [hevents, due_zero_eq]⟩
  · obtain ⟨behind, ht⟩ := h.pend_eq
    exact ⟨behind, by rw [ht, aged_eq_map_filter]⟩

/-! ### The inner step (R211, R215, R216) -/

/-- Settles O38: a cycle leaves the lists, and adds one entry to the history at most, which is no firing. -/
theorem cycleStepDoesNotSchedule : Obligations.CycleStepDoesNotSchedule := by
  unfold Obligations.CycleStepDoesNotSchedule
  intro s t h
  obtain ⟨added, k⟩ := cycleOnce_keeps h
  exact ⟨k.pend, k.held, k.chan, added, k.events, k.length_le_one, k.fired_notMem⟩

/-- Settles O41: an inner step that returned an error is the whole step, and a cycle schedules nothing. -/
theorem faultedStepConsumesNoDelay : Obligations.FaultedStepConsumesNoDelay := by
  unfold Obligations.FaultedStepConsumesNoDelay
  intro s t h herr
  obtain ⟨added, k⟩ := cycleOnce_keeps h
  exact ⟨execSchedStep_of_err h herr, k.pend, k.chan, added, k.events, k.fired_notMem⟩

/-- Settles O46: a suppressed fault is an inner step that returned OK, which the drain and the traversal follow. -/
theorem suppressedFaultAgesActions : Obligations.SuppressedFaultAgesActions := by
  unfold Obligations.SuppressedFaultAgesActions
  intro s s1 t cb hcb hfetch hrun hstep
  have hcycle : cycleOnce s = .next (s1.answer .ok) :=
    (cycleOnce_outOfBounds hfetch).trans (fetchFault_of_callback (av := fetchViolation s) hcb hrun)
  have hafter : afterInner (s1.answer .ok) = .next t := (execSchedStep_of_ok hcycle rfl).symm.trans hstep
  obtain ⟨u, hu, rfl⟩ := afterInner_eq_next hafter
  obtain ⟨-, hevents, -⟩ := traverse_keeps hu
  obtain ⟨-, -, -, -, -, hs1, -⟩ := runScript_log_keeps hrun
  have hlist : traversed (s1.answer .ok) = s1.pend ++ s1.chan.take (drainCount s1) := traversed_eq s1
  refine ⟨rfl, ?_, ?_⟩
  · rw [← hlist]; rfl
  · rw [← hlist, ← hs1]; exact hevents

/-! ### Drain, traversal and release (R204 to R209, R214) -/

/-- Settles O42: the drain, one traversal from the drained state, and the release, which takes nothing out of the
channel. -/
theorem successfulStepDrainsAgesFires : Obligations.SuccessfulStepDrainsAgesFires := by
  unfold Obligations.SuccessfulStepDrainsAgesFires
  intro s s1 s2 survivors hcycle hok list htraverse
  have hlist : list = traversed s1 := (traversed_eq s1).symm
  rw [hlist] at htraverse ⊢
  obtain ⟨added, k⟩ := cycleOnce_keeps hcycle
  obtain ⟨rfl, hevents, hcfg, -, hheld, -, hinbox, hchan⟩ := traverse_keeps htraverse
  have hstep : exec .schedStep s =
      .next ((s2.setQueues s2.chan (aged 1 (traversed s1)) s2.held).release.answer .ok) := by
    refine (execSchedStep_of_ok hcycle hok).trans ?_
    rw [afterInner_eq, htraverse, Result.andThen_next]
  refine ⟨_, hstep, rfl, rfl, rfl, hcfg.trans k.cfg, hinbox.trans k.inbox, rfl, hevents,
    hchan.trans (List.prefix_append _ _), fun hnil => ?_⟩
  have hnil : s2.held = [] := hheld.trans hnil
  simp [hnil]

/-- A traversal is the firing of the actions of delay 0, whatever it ends with, and the rest aged by one (R208). -/
theorem traverse_eq_fireAll (l : List Action) (s : State) : traverse l s =
    (fireAll (l.filter fun x => x.delay = 0#64) s).andThen fun t => .next (t, aged 1 l) := by
  induction l generalizing s with
  | nil => rfl
  | cons x xs ih =>
    by_cases hx : x.delay = 0#64
    · rw [traverse, if_pos hx, List.filter_cons_of_pos (by simpa using hx), fireAll,
        aged_cons_of_lt xs (by simp [hx])]
      cases fire x s with
      | next u => exact ih u
      | fault e => rfl
      | refused e => rfl
    · have hpos : 1 ≤ x.delay.toNat := by bv_omega
      rw [traverse, if_neg hx, List.filter_cons_of_neg (by simpa using hx), aged_cons_of_le xs hpos, ih]
      cases fireAll (xs.filter fun x => x.delay = 0#64) s with
      | next u => rfl
      | fault e => rfl
      | refused e => rfl

/-- Settles O43: a firing is ACT on the state as it is, and a traversal is its firings in order. -/
theorem bodiesRunInPlaceInListOrder : Obligations.BodiesRunInPlaceInListOrder := by
  unfold Obligations.BodiesRunInPlaceInListOrder
  refine ⟨fun x s t e hrun => ?_, traverse_eq_fireAll⟩
  have hrun : runScript s.cfg.act [x.action] [] (s.log (.fired x)) = .next (t, e) := hrun
  rw [fire, hrun, Result.andThen_next]

/-- A successful step moves a head part of the channel behind the pending list, traverses that list, and lets held
submissions in from the head of the waiting list, each with its OK (R205 to R209, R201). -/
theorem OkStep.moves {s t : State} (h : OkStep s t) :
    ∃ (submitted taken rest new released : List Action) (inner : List Event),
      s.chan ++ submitted = taken ++ rest ∧ t.pend = aged 1 (s.pend ++ taken) ∧
      t.events = s.events ++ inner ++ due 0 (s.pend ++ taken) ∧ (∀ x, Event.fired x ∉ inner) ∧
      t.chan = rest ++ new ++ released ∧ s.held = released ++ t.held ∧
      t.answered = s.answered ++ released.map fun x => ⟨x, .ok⟩ := by
  obtain ⟨s1, s2, inner, hcycle, -, k, htraverse, rfl, hevents⟩ := h.cases
  obtain ⟨-, -, -, -, hheld, hanswered, -, hchan⟩ := traverse_keeps htraverse
  obtain ⟨submitted, hsubmitted⟩ := k.chan
  obtain ⟨new, hnew⟩ := hchan
  rw [k.traversed_eq_append, k.events] at hevents
  refine ⟨submitted, s1.chan.take (drainCount s1), s1.chan.drop (drainCount s1), new, s2.held.take s2.room, inner, ?_,
    ?_, hevents, k.fired_notMem, ?_, ?_, ?_⟩
  · rw [hsubmitted, List.take_append_drop]
  · rw [← k.traversed_eq_append]; rfl
  · rw [hnew]; rfl
  · rw [← k.held, ← hheld]; exact (List.take_append_drop _ _).symm
  · rw [← k.answered, ← hanswered]; rfl

/-- Settles O45: by what a step that is not successful keeps, and by what a successful one moves. -/
theorem nothingIsLostOrReordered : Obligations.NothingIsLostOrReordered := by
  unfold Obligations.NothingIsLostOrReordered
  refine ⟨fun i s t hne h => ?_, fun s t _ h => ?_, fun s t h hno => ?_⟩
  · have k := exec_unscheduled h fun hstep => hne hstep.1
    exact ⟨k.pend, k.chan, k.held⟩
  · obtain ⟨submitted, taken, rest, new, released, inner, hchan, hpend, hevents, hinner, htchan, hheld, hanswered⟩ :=
      h.moves
    exact ⟨submitted, taken, rest, new, released, inner, hchan, hpend, hevents, hinner,
      aged_length_add_due_length _, htchan, hheld, hanswered⟩
  · obtain ⟨hcycle, -⟩ := schedStep_faulted h hno
    obtain ⟨added, k⟩ := cycleOnce_keeps hcycle
    exact ⟨k.pend, k.chan, k.held, added, k.events, k.fired_notMem⟩

/-! ### Submission (R201, R202) -/

section
variable {s : State} (inside : Bool) (x : Action)

theorem submit_hasRoom (h : s.chan.length < s.cfg.chanCap) :
    submit inside x s = .next ((s.enqueue x).answer .ok) := if_pos h

theorem submit_full_reject (h : s.cfg.chanCap ≤ s.chan.length) (hp : s.cfg.fullPolicy = .reject) :
    submit inside x s = .next (s.answer .full) := by
  rw [submit, if_neg (Nat.not_lt.2 h), hp]

theorem submit_full_block (h : s.cfg.chanCap ≤ s.chan.length) (hp : s.cfg.fullPolicy = .block) :
    submit inside x s = if inside then .refused .submitWouldBlock
      else .next ((s.setQueues s.chan s.pend (s.held ++ [x])).answer .noStatus) := by
  rw [submit, if_neg (Nat.not_lt.2 h), hp]

end

/-- Settles O40: the three cases of a submission, from outside and inside a step. -/
theorem submitAppendsOrAnswersFull : Obligations.SubmitAppendsOrAnswersFull := by
  unfold Obligations.SubmitAppendsOrAnswersFull
  intro s a d t
  refine ⟨?_, fun hroom => ⟨submit_hasRoom _ _ hroom, submit_hasRoom _ _ hroom⟩,
    fun hfull hp => ⟨submit_full_reject _ _ hfull hp, submit_full_reject _ _ hfull hp⟩,
    fun hfull hp => ⟨submit_full_block _ _ hfull hp, submit_full_block _ _ hfull hp⟩⟩
  exact hasCode_of_decodeOp ((decodeOp_schedSubmit _).trans (threeWords_eq_ok.2 ⟨a, d, t, rfl, rfl⟩))

/-! ### Results that end alike (R218) -/

/-- Two results that end alike: next states that `R` relates, or the same fault or refusal. -/
inductive EndsAlike {α : Type} (R : α → α → Prop) : Result α → Result α → Prop where
  | next {a b : α} (h : R a b) : EndsAlike R (.next a) (.next b)
  | fault (e : Fault) : EndsAlike R (.fault e) (.fault e)
  | refused (e : Refusal) : EndsAlike R (.refused e) (.refused e)

theorem EndsAlike.andThen {α β : Type} {R : α → α → Prop} {Q : β → β → Prop} {r r' : Result α} {f f' : α → Result β}
    (h : EndsAlike R r r') (hf : ∀ a b, R a b → EndsAlike Q (f a) (f' b)) :
    EndsAlike Q (r.andThen f) (r'.andThen f') := by
  cases h with
  | next h => exact hf _ _ h
  | fault e => exact .fault e
  | refused e => exact .refused e

theorem EndsAlike.of_next {α : Type} {R : α → α → Prop} {r r' : Result α} {a : α} (h : EndsAlike R r r')
    (hr : r = .next a) : ∃ b, r' = .next b ∧ R a b := by
  subst hr
  cases h with
  | next h => exact ⟨_, rfl, h⟩

theorem EndsAlike.of_fault {α : Type} {R : α → α → Prop} {r r' : Result α} {e : Fault} (h : EndsAlike R r r')
    (hr : r = .fault e) : r' = .fault e := by
  subst hr
  cases h
  rfl

theorem EndsAlike.of_refused {α : Type} {R : α → α → Prop} {r r' : Result α} {e : Refusal} (h : EndsAlike R r r')
    (hr : r = .refused e) : r' = .refused e := by
  subst hr
  cases h
  rfl

/-! ### States that differ in tags: the fields and the updates -/

section
variable {s s' : State} (h : SameButTags s s')
include h

theorem SameButTags.cfg : s'.cfg = s.cfg := by
  obtain ⟨hcfg, -⟩ := h
  exact hcfg

theorem SameButTags.mem : s'.mem = s.mem := by
  obtain ⟨-, hmem, -⟩ := h
  exact hmem

theorem SameButTags.regs : s'.regs = s.regs := by
  obtain ⟨-, -, hregs, -⟩ := h
  exact hregs

theorem SameButTags.reply : s'.reply = s.reply := by
  obtain ⟨-, -, -, hreply, -⟩ := h
  exact hreply

theorem SameButTags.chan : s'.chan.map Action.untagged = s.chan.map Action.untagged := by
  obtain ⟨-, -, -, -, -, hchan, -⟩ := h
  exact hchan

theorem SameButTags.pend : s'.pend.map Action.untagged = s.pend.map Action.untagged := by
  obtain ⟨-, -, -, -, -, -, hpend, -⟩ := h
  exact hpend

theorem SameButTags.held : s'.held.map Action.untagged = s.held.map Action.untagged := by
  obtain ⟨-, -, -, -, -, -, -, hheld, -⟩ := h
  exact hheld

theorem SameButTags.answer (r : Reply) : SameButTags (s.answer r) (s'.answer r) := by
  obtain ⟨hcfg, hmem, hregs, -, rest⟩ := h
  exact ⟨hcfg, hmem, hregs, rfl, rest⟩

theorem SameButTags.setMem (m : Memory) : SameButTags (s.setMem m) (s'.setMem m) := by
  obtain ⟨hcfg, -, rest⟩ := h
  exact ⟨hcfg, rfl, rest⟩

theorem SameButTags.setSlot (i : Nat) (v : Word) : SameButTags (s.setSlot i v) (s'.setSlot i v) := by
  obtain ⟨hcfg, hmem, hregs, rest⟩ := h
  exact ⟨hcfg, hmem, congrArg (·.set i v) hregs, rest⟩

theorem SameButTags.log {e e' : Event} (he : e'.untagged = e.untagged) : SameButTags (s.log e) (s'.log e') := by
  obtain ⟨hcfg, hmem, hregs, hreply, hinbox, hchan, hpend, hheld, hanswered, hevents⟩ := h
  exact ⟨hcfg, hmem, hregs, hreply, hinbox, hchan, hpend, hheld, hanswered, by simp [hevents, he]⟩

theorem SameButTags.setQueues {c c' p p' q q' : List Action} (hc : c'.map Action.untagged = c.map Action.untagged)
    (hp : p'.map Action.untagged = p.map Action.untagged) (hq : q'.map Action.untagged = q.map Action.untagged) :
    SameButTags (s.setQueues c p q) (s'.setQueues c' p' q') := by
  obtain ⟨hcfg, hmem, hregs, hreply, hinbox, -, -, -, rest⟩ := h
  exact ⟨hcfg, hmem, hregs, hreply, hinbox, hc, hp, hq, rest⟩

theorem SameButTags.chan_length : s'.chan.length = s.chan.length := by
  simpa using congrArg List.length h.chan

theorem SameButTags.pend_length : s'.pend.length = s.pend.length := by
  simpa using congrArg List.length h.pend

theorem SameButTags.room : s'.room = s.room := by
  rw [State.room, h.cfg, h.chan_length, State.room]

theorem SameButTags.drainCount_eq : drainCount s' = drainCount s := by
  rw [drainCount, h.cfg, h.chan_length, h.pend_length, drainCount]

theorem SameButTags.traversed_untagged : (traversed s').map Action.untagged = (traversed s).map Action.untagged := by
  rw [traversed_eq, traversed_eq, h.drainCount_eq, List.map_append, List.map_append, List.map_take, List.map_take,
    h.pend, h.chan]

theorem SameButTags.release : SameButTags s.release s'.release := by
  have hroom := h.room
  obtain ⟨hcfg, hmem, hregs, hreply, hinbox, hchan, hpend, hheld, hanswered, hevents⟩ := h
  have hreleased : ((s'.held.take s.room).map fun x => (⟨x, .ok⟩ : Answer)).map Answer.untagged =
      ((s.held.take s.room).map fun x => (⟨x, .ok⟩ : Answer)).map Answer.untagged := by
    have := congrArg (fun l => (l.take s.room).map fun x => (⟨x, .ok⟩ : Answer)) hheld
    simpa [← List.map_take, Function.comp_def, Answer.untagged] using this
  refine ⟨hcfg, hmem, hregs, hreply, hinbox, ?_, hpend, ?_, ?_, hevents⟩
  · simp [hroom, hchan, hheld, List.map_take]
  · simp [hroom, hheld, List.map_drop]
  · rw [State.release_answered, State.release_answered, hroom, List.map_append, List.map_append, hanswered, hreleased]

theorem SameButTags.readReg (i : Nat) : s'.readReg i = s.readReg i := by
  rw [State.readReg, h.cfg, h.regs, State.readReg]

theorem SameButTags.pc : s'.pc = s.pc := by
  rw [State.pc, h.cfg, h.readReg, State.pc]

theorem SameButTags.writeReg (i : Nat) {v v' : Word} (hv : v' = v) :
    SameButTags (s.writeReg i v) (s'.writeReg i v') := by
  subst hv
  rw [State.writeReg, State.writeReg, h.cfg]
  split
  · exact h.setSlot _ _
  · exact h

theorem SameButTags.advancePc (d : Word) : SameButTags (s.advancePc d) (s'.advancePc d) := by
  rw [State.advancePc, State.advancePc, h.cfg]
  exact h.writeReg _ (by rw [h.pc])

/-! ### The operations -/

theorem accessFault_alike (a : Word) (n : Nat) (r : Bool) : accessFault s' a n r = accessFault s a n r := by
  rw [accessFault, h.cfg, accessFault]

theorem readRaw_alike (a : Word) (n : Nat) : readRaw s' a n = readRaw s a n := by
  rw [readRaw, accessFault_alike h, h.mem, readRaw]

theorem readTyped_alike (o : ByteOrder) (n : Nat) (a : Word) : readTyped o n a s' = readTyped o n a s := by
  rw [readTyped, readRaw_alike h, readTyped]

theorem loadTyped_alike (o : ByteOrder) (n : Nat) (a : Word) :
    EndsAlike SameButTags (loadTyped o n a s) (loadTyped o n a s') := by
  rw [loadTyped, loadTyped, readTyped_alike h]
  split
  · exact .next (h.answer _)
  · exact .next (h.answer _)

theorem storeRaw_alike (a : Word) (data : List Byte) :
    EndsAlike SameButTags (storeRaw a data s) (storeRaw a data s') := by
  rw [storeRaw, storeRaw, writeRaw, writeRaw, accessFault_alike h, h.mem]
  cases accessFault s a data.length false with
  | some av => exact .next (h.answer _)
  | none => exact .next ((h.setMem _).answer _)

theorem memReadByte_alike (a : Word) : EndsAlike SameButTags (execMemReadByte a s) (execMemReadByte a s') := by
  rw [execMemReadByte, execMemReadByte, accessFault_alike h, h.mem]
  split
  · exact .next (h.answer _)
  · exact .next (h.answer _)

theorem memWriteByte_alike (v : Byte) (a : Word) :
    EndsAlike SameButTags (execMemWriteByte v a s) (execMemWriteByte v a s') := by
  rw [execMemWriteByte, execMemWriteByte, accessFault_alike h, h.mem]
  split
  · exact .next (h.answer _)
  · exact .next ((h.setMem _).answer _)

theorem memReadRaw_alike (a n : Word) : EndsAlike SameButTags (execMemReadRaw a n s) (execMemReadRaw a n s') := by
  rw [execMemReadRaw, execMemReadRaw, readRaw_alike h]
  split
  · exact .next (h.answer _)
  · exact .next (h.answer _)

theorem memWriteRaw_alike (data : List Byte) (a : Word) :
    EndsAlike SameButTags (execMemWriteRaw data a s) (execMemWriteRaw data a s') := by
  rw [execMemWriteRaw, execMemWriteRaw]
  split
  · exact storeRaw_alike h _ _
  · exact .refused _

theorem withRegister_alike (i : Nat) {k k' : RegSpec → Result State} (hk : ∀ r, EndsAlike SameButTags (k r) (k' r)) :
    EndsAlike SameButTags (withRegister i s k) (withRegister i s' k') := by
  rw [withRegister, withRegister, h.cfg]
  split
  · exact .refused _
  · exact hk _

theorem withRegisterValue_alike (i : Nat) (v : Word) {k k' : RegSpec → Result State}
    (hk : ∀ r, EndsAlike SameButTags (k r) (k' r)) :
    EndsAlike SameButTags (withRegisterValue i v s k) (withRegisterValue i v s' k') := by
  refine withRegister_alike h i fun r => ?_
  split
  · exact hk r
  · exact .refused _

theorem regWrite_alike (i : Nat) (v : Word) {x x' : Word} (hx : x' = x) :
    EndsAlike SameButTags (withRegisterValue i v s fun _ => .next ((s.writeReg i x).answer .ok))
      (withRegisterValue i v s' fun _ => .next ((s'.writeReg i x').answer .ok)) :=
  withRegisterValue_alike h i v fun _ => .next ((h.writeReg i hx).answer .ok)

theorem regRead_alike (i : Nat) {f f' : RegSpec → Reply} (hf : f' = f) :
    EndsAlike SameButTags (withRegister i s fun r => .next (s.answer (f r)))
      (withRegister i s' fun r => .next (s'.answer (f' r))) :=
  hf ▸ withRegister_alike h i fun _ => .next (h.answer _)

theorem floatUpdate_alike (arith : Fnum → Nat → Word → Word → Option Word) (i : Nat) (d : Word) :
    EndsAlike SameButTags (floatUpdate arith i d s) (floatUpdate arith i d s') := by
  refine withRegisterValue_alike h i d fun r => ?_
  rw [h.cfg, h.readReg]
  split
  · exact .next (h.answer _)
  · split
    · exact .next ((h.writeReg i rfl).answer _)
    · exact .refused _

theorem submit_alike (inside : Bool) (x : Action) :
    EndsAlike SameButTags (submit inside x s) (submit inside x s') := by
  rw [submit, submit, h.chan_length, h.cfg]
  split
  · exact .next ((h.setQueues (by simp [h.chan]) h.pend h.held).answer _)
  · split
    · exact .next (h.answer _)
    · split
      · exact .refused _
      · exact .next ((h.setQueues h.chan h.pend (by simp [h.held])).answer _)

theorem throughCore_alike (o : ByteOrder) {r r' : Result State} (hr : EndsAlike SameButTags r r') :
    EndsAlike SameButTags (throughCore o s r) (throughCore o s' r') := by
  rw [throughCore, throughCore, h.cfg]
  split
  · exact hr
  · exact .refused _

theorem innerOp_alike (i : Instr) : EndsAlike SameButTags (innerOp i s) (innerOp i s') := by
  cases i with
  | memReadByte a => exact memReadByte_alike h a
  | memWriteByte v a => exact memWriteByte_alike h v a
  | memReadRaw a n => exact memReadRaw_alike h a n
  | memWriteRaw data a => exact memWriteRaw_alike h data a
  | memReadU16 o a => exact throughCore_alike h o (loadTyped_alike h o 2 a)
  | memReadU32 o a => exact throughCore_alike h o (loadTyped_alike h o 4 a)
  | memReadU64 o a => exact throughCore_alike h o (loadTyped_alike h o 8 a)
  | memReadF32 o a => exact throughCore_alike h o (loadTyped_alike h o 4 a)
  | memReadF64 o a => exact throughCore_alike h o (loadTyped_alike h o 8 a)
  | memWriteU16 o a v => exact throughCore_alike h o (storeRaw_alike h a _)
  | memWriteU32 o a v => exact throughCore_alike h o (storeRaw_alike h a _)
  | memWriteU64 o a v => exact throughCore_alike h o (storeRaw_alike h a _)
  | memWriteF32 o a f => exact throughCore_alike h o (storeRaw_alike h a _)
  | memWriteF64 o a f => exact throughCore_alike h o (storeRaw_alike h a _)
  | regSetInt j v => exact regWrite_alike h j v rfl
  | regGetInt j => exact regRead_alike h j (by rw [h.readReg])
  | regIncInt j d => exact regWrite_alike h j d (by rw [h.readReg])
  | regDecInt j d => exact regWrite_alike h j d (by rw [h.readReg])
  | regSetFloat j f => exact regWrite_alike h j f rfl
  | regGetFloat j => exact regRead_alike h j (by rw [h.readReg])
  | regIncFloat j d => exact floatUpdate_alike h fnumAdd j d
  | regDecFloat j d => exact floatUpdate_alike h fnumSub j d
  | regCanWrite j => exact regRead_alike h j rfl
  | pcIncrement d => exact .next ((h.advancePc d).answer _)
  | pcRead => exact .next (by rw [h.pc]; exact h.answer _)
  | cycleStep => exact .refused _
  | schedSubmit a d t => exact submit_alike h true _
  | schedStep => exact .refused _
  | runWord w => exact .refused _

/-! ### Scripts, the cycle and the scheduler -/

theorem invoke_alike (c : Call) (args : List Word) (answers : List Reply) :
    EndsAlike SameButTags (invoke c args answers s) (invoke c args answers s') := by
  rw [invoke, invoke]
  split
  · exact .refused _
  · exact innerOp_alike h _

end

/-- What a script sees has no tags, so it calls and returns the same (R218). -/
theorem runScript_alike (p : Script) (args : List Word) (answers : List Reply) {s s' : State} (h : SameButTags s s') :
    EndsAlike (fun a b => SameButTags a.1 b.1 ∧ b.2 = a.2) (runScript p args answers s)
      (runScript p args answers s') := by
  induction p generalizing answers s s' with
  | ret r => exact .next ⟨h, rfl⟩
  | hang => exact .fault _
  | call c k ih =>
    refine (invoke_alike h c args answers).andThen fun t t' ht => ?_
    rw [ht.reply]
    exact ih _ ht
  | branch e y n ihy ihn =>
    rw [runScript, runScript]
    split
    · exact ihy _ h
    · exact ihn _ h

section
variable {s s' : State} (h : SameButTags s s')
include h

theorem dispatchWord_alike (w : Word) : EndsAlike SameButTags (dispatchWord w s) (dispatchWord w s') := by
  rw [dispatchWord, dispatchWord, h.cfg]
  refine (runScript_alike _ _ _ (h.log rfl)).andThen fun ⟨t, e⟩ ⟨t', e'⟩ ⟨hstate, hend⟩ => ?_
  obtain rfl : e' = e := hend
  exact .next (hstate.answer _)

theorem fetchFault_alike (av : AccessViolation) : EndsAlike SameButTags (fetchFault av s) (fetchFault av s') := by
  rw [fetchFault, fetchFault, h.cfg]
  split
  · exact .next (h.answer _)
  · refine (runScript_alike _ _ _ (h.log rfl)).andThen fun ⟨t, e⟩ ⟨t', e'⟩ ⟨hstate, hend⟩ => ?_
    obtain rfl : e' = e := hend
    exact .next (hstate.answer _)

theorem cycleOnce_alike : EndsAlike SameButTags (cycleOnce s) (cycleOnce s') := by
  rw [cycleOnce, cycleOnce, h.cfg, h.pc, readTyped_alike h]
  split
  · exact fetchFault_alike h _
  · exact dispatchWord_alike (h.advancePc _) _

/-- A body gets the ActionId, which is no tag. -/
theorem fire_alike {x x' : Action} (hx : x'.untagged = x.untagged) :
    EndsAlike SameButTags (fire x s) (fire x' s') := by
  have haction : x'.action = x.action := (congrArg Action.action hx :)
  have hevent : (Event.fired x').untagged = (Event.fired x).untagged := congrArg Event.fired hx
  rw [fire, fire, h.cfg, haction]
  exact (runScript_alike _ _ _ (h.log hevent)).andThen fun a b ⟨hstate, _⟩ => .next hstate

end

/-- Lists that differ in tags are traversed alike: a delay is no tag. -/
theorem traverse_alike {l l' : List Action} (hl : l'.map Action.untagged = l.map Action.untagged) {s s' : State}
    (h : SameButTags s s') :
    EndsAlike (fun a b => SameButTags a.1 b.1 ∧ b.2.map Action.untagged = a.2.map Action.untagged) (traverse l s)
      (traverse l' s') := by
  induction l generalizing l' s s' with
  | nil =>
    obtain rfl := List.map_eq_nil_iff.1 hl
    exact .next ⟨h, rfl⟩
  | cons x xs ih =>
    obtain ⟨x', xs', rfl, hx, hxs⟩ := List.map_eq_cons_iff.1 hl
    have hdelay : x'.delay = x.delay := (congrArg Action.delay hx :)
    rw [traverse, traverse, hdelay]
    split
    · exact (fire_alike h hx).andThen fun t t' ht => ih hxs ht
    · refine (ih hxs h).andThen fun a b ⟨hstate, hsurvivors⟩ => .next ⟨hstate, ?_⟩
      have haged := congrArg (fun y : Action => { y with delay := x.delay - 1#64 }) hx
      rw [List.map_cons, List.map_cons, hsurvivors]
      exact congrArg (· :: _) haged

section
variable {s s' : State} (h : SameButTags s s')
include h

theorem afterInner_alike : EndsAlike SameButTags (afterInner s) (afterInner s') := by
  rw [afterInner_eq, afterInner_eq]
  have hchan : (s'.chan.drop (drainCount s')).map Action.untagged =
      (s.chan.drop (drainCount s)).map Action.untagged := by
    rw [h.drainCount_eq, List.map_drop, List.map_drop, h.chan]
  have hdrained : SameButTags { s with chan := s.chan.drop (drainCount s), pend := traversed s }
      { s' with chan := s'.chan.drop (drainCount s'), pend := traversed s' } :=
    h.setQueues hchan h.traversed_untagged h.held
  refine (traverse_alike h.traversed_untagged hdrained).andThen fun a b ⟨hstate, hsurvivors⟩ => .next ?_
  exact ((hstate.setQueues hstate.chan hsurvivors hstate.held).release).answer _

theorem execSchedStep_alike : EndsAlike SameButTags (execSchedStep s) (execSchedStep s') := by
  refine (cycleOnce_alike h).andThen fun t t' ht => ?_
  rw [ht.reply]
  split
  · exact .next ht
  · exact afterInner_alike ht

theorem execRunWord_alike (w : Word) : EndsAlike SameButTags (execRunWord w s) (execRunWord w s') := by
  rw [execRunWord, execRunWord, h.cfg]
  split
  · exact dispatchWord_alike h w
  · exact .refused _

/-- Outside a step: a typed access is made at the Memory level, a submission may be held, and steps are admitted; every
other operation is the one inside a step. -/
theorem exec_alike (i : Instr) : EndsAlike SameButTags (exec i s) (exec i s') := by
  have hinner : EndsAlike SameButTags (innerOp i s) (innerOp i s') := innerOp_alike h i
  cases i with
  | memReadU16 o a => exact loadTyped_alike h o 2 a
  | memReadU32 o a => exact loadTyped_alike h o 4 a
  | memReadU64 o a => exact loadTyped_alike h o 8 a
  | memReadF32 o a => exact loadTyped_alike h o 4 a
  | memReadF64 o a => exact loadTyped_alike h o 8 a
  | memWriteU16 o a v => exact storeRaw_alike h a _
  | memWriteU32 o a v => exact storeRaw_alike h a _
  | memWriteU64 o a v => exact storeRaw_alike h a _
  | memWriteF32 o a f => exact storeRaw_alike h a _
  | memWriteF64 o a f => exact storeRaw_alike h a _
  | cycleStep => exact cycleOnce_alike h
  | schedSubmit a d t => exact submit_alike h false _
  | schedStep => exact execSchedStep_alike h
  | runWord w => exact execRunWord_alike h w
  | _ => exact hinner

end

/-- Settles O48: every operation ends alike, by the operations it is made of; and ageing changes delays and leaves
actions out, so it carries the tags. -/
theorem tagsHaveNoEffect : Obligations.TagsHaveNoEffect := by
  unfold Obligations.TagsHaveNoEffect
  refine ⟨fun i s s' h => ?_, fun k l => ?_⟩
  · have halike := exec_alike h i
    exact ⟨fun t ht => halike.of_next ht, fun f hf => halike.of_fault hf, fun r hr => halike.of_refused hr⟩
  · rw [aged_eq_map_filter, List.map_map]
    exact List.filter_sublist.map _

end Sys2Proof.Machine
end

section
/-! PROOFS of the family 60_exceptions.md: that an idle machine with an admitted stepper runs forever, and the codes
with which each kind of operation ends. -/

namespace Sys2Proof.Machine

/-! ### Runs without end (R243, D38) -/

theorem coreRun_succ {M : Host.Core} {s t : M.State} (n : Nat) (h : M.step s = .next t) :
    M.run (n + 1) s = M.run n t := by
  rw [Host.Core.run, h]

/-- A property from which the machine always takes a step, and which that step keeps, makes every run safe. -/
theorem safeRun_of_progress {P : State → Prop} (hstep : ∀ s, P s → ∃ t, step s = .next t ∧ P t) {s : State}
    (hs : P s) : SafeRun s := by
  intro n
  induction n generalizing s with
  | zero => exact ⟨s, rfl⟩
  | succ n ih =>
    obtain ⟨t, ht, hP⟩ := hstep s hs
    obtain ⟨u, hu⟩ := ih hP
    exact ⟨u, (coreRun_succ n ht).trans hu⟩

/-- With no transaction waiting the machine's step is the host's SCHED.STEP (R273, log 7). -/
theorem step_of_idle {s : State} (h : s.inbox = []) : step s = exec .schedStep s := by
  obtain ⟨-, hidle⟩ := stepRunsDecodedOperation
  exact hidle s h

theorem afterInner_inbox {s t : State} (h : afterInner s = .next t) : t.inbox = s.inbox := by
  obtain ⟨u, hu, rfl⟩ := afterInner_eq_next h
  obtain ⟨-, -, -, -, -, -, hinbox, -⟩ := traverse_keeps hu
  exact hinbox

/-- Nothing inside a step reaches the inbox. -/
theorem execSchedStep_inbox {s t : State} (h : execSchedStep s = .next t) : t.inbox = s.inbox := by
  obtain ⟨u, hu, h⟩ := Result.andThen_eq_next h
  obtain ⟨added, k⟩ := cycleOnce_keeps hu
  split at h
  · cases h; exact k.inbox
  · exact (afterInner_inbox h).trans k.inbox

/-- The state from which the machine always goes on: its scripts return and make admitted calls alone, and the host has
nothing else to do than to invoke SCHED.STEP. -/
def IdleAdmitted (s : State) : Prop := stepperAdmitted s.cfg = true ∧ s.inbox = []

theorem IdleAdmitted.step {s : State} (h : IdleAdmitted s) : ∃ t, step s = .next t ∧ IdleAdmitted t := by
  obtain ⟨hstepper, hinbox⟩ := h
  obtain ⟨t, ht⟩ := execSchedStep_completes hstepper
  have hexec : exec .schedStep s = .next t := ht
  refine ⟨t, (step_of_idle hinbox).trans hexec, ?_, (execSchedStep_inbox ht).trans hinbox⟩
  rwa [(exec_sameBank hexec).cfg]

/-- Settles O53: an idle machine's SCHED.STEP completes and leaves the scripts and the empty inbox as they are. -/
theorem admittedMachineRunsForever : Obligations.AdmittedMachineRunsForever := by
  unfold Obligations.AdmittedMachineRunsForever
  exact fun s hstepper hinbox => safeRun_of_progress (fun _ => IdleAdmitted.step) ⟨hstepper, hinbox⟩

/-! ### The codes of the memory operations (R102 to R119) -/

section
variable {s t : State} {start : Word}

theorem loadTyped_code {o : ByteOrder} {n : Nat} (h : loadTyped o n start s = .next t) :
    t.reply.code = some 0 ∨ t.reply.code = some 1 := by
  by_cases hb : start.toNat + n ≤ s.cfg.memSize
  · rw [loadTyped_inBounds o hb] at h; cases h; exact .inl rfl
  · rw [loadTyped_outOfBounds o (by omega)] at h; cases h; exact .inr rfl

theorem storeRaw_code {data : List Byte} (h : storeRaw start data s = .next t) :
    t.reply.code = some 0 ∨ t.reply.code = some 1 := by
  by_cases hb : start.toNat + data.length ≤ s.cfg.memSize
  · rw [storeRaw_inBounds hb] at h; cases h; exact .inl rfl
  · rw [storeRaw_outOfBounds (by omega)] at h; cases h; exact .inr rfl

theorem memReadByte_code (h : execMemReadByte start s = .next t) :
    t.reply.code = some 0 ∨ t.reply.code = some 1 := by
  by_cases hb : start.toNat < s.cfg.memSize
  · rw [memReadByte_inBounds hb] at h; cases h; exact .inl rfl
  · rw [memReadByte_outOfBounds (by omega)] at h; cases h; exact .inr rfl

theorem memReadRaw_code {n : Word} (h : execMemReadRaw start n s = .next t) :
    t.reply.code = some 0 ∨ t.reply.code = some 1 := by
  by_cases hb : start.toNat + n.toNat ≤ s.cfg.memSize
  · rw [memReadRaw_inBounds hb] at h; cases h; exact .inl rfl
  · rw [memReadRaw_outOfBounds (by omega)] at h; cases h; exact .inr rfl

theorem memWriteByte_code {value : Byte} (h : execMemWriteByte value start s = .next t) :
    t.reply.code = some 0 ∨ t.reply.code = some 1 :=
  storeRaw_code ((memWriteByte_eq_storeRaw value start s).symm.trans h)

theorem memWriteRaw_code {data : List Byte} (h : execMemWriteRaw data start s = .next t) :
    t.reply.code = some 0 ∨ t.reply.code = some 1 := by
  unfold execMemWriteRaw at h
  split at h
  · exact storeRaw_code h
  · cases h

end

/-! ### The codes of the register and PC operations, and of submission (R141 to R161, R201) -/

section
variable {s t : State} {i : Nat} {v : Word}

theorem registerWriter_code {op : Instr} (hop : op ∈ registerWriters i v) (h : exec op s = .next t) :
    t.reply.code = some 0 := by
  obtain ⟨x, rfl⟩ := exec_registerWriter_eq_next hop h
  rfl

theorem regRead_code {f : RegSpec → Value}
    (h : (withRegister i s fun r => .next (s.answer (.okVal (f r)))) = .next t) : t.reply.code = some 0 := by
  obtain ⟨r, -, h⟩ := withRegister_eq_next h
  cases h
  rfl

theorem submit_reject_code {inside : Bool} {x : Action} (h : submit inside x s = .next t)
    (hp : s.cfg.fullPolicy = .reject) : t.reply.code = some 0 ∨ t.reply.code = some 4 := by
  by_cases hroom : s.chan.length < s.cfg.chanCap
  · rw [submit_hasRoom _ _ hroom] at h; cases h; exact .inl rfl
  · rw [submit_full_reject _ _ (by omega) hp] at h; cases h; exact .inr rfl

end

/-! ### The codes of the steps (R181 to R185, R204) -/

theorem ofRunner_code (e : Ending) : ∃ c, e.ofRunner.code = some c ∧ c ≤ 2 := by
  cases e with
  | ok => exact ⟨0, rfl, by decide⟩
  | payload p => exact ⟨2, rfl, by decide⟩
  | violation av => exact ⟨1, rfl, by decide⟩

theorem ofCallback_code (e : Ending) : ∃ c, e.ofCallback.code = some c ∧ c ≤ 3 := by
  cases e with
  | ok => exact ⟨0, rfl, by decide⟩
  | payload p => exact ⟨3, rfl, by decide⟩
  | violation av => exact ⟨1, rfl, by decide⟩

section
variable {s t : State}

theorem dispatchWord_code {w : Word} (h : dispatchWord w s = .next t) : ∃ c, t.reply.code = some c ∧ c ≤ 2 := by
  obtain ⟨⟨u, e⟩, -, h⟩ := Result.andThen_eq_next h
  cases h
  exact ofRunner_code e

theorem fetchFault_code {av : AccessViolation} (h : fetchFault av s = .next t) :
    ∃ c, t.reply.code = some c ∧ c ≤ 3 := by
  unfold fetchFault at h
  split at h
  · cases h; exact ⟨1, rfl, by decide⟩
  · obtain ⟨⟨u, e⟩, -, h⟩ := Result.andThen_eq_next h
    cases h
    exact ofCallback_code e

theorem cycleOnce_code (h : cycleOnce s = .next t) : ∃ c, t.reply.code = some c ∧ c ≤ 3 := by
  unfold cycleOnce at h
  split at h
  · exact fetchFault_code h
  · obtain ⟨c, hc, hle⟩ := dispatchWord_code h
    exact ⟨c, hc, by omega⟩

/-- A SCHED.STEP without OK is its inner step (R211). -/
theorem schedStep_code (h : exec .schedStep s = .next t) : ∃ c, t.reply.code = some c ∧ c ≤ 3 := by
  by_cases hok : t.reply = .ok
  · exact ⟨0, by rw [hok]; rfl, by decide⟩
  · exact cycleOnce_code (schedStep_faulted h hok).1

end

/-- Settles O49: each number is the table's, and each operation is one access, one register write or read, a submission,
or a step whose status its scripts return. -/
theorem statusCodesByOperation : Obligations.StatusCodesByOperation := by
  unfold Obligations.StatusCodesByOperation
  refine ⟨fun v av p => ⟨rfl, rfl, rfl, rfl, rfl, rfl, rfl, rfl⟩, fun s t o a n d x j b data v16 v32 v64 =>
    ⟨?_, ?_, submit_reject_code, ?_, fun h => dispatchWord_code (dispatchWord_of_exec h)⟩⟩
  · simp only [List.forall_mem_cons, List.not_mem_nil, false_imp_iff, implies_true, and_true]
    exact ⟨memReadByte_code, memWriteByte_code, memReadRaw_code, memWriteRaw_code, loadTyped_code, loadTyped_code,
      loadTyped_code, loadTyped_code, loadTyped_code, storeRaw_code, storeRaw_code, storeRaw_code, storeRaw_code,
      storeRaw_code⟩
  · have hwriters : ∀ op ∈ registerWriters j x, exec op s = .next t → t.reply.code = some 0 :=
      fun _ => registerWriter_code
    simp only [registerWriters, List.forall_mem_cons, List.not_mem_nil, false_imp_iff, implies_true, and_true]
      at hwriters ⊢
    obtain ⟨hsetInt, hincInt, hdecInt, hsetFloat, hincFloat, hdecFloat⟩ := hwriters
    exact ⟨hsetInt, regRead_code, hincInt, hdecInt, hsetFloat, regRead_code, hincFloat, hdecFloat, regRead_code,
      fun h => by cases h; rfl, fun h => by cases h; rfl⟩
  · simp only [List.forall_mem_cons, List.not_mem_nil, false_imp_iff, implies_true, and_true]
    exact ⟨cycleOnce_code, schedStep_code⟩

end Sys2Proof.Machine
end

section
/-! PROOFS of the family 70_reset_and_hazards.md: that a fault whose callback only suppresses it repeats forever, and
that a stepper that hangs completes no step. -/

namespace Sys2Proof.Machine

/-! ### The suppressed fault that repeats (R276) -/

/-- With no action and no submission waiting, all that follows a successful inner step is the status OK (R204, R209). -/
theorem afterInner_of_nothingWaiting {s : State} (hchan : s.chan = []) (hpend : s.pend = []) (hheld : s.held = []) :
    afterInner s = .next (s.answer .ok) := by
  have hlist : traversed s = [] := by rw [traversed_eq, hchan, hpend, List.take_nil, List.append_nil]
  rw [afterInner_eq, hlist, traverse, Result.andThen_next]
  simp [State.release, State.setQueues, State.answer, hchan, hpend, hheld]

/-- The hazard: the fetch fails, the callback only suppresses the fault, nothing waits, and the last status was OK. -/
structure FaultLoop (s : State) : Prop where
  callback : s.cfg.cb = some (.ret .ok)
  fetch    : s.cfg.memSize < s.pc.toNat + s.cfg.width
  inbox    : s.inbox = []
  chan     : s.chan = []
  pend     : s.pend = []
  held     : s.held = []
  reply    : s.reply = .ok

/-- Nothing that makes the loop is in the history. -/
theorem FaultLoop.log {s : State} (h : FaultLoop s) (e : Event) : FaultLoop (s.log e) :=
  ⟨h.callback, h.fetch, h.inbox, h.chan, h.pend, h.held, h.reply⟩

theorem FaultLoop.answer_ok {s : State} (h : FaultLoop s) : s.answer .ok = s := by
  rw [← h.reply]; rfl

/-- One turn of the loop: the machine's step is a call of CB and leaves everything else as it is. -/
theorem FaultLoop.step_eq {s : State} (h : FaultLoop s) :
    step s = .next (s.log (.calledBack (fetchViolation s))) := by
  have hlog := h.log (.calledBack (fetchViolation s))
  have hcycle : cycleOnce s = .next ((s.log (.calledBack (fetchViolation s))).answer .ok) :=
    (cycleOnce_outOfBounds h.fetch).trans (fetchFault_of_callback (e := .ok) h.callback rfl)
  rw [hlog.answer_ok] at hcycle
  calc step s
    _ = execSchedStep s := step_of_idle h.inbox
    _ = afterInner (s.log (.calledBack (fetchViolation s))) := execSchedStep_of_ok hcycle hlog.reply
    _ = .next ((s.log (.calledBack (fetchViolation s))).answer .ok) :=
      afterInner_of_nothingWaiting hlog.chan hlog.pend hlog.held
    _ = .next (s.log (.calledBack (fetchViolation s))) := by rw [hlog.answer_ok]

theorem FaultLoop.run_eq {s : State} (h : FaultLoop s) (n : Nat) : Host.Core.run Sys2Proof.core n s =
    .next { s with events := s.events ++ List.replicate n (.calledBack (fetchViolation s)) } := by
  induction n generalizing s with
  | zero => rw [List.replicate_zero, List.append_nil]; rfl
  | succ n ih =>
    have hturn : Host.Core.run Sys2Proof.core (n + 1) s =
        Host.Core.run Sys2Proof.core n (s.log (.calledBack (fetchViolation s))) := coreRun_succ n h.step_eq
    rw [List.replicate_succ, List.append_cons]
    exact hturn.trans (ih (h.log _))

/-- Settles O39: each step leaves the loop as it was, by induction on the number of steps. -/
theorem suppressedFaultRepeatsForever : Obligations.SuppressedFaultRepeatsForever := by
  unfold Obligations.SuppressedFaultRepeatsForever
  intro s n hcb hfetch hinbox hchan hpend hheld hreply
  exact FaultLoop.run_eq ⟨hcb, hfetch, hinbox, hchan, hpend, hheld, hreply⟩ n

/-! ### The stepper that hangs (R282) -/

/-- Settles O54: the fault stepperHung is one of the stops that a step takes over from its scripts. -/
theorem hangingStepperNeverCompletes : Obligations.HangingStepperNeverCompletes := by
  unfold Obligations.HangingStepperNeverCompletes
  exact ⟨fun _ _ _ => rfl, fun s => stopsWithItsScripts s (.fault .stepperHung)⟩

end Sys2Proof.Machine
end

section
/-! Proofs about the reference FNUM (D11, log 10): a finite pattern's value rounds to its own magnitude. -/

namespace Sys2Proof.Machine

section
variable (f : FloatFormat)

/-- What `units` makes of a magnitude, before the sign: a subnormal's fraction (exponent field 0), or a normal
number's significand at its exponent. -/
def FloatFormat.magnitudeUnits (m : Nat) : Nat :=
  if m / 2 ^ f.mb = 0 then m % 2 ^ f.mb else (2 ^ f.mb + m % 2 ^ f.mb) * 2 ^ (m / 2 ^ f.mb - 1)

theorem FloatFormat.units_eq (x : Nat) : f.units x =
    if f.negative x then -(f.magnitudeUnits (f.magnitude x) : Int) else f.magnitudeUnits (f.magnitude x) := rfl

theorem FloatFormat.units_zero : f.units 0 = 0 := by
  simp [units_eq, magnitudeUnits, magnitude]

theorem FloatFormat.magnitudeUnits_of_lt {m : Nat} (hm : m < 2 ^ f.mb) : f.magnitudeUnits m = m := by
  rw [magnitudeUnits, if_pos (Nat.div_eq_of_lt hm), Nat.mod_eq_of_lt hm]

/-- A normal number of exponent field `k + 1` and significand `q`, the hidden bit included. -/
theorem FloatFormat.magnitudeUnits_normal (k : Nat) {q : Nat} (hlo : 2 ^ f.mb ≤ q) (hhi : q < 2 ^ (f.mb + 1)) :
    f.magnitudeUnits (k * 2 ^ f.mb + q) = q * 2 ^ k := by
  obtain ⟨frac, rfl⟩ := Nat.exists_eq_add_of_le hlo
  have hfrac : frac < 2 ^ f.mb := by rw [pow_succ] at hhi; omega
  have hfields : k * 2 ^ f.mb + (2 ^ f.mb + frac) = frac + 2 ^ f.mb * (k + 1) := by ring
  rw [magnitudeUnits, hfields, Nat.add_mul_div_left _ _ (Nat.two_pow_pos _), Nat.add_mul_mod_self_left,
    Nat.div_eq_of_lt hfrac, Nat.mod_eq_of_lt hfrac, if_neg (by omega), Nat.zero_add, Nat.add_sub_cancel]

/-- Every magnitude is a subnormal or a normal number (or a NaN of the same shape). -/
theorem FloatFormat.magnitude_cases (m : Nat) :
    m < 2 ^ f.mb ∨ ∃ k q, 2 ^ f.mb ≤ q ∧ q < 2 ^ (f.mb + 1) ∧ m = k * 2 ^ f.mb + q := by
  rcases Nat.lt_or_ge m (2 ^ f.mb) with hm | hm
  · exact .inl hm
  · obtain ⟨n, rfl⟩ := Nat.exists_eq_add_of_le hm
    have hfrac := Nat.mod_lt n (Nat.two_pow_pos f.mb)
    have hsplit := Nat.div_add_mod' n (2 ^ f.mb)
    exact .inr ⟨n / 2 ^ f.mb, 2 ^ f.mb + n % 2 ^ f.mb, by omega, by rw [pow_succ]; omega, by omega⟩

theorem FloatFormat.magnitudeUnits_ne_zero {m : Nat} (hm : m ≠ 0) : f.magnitudeUnits m ≠ 0 := by
  obtain hsub | ⟨k, q, hlo, hhi, rfl⟩ := f.magnitude_cases m
  · rwa [f.magnitudeUnits_of_lt hsub]
  · rw [f.magnitudeUnits_normal k hlo hhi]
    exact Nat.mul_ne_zero (by have := Nat.two_pow_pos f.mb; omega) (Nat.two_pow_pos k).ne'

theorem FloatFormat.round_of_lt {n : Nat} (hn : n < 2 ^ (f.mb + 1)) : f.round n = n := if_pos hn

/-- A significand of the format's precision shifted left leaves no remainder, so nothing is rounded away. -/
theorem FloatFormat.round_shifted (k : Nat) {q : Nat} (hlo : 2 ^ f.mb ≤ q) (hhi : q < 2 ^ (f.mb + 1)) :
    f.round (q * 2 ^ (k + 1)) = min ((k + 1) * 2 ^ f.mb + q) f.infinity := by
  have hlarge : ¬ q * 2 ^ (k + 1) < 2 ^ (f.mb + 1) := by
    rw [not_lt, pow_succ 2 f.mb]
    exact Nat.mul_le_mul hlo (Nat.le_self_pow k.succ_ne_zero 2)
  have hlog : Nat.log2 (q * 2 ^ (k + 1)) = f.mb + (k + 1) := by
    rw [Nat.log2_eq_iff (by have := Nat.two_pow_pos (f.mb + 1); omega)]
    constructor
    · rw [pow_add]; exact Nat.mul_le_mul_right _ hlo
    · rw [Nat.add_right_comm, pow_add _ (f.mb + 1)]; exact Nat.mul_lt_mul_of_pos_right hhi (Nat.two_pow_pos _)
  have hhalf := Nat.two_pow_pos k
  rw [round, if_neg hlarge, hlog]
  simp [hhalf.ne]

/-- Rounding inverts decomposition on every finite magnitude (and on infinity). -/
theorem FloatFormat.round_magnitudeUnits {m : Nat} (hm : m ≤ f.infinity) : f.round (f.magnitudeUnits m) = m := by
  obtain hsub | ⟨k, q, hlo, hhi, rfl⟩ := f.magnitude_cases m
  · rw [f.magnitudeUnits_of_lt hsub]
    exact f.round_of_lt (hsub.trans (Nat.pow_lt_pow_succ (by decide)))
  · rw [f.magnitudeUnits_normal k hlo hhi]
    cases k with
    | zero => rw [pow_zero, Nat.mul_one, Nat.zero_mul, Nat.zero_add, f.round_of_lt hhi]
    | succ k => rw [f.round_shifted k hlo hhi, Nat.min_eq_left hm]

/-- A pattern is its sign bit and its magnitude. -/
theorem FloatFormat.signed_negative_magnitude {x : Nat} (hx : x < 2 ^ (f.eb + f.mb + 1)) :
    f.signed (f.negative x) (f.magnitude x) = x := by
  have hsign : x / 2 ^ (f.eb + f.mb) < 2 := Nat.div_lt_of_lt_mul (pow_succ 2 (f.eb + f.mb) ▸ hx)
  have hsplit := Nat.div_add_mod' x (2 ^ (f.eb + f.mb))
  rw [signed, negative, magnitude]
  obtain hpos | hneg := Nat.le_one_iff_eq_zero_or_eq_one.mp (Nat.le_of_lt_succ hsign)
  · rw [hpos, Nat.zero_mul, Nat.zero_add] at hsplit
    simpa [hpos] using hsplit
  · rw [hneg, Nat.one_mul] at hsplit
    simpa [hneg] using hsplit

/-- The sum of two finite patterns whose exact sum is not zero: that sum, rounded. -/
theorem FloatFormat.add_finite (free : Nat) {x y : Nat} (hx : f.magnitude x < f.infinity)
    (hy : f.magnitude y < f.infinity) (hsum : f.units x + f.units y ≠ 0) : f.add free x y =
      f.signed (decide (f.units x + f.units y < 0)) (f.round (f.units x + f.units y).natAbs) := by
  simp only [add]
  rw [if_neg (by omega), if_neg hx.ne, if_neg hy.ne, if_neg hsum]

theorem FloatFormat.natAbs_units (x : Nat) : (f.units x).natAbs = f.magnitudeUnits (f.magnitude x) := by
  rw [units_eq]
  split <;> omega

/-- A nonzero pattern's value has the pattern's sign. -/
theorem FloatFormat.decide_units_neg {x : Nat} (hx : f.magnitude x ≠ 0) :
    decide (f.units x < 0) = f.negative x := by
  have hne := f.magnitudeUnits_ne_zero hx
  rw [units_eq]
  cases f.negative x with
  | false => simp
  | true => simpa using Nat.pos_of_ne_zero hne

/-- A finite nonzero pattern plus +0: its value is exact, and it rounds to the pattern's own magnitude. -/
theorem FloatFormat.add_zero (free : Nat) {x : Nat} (hx : x < 2 ^ (f.eb + f.mb + 1)) (hne : f.magnitude x ≠ 0)
    (hfin : f.magnitude x < f.infinity) : f.add free x 0 = x := by
  have hzero : f.magnitude 0 < f.infinity := by rw [magnitude, Nat.zero_mod]; omega
  have hvalue : f.units x + f.units 0 = f.units x := by rw [units_zero, Int.add_zero]
  have hsum : f.units x ≠ 0 := by
    rw [← Int.natAbs_ne_zero, natAbs_units]
    exact f.magnitudeUnits_ne_zero hne
  rw [f.add_finite free hfin hzero (hvalue.symm ▸ hsum), hvalue, f.decide_units_neg hne, natAbs_units,
    f.round_magnitudeUnits hfin.le, f.signed_negative_magnitude hx]

end

/-- Settles O23: binary32 and binary64 are two formats of which `FloatFormat.add_zero` speaks. -/
theorem referenceAdditionOfZeroIsExact : Obligations.ReferenceAdditionOfZeroIsExact := by
  unfold Obligations.ReferenceAdditionOfZeroIsExact
  exact fun free _ => ⟨binary32.add_zero free, binary64.add_zero free⟩

end Sys2Proof.Machine
end
